-- ==== Sys2Proof/Word.lean ====
section
/-! DEFINITION. The word types of the SEA block: 32-bit registers (R21, R61) and payload bytes (R41). -/

namespace Sys2Proof

/-- A 32-bit register, port or filter word. -/
abbrev Word := BitVec 32

/-- One payload byte, and every other 8-bit field. -/
abbrev Byte := BitVec 8

end Sys2Proof
end

