-- ==== Sys2Proof/Syntax.lean ====
section
/-! DEFINITION. The operations of the block: one constructor per row of the opcode table (R101), with the
immediate fields of R102 already turned into named values. -/

namespace Sys2Proof

/-- Identifier format (R18): `STD = 0` (11 bits), `EXT = 1` (29 bits). -/
inductive Format
  | std
  | ext
  deriving DecidableEq, Repr, Inhabited

/-- Kind of a filter specification (R18, R150): `DATA = 0`, `REMOTE = 1`. -/
inductive FilterKind
  | data
  | remote
  deriving DecidableEq, Repr, Inhabited

/-- The two agents that act on a block (R15). -/
inductive Agent
  | host
  | interrupt
  deriving DecidableEq, Repr

/-- The operations of R101. The first 29 are commands (format C of R100), issued by the host through `CMD`;
`isrc` and `isrFd` are the two handler operations (format E), which no word encodes. -/
inductive Instr
  /-- `NOP`, R170. -/
  | nop
  /-- `SOLVE`, R120. -/
  | solve
  /-- `SOLVEFD`, R126. -/
  | solveFd
  /-- `CHECK`, R132. -/
  | check
  /-- `ACTUAL`, R135. -/
  | actual
  /-- `EXACT`, R136. -/
  | exact
  /-- `PPM`, R137. -/
  | ppm
  /-- `SAMPLE`, R138. -/
  | sample
  /-- `DACTUAL`, R139. -/
  | dactual
  /-- `DEXACT`, R140. -/
  | dexact
  /-- `DSAMPLE`, R141. -/
  | dsample
  /-- `ENCP`, R156, with its immediate fields `KIND` and `FORMAT`. -/
  | encp (kind : FilterKind) (fmt : Format)
  /-- `ENCS`, R157. -/
  | encs (kind : FilterKind) (fmt : Format)
  /-- `ENCF`, R158. -/
  | encf (kind : FilterKind) (fmt : Format)
  /-- `ENCANY`, R159. -/
  | encany
  /-- `FPUSHP`, R160. -/
  | fpushp
  /-- `FPUSHS`, R161. -/
  | fpushs
  /-- `FPUSHF`, R162. -/
  | fpushf
  /-- `FCLEAR`, R163. -/
  | fclear
  /-- `BEGIN`, R175. -/
  | beginCmd
  /-- `BEGINFD`, R180. -/
  | beginFd
  /-- `END`, R181. -/
  | endCmd
  /-- `GSCLR`, R182, with its immediate field `CLR`. -/
  | gsclr (clr : BitVec 4)
  /-- `SEND`, R190. -/
  | send
  /-- `SENDFD`, R197. -/
  | sendFd
  /-- `RECV`, R200. -/
  | recv
  /-- `RECVFD`, R201. -/
  | recvFd
  /-- `DISPATCH`, R202, with its immediate field `NOTIFY`. -/
  | dispatch (notify : Bool)
  /-- `DISPATCHFD`, R203. -/
  | dispatchFd (notify : Bool)
  /-- `ISRC`, R213: the handler in classic mode. -/
  | isrc
  /-- `ISRFD`, R218: the handler in FD mode. -/
  | isrFd
  deriving DecidableEq, Repr

end Sys2Proof
end

