-- ==== Sys2Proof/Machine/Types.lean ====
section
/-! DEFINITION. The plain data the block handles: frames, filter words, port answers and the actions of the
output trace. -/

namespace Sys2Proof.Machine

/-- Kind of a frame (R18, R40): `DATA = 0`, `REMOTE = 1`, `FD_NOBRS = 2`, `FD_BRS = 3`. -/
inductive FrameKind
  | data
  | remote
  | fdNoBrs
  | fdBrs
  deriving DecidableEq, Repr, Inhabited

/-- A frame record (R42). The field widths admit ill-formed frames on purpose: `ClassicOk` and `FdOk` test them. -/
structure Frame where
  id : BitVec 29
  ext : Format
  kind : FrameKind
  len : BitVec 7
  data : Vector Byte 64
  idx : Byte
  deriving DecidableEq, Repr, Inhabited

/-- A frame register file, `TXF` or `RXF` (R40): the defined fields of `ID`, `CTL` and the words `D[0..15]`. The
undefined bits of `ID` and `CTL` have no storage, since they read as 0 and ignore writes. -/
structure FrameFile where
  id : BitVec 29
  ext : Format
  kind : FrameKind
  len : BitVec 7
  idx : Byte
  d : Vector Word 16
  deriving DecidableEq, Repr

/-- An internal memory, by entry index: the entries ever written, in rising index order (R60, R64). An entry not
listed was never written; its content is unspecified (R52, R69). -/
abbrev Memory (α : Type) := List (Nat × α)

/-- A pair of mask word and acceptance word, the content of one filter slot (R48, R151, R153). -/
structure FilterPair where
  mw : Word
  aw : Word
  deriving DecidableEq, Repr, Inhabited

/-- An entry of a staging list (R47): the pair and the callback reference, 0 for none. -/
structure FilterEntry where
  mw : Word
  aw : Word
  cb : Word
  deriving DecidableEq, Repr, Inhabited

/-- Mailbox state as the port reports it (R80). -/
inductive MbCode
  | inactive
  | empty
  | full
  | overrun
  | txpend
  deriving DecidableEq, Repr, Inhabited

/-- The answer of `PortRead(FifoFrame)` (R78): an image of two data words and the 9-bit filter hit index. -/
structure FifoAnswer where
  cs : Word
  idw : Word
  dw0 : Word
  dw1 : Word
  hit : BitVec 9
  deriving DecidableEq, Repr, Inhabited

/-- The answer of `PortRead(MbFrame(i))` (R78): control, identifier and data words. Sixteen data words are carried
whatever the payload class; only the first `PayloadBytes / 4` are used (R72). -/
structure MbImage where
  cs : Word
  idw : Word
  dw : Vector Word 16
  deriving DecidableEq, Repr, Inhabited

/-- The direction argument of `PortRead(PinValid(dir, p))` (R78). -/
inductive PinDir
  | tx
  | rx
  deriving DecidableEq, Repr, Inhabited

/-- The fields common to both configuration images (R176). -/
structure ImageCommon where
  brp : BitVec 16
  prop : Byte
  ps1 : Byte
  ps2 : Byte
  rjw : Byte
  triple : Bool
  slots : List FilterPair
  txpin : Byte
  rxpin : Byte
  deriving DecidableEq, Repr

/-- The fields only the FD image has (R176). -/
structure ImageFd where
  dprop : Byte
  dps1 : Byte
  dps2 : Byte
  drjw : Byte
  payload : BitVec 2
  rxmb : Byte
  deriving DecidableEq, Repr

/-- The configuration image of `ConfigWrite` (R176); the constructor is its `mode` field. -/
inductive ConfigImage
  | classic (c : ImageCommon)
  | fd (c : ImageCommon) (f : ImageFd)
  deriving DecidableEq, Repr

/-- The actions of the controller port (R79), in R79's order. -/
inductive Action
  | mbWriteTx (i : Nat) (cs idw : Word) (dw : List Word)
  | mbSetInactive (i : Nat)
  | mbRearm (i : Nat) (aw : Word)
  /-- `FlagsClear` of the classic handler, a 4-bit event word. -/
  | flagsClear (w : BitVec 4)
  /-- `FlagsClear` of the FD handler, a 64-bit flag mask. -/
  | flagsClearFd (w : BitVec 64)
  | configWrite (img : ConfigImage)
  | freezeEnter
  | freezeExit
  | irqInstall
  | irqEnable
  | irqDisable
  | callbackInvoke (cb : Word) (f : Frame)
  | matchNotify (idx : Byte)
  deriving DecidableEq, Repr

/-- What `AwaitAck` waits for (R90). -/
inductive Ack
  | frozen
  | unfrozen
  deriving DecidableEq, Repr

/-- One move of the outside: a bus access of the host at a byte address with its size in bytes (R61, R62), a turn of
the interrupt agent (R212), an acknowledgement of the environment (R90, R171), or the platform's reset (R260). -/
inductive Input
  | busWrite (addr size : Nat) (v : Word)
  | busRead (addr size : Nat)
  | irq
  | ack (what : Ack)
  | reset
  deriving DecidableEq, Repr

end Sys2Proof.Machine
end

