-- ==== Sys2Proof/Config.lean ====
section
/-! DEFINITION. The constants every instance shares (R8, R9), the open parameters of one instance (R9) and the
free values: what the spec leaves unspecified (R52, R69, U2, U5). -/

namespace Sys2Proof

/-- The open parameters of R9, one value of each per instance. -/
structure Params where
  /-- `SEA_BASE` (R61): the byte address of the register space. -/
  seaBase : Nat
  fdCapable : Bool
  fdShiftStd : Nat
  nPrimaryMax : Nat
  nSecondaryMax : Nat
  nMb : Nat
  mbTxRemoteFirst : Nat
  mbTxData : Nat
  /-- `FD_MB_TOTAL(c)` for the payload classes of 8, 16, 32 and 64 bytes. -/
  fdMbTotal8 : Nat
  fdMbTotal16 : Nat
  fdMbTotal32 : Nat
  fdMbTotal64 : Nat
  deriving DecidableEq, Repr

namespace Config

/-- The defaults of R9. `FD_CAPABLE` and `SEA_BASE` have no default there: DESIGN CHOICE `true` and 0 (unsafe as
premises of a claim), log entry 3. -/
def defaults : Params where
  seaBase := 0
  fdCapable := true
  fdShiftStd := 19
  nPrimaryMax := 32
  nSecondaryMax := 96
  nMb := 64
  mbTxRemoteFirst := 38
  mbTxData := 63
  fdMbTotal8 := 64
  fdMbTotal16 := 42
  fdMbTotal32 := 24
  fdMbTotal64 := 14

/-! ## Constants (R8, R9) -/

def tqMin : Nat := 5
def tqMaxC : Nat := 25
def tqMaxD : Nat := 48
def tqMaxA : Nat := 129
def brpMaxC : Nat := 256
def brpMaxF : Nat := 1024
def rjwMaxC : Nat := 4
def tripleRate : Nat := 125000
def ppmScale : Nat := 1000000
def nInstances : Nat := 3
def idMaxStd : Nat := 0x7FF
def idMaxExt : Nat := 0x1FFFFFFF
def lenMaxC : Nat := 8
def lenMaxF : Nat := 64
def propMaxC : Nat := 8
def ps1MaxC : Nat := 8
def ps2MaxC : Nat := 8
def propMaxA : Nat := 64
def ps1MaxA : Nat := 32
def ps2MaxA : Nat := 32
def rjwMaxA : Nat := 32
def propMaxD : Nat := 31
def ps1MaxD : Nat := 8
def ps2MaxD : Nat := 8
def rjwMaxD : Nat := 8
def factorMax : Nat := 8
def divMax : Nat := 255
def shiftExt : Nat := 1
def shiftStd : Nat := 19
def qcapMax : Nat := 65535
def stageMax : Nat := 255
/-- The number of FD staging entries stored (R47). -/
def stageFd : Nat := 64
/-- The size of the register space in bytes (R61). -/
def mapBytes : Nat := 0x200

/-! ## Free values

The answers of the controller port come from the environment (R76). `State.port` holds those the environment has
already given; an answer beyond them is a free value of the number of such draws so far (log entry 2). -/

/-- `PortRead(MbCode(i))`. -/
opaque freeMbCode : Nat → Nat → Machine.MbCode
/-- `PortRead(Flags)`. -/
opaque freeFlags : Nat → BitVec 4
/-- `PortRead(FlagsLo)`. -/
opaque freeFlagsLo : Nat → Word
/-- `PortRead(FlagsHi)`. -/
opaque freeFlagsHi : Nat → Word
/-- `PortRead(FifoFrame)`. -/
opaque freeFifoFrame : Nat → Machine.FifoAnswer
/-- `PortRead(MbFrame(i))`. -/
opaque freeMbFrame : Nat → Nat → Machine.MbImage
/-- `PortRead(Timer)`. -/
opaque freeTimer : Nat → BitVec 16
/-- `PortRead(PinValid(dir, p))`. -/
opaque freePinValid : Nat → Machine.PinDir → Byte → Bool

/-! The content of a memory entry never written (R52, R69, U5; log entry 8). No rule reads one in a state a run
reaches. -/

/-- An entry of `RXQ` or `TXQ`. -/
opaque unwrittenFrame : Nat → Machine.Frame
/-- An entry of `SP`, `SS` or `SF`. -/
opaque unwrittenFilter : Nat → Machine.FilterEntry
/-- An entry of `SLOT`. -/
opaque unwrittenSlot : Nat → Machine.FilterPair
/-- An entry of `CBT`. -/
opaque unwrittenCallback : Nat → Word

/-- `CodeOfLen` of a length outside `LENSET`, which R74 does not define (log entry 9). -/
opaque freeLenCode : Nat → BitVec 4

end Config

end Sys2Proof
end

