-- ==== Sys2Proof/WellFormed.lean ====
section
/-! DEFINITION. Which operation which agent may perform (R15, R100, R246), and which parameters an instance may have
(R9). -/

namespace Sys2Proof

/-- `i` is a command (format C of R100): a word of `CMD` encodes it. The two handler operations are format E. -/
def Instr.isCommand : Instr → Bool
  | .isrc => false
  | .isrFd => false
  | _ => true

/-- What each agent may perform (R246): the host issues commands, the interrupt agent runs the handler. -/
def Instr.WellFormed (a : Agent) (i : Instr) : Bool :=
  match a with
  | .host => i.isCommand
  | .interrupt => !i.isCommand

/-- The constraints of R9 on the open parameters, and the alignment of `SEA_BASE` (`92_eei_decisions.md`). -/
def Params.wf (p : Params) : Bool :=
  p.seaBase % 4 == 0
    && decide (1 ≤ p.nPrimaryMax)
    && decide (p.nPrimaryMax + p.nSecondaryMax ≤ 254)
    && decide (p.mbTxRemoteFirst ≤ p.mbTxData)
    && decide (p.mbTxData < p.nMb)
    && decide (p.nMb ≤ 64)
    && decide (1 ≤ p.fdShiftStd) && decide (p.fdShiftStd ≤ 19)
    && decide (3 ≤ p.fdMbTotal8) && decide (p.fdMbTotal8 ≤ 64)
    && decide (3 ≤ p.fdMbTotal16) && decide (p.fdMbTotal16 ≤ 64)
    && decide (3 ≤ p.fdMbTotal32) && decide (p.fdMbTotal32 ≤ 64)
    && decide (3 ≤ p.fdMbTotal64) && decide (p.fdMbTotal64 ≤ 64)

end Sys2Proof
end

