-- ==== Sys2Proof/Decode.lean ====
section
/-! DEFINITION. The command word (R100 to R104): the decoder, total on 32-bit words, then the encoder. -/

namespace Sys2Proof

/-- Why a word written to `CMD` is `ILLEGAL_COMMAND` (R103 step 2). -/
inductive DecodeError
  /-- `w[7:0]` is not an opcode of R101 (R104). -/
  | reservedOpcode
  /-- A must-be-zero immediate bit of R102 is 1. -/
  | nonzeroImmediate
  deriving DecidableEq, Repr

/-- `OP = w[7:0]` (R100). -/
def opField (w : Word) : Byte := w.extractLsb' 0 8

/-- `IMM = w[31:8]` (R100). -/
def immField (w : Word) : BitVec 24 := w.extractLsb' 8 24

/-- `KIND` bit to filter kind (R102). -/
def kindOfBit (b : Bool) : FilterKind := if b then .remote else .data

/-- `FORMAT` bit to format (R102). -/
def formatOfBit (b : Bool) : Format := if b then .ext else .std

/-- An opcode without immediate: `IMM` must be 0. -/
def decodePlain (imm : BitVec 24) (i : Instr) : Except DecodeError Instr :=
  if imm = 0 then .ok i else .error .nonzeroImmediate

/-- ENCP, ENCS, ENCF: `IMM[0] = KIND`, `IMM[1] = FORMAT`, `IMM[23:2]` must be 0. -/
def decodeFilter (imm : BitVec 24) (mk : FilterKind → Format → Instr) : Except DecodeError Instr :=
  if imm.extractLsb' 2 22 = 0 then .ok (mk (kindOfBit (imm.getLsbD 0)) (formatOfBit (imm.getLsbD 1)))
  else .error .nonzeroImmediate

/-- GSCLR: `IMM[3:0] = CLR`, `IMM[23:4]` must be 0. -/
def decodeGsclr (imm : BitVec 24) : Except DecodeError Instr :=
  if imm.extractLsb' 4 20 = 0 then .ok (.gsclr (imm.extractLsb' 0 4)) else .error .nonzeroImmediate

/-- DISPATCH, DISPATCHFD: `IMM[0] = NOTIFY`, `IMM[23:1]` must be 0. -/
def decodeNotify (imm : BitVec 24) (mk : Bool → Instr) : Except DecodeError Instr :=
  if imm.extractLsb' 1 23 = 0 then .ok (mk (imm.getLsbD 0)) else .error .nonzeroImmediate

/-- The decoder of R103 step 2, over the opcode map of R101. -/
def decode (w : Word) : Except DecodeError Instr :=
  let imm := immField w
  match (opField w).toNat with
  | 0x00 => decodePlain imm .nop
  | 0x10 => decodePlain imm .solve
  | 0x11 => decodePlain imm .solveFd
  | 0x12 => decodePlain imm .check
  | 0x13 => decodePlain imm .actual
  | 0x14 => decodePlain imm .exact
  | 0x15 => decodePlain imm .ppm
  | 0x16 => decodePlain imm .sample
  | 0x17 => decodePlain imm .dactual
  | 0x18 => decodePlain imm .dexact
  | 0x19 => decodePlain imm .dsample
  | 0x20 => decodeFilter imm .encp
  | 0x21 => decodeFilter imm .encs
  | 0x22 => decodeFilter imm .encf
  | 0x23 => decodePlain imm .encany
  | 0x24 => decodePlain imm .fpushp
  | 0x25 => decodePlain imm .fpushs
  | 0x26 => decodePlain imm .fpushf
  | 0x27 => decodePlain imm .fclear
  | 0x30 => decodePlain imm .beginCmd
  | 0x31 => decodePlain imm .beginFd
  | 0x32 => decodePlain imm .endCmd
  | 0x33 => decodeGsclr imm
  | 0x40 => decodePlain imm .send
  | 0x41 => decodePlain imm .sendFd
  | 0x42 => decodePlain imm .recv
  | 0x43 => decodePlain imm .recvFd
  | 0x44 => decodeNotify imm .dispatch
  | 0x45 => decodeNotify imm .dispatchFd
  | _ => .error .reservedOpcode

/-! ## The encoder -/

/-- `IMM ++ OP` (R100). -/
def commandWord (op : Byte) (imm : BitVec 24) : Word := imm ++ op

/-- `KIND` of a filter kind (R18). -/
def bitOfKind : FilterKind → Bool
  | .data => false
  | .remote => true

/-- `FORMAT` of a format (R18). -/
def bitOfFormat : Format → Bool
  | .std => false
  | .ext => true

/-- The immediate of ENCP, ENCS, ENCF (R102). -/
def filterImm (k : FilterKind) (f : Format) : BitVec 24 :=
  0#22 ++ BitVec.ofBool (bitOfFormat f) ++ BitVec.ofBool (bitOfKind k)

/-- The immediate of DISPATCH, DISPATCHFD (R102). -/
def notifyImm (n : Bool) : BitVec 24 := 0#23 ++ BitVec.ofBool n

/-- The command word of an operation (R101, R102); none for the handler operations, which are format E (R100). -/
def encode : Instr → Option Word
  | .nop => some (commandWord 0x00 0)
  | .solve => some (commandWord 0x10 0)
  | .solveFd => some (commandWord 0x11 0)
  | .check => some (commandWord 0x12 0)
  | .actual => some (commandWord 0x13 0)
  | .exact => some (commandWord 0x14 0)
  | .ppm => some (commandWord 0x15 0)
  | .sample => some (commandWord 0x16 0)
  | .dactual => some (commandWord 0x17 0)
  | .dexact => some (commandWord 0x18 0)
  | .dsample => some (commandWord 0x19 0)
  | .encp k f => some (commandWord 0x20 (filterImm k f))
  | .encs k f => some (commandWord 0x21 (filterImm k f))
  | .encf k f => some (commandWord 0x22 (filterImm k f))
  | .encany => some (commandWord 0x23 0)
  | .fpushp => some (commandWord 0x24 0)
  | .fpushs => some (commandWord 0x25 0)
  | .fpushf => some (commandWord 0x26 0)
  | .fclear => some (commandWord 0x27 0)
  | .beginCmd => some (commandWord 0x30 0)
  | .beginFd => some (commandWord 0x31 0)
  | .endCmd => some (commandWord 0x32 0)
  | .gsclr c => some (commandWord 0x33 (0#20 ++ c))
  | .send => some (commandWord 0x40 0)
  | .sendFd => some (commandWord 0x41 0)
  | .recv => some (commandWord 0x42 0)
  | .recvFd => some (commandWord 0x43 0)
  | .dispatch n => some (commandWord 0x44 (notifyImm n))
  | .dispatchFd n => some (commandWord 0x45 (notifyImm n))
  | .isrc => none
  | .isrFd => none

/-- The decoder on a word numbered as the opcode table numbers it: `nbits` bits of `w`, the bits above them 0. A
command word has 32 bits, so a longer word is none. -/
def decodeTableWord (nbits w : Nat) : Option Instr :=
  if nbits ≤ 32 then
    match decode (BitVec.ofNat 32 (w % 2 ^ nbits)) with
    | .ok i => some i
    | .error _ => none
  else none

end Sys2Proof
end

