-- ==== Sys2Proof/Machine/State.lean ====
section
/-! DEFINITION. The state of one block instance (R20), its value after reset (R51), and the reasons a step can stop. -/

namespace Sys2Proof.Machine

/-- `CMDSTAT.LIFE` (R24, R27): `UNINIT = 0`, `CONFIGURING = 1`, `RUNNING = 2`; the value 3 never occurs. -/
inductive Life
  | uninit
  | configuring
  | running
  deriving DecidableEq, Repr

/-- `CMDSTAT.MODE` (R27): `CLASSIC = 0`, `FD = 1`. -/
inductive Mode
  | classic
  | fd
  deriving DecidableEq, Repr

/-- `CMDSTAT.ERR` (R27, R233): codes 0 to 3; 4 to 15 never occur. -/
inductive ErrCode
  | none
  | illegalCommand
  | badState
  | badOperand
  deriving DecidableEq, Repr

/-- `CMDSTAT.WAITPT` (R27, R171). -/
inductive WaitPt
  | none
  /-- 1: BEGIN or BEGINFD waiting for `Frozen`. -/
  | beginFrozen
  /-- 2: BEGIN or BEGINFD waiting for `Unfrozen`. -/
  | beginUnfrozen
  /-- 3: END waiting for `Frozen`. -/
  | endFrozen
  deriving DecidableEq, Repr

/-- `ACT_CFG` (R30). -/
structure ActCfg where
  np : Byte
  ns : Byte
  nf : Byte
  payload : BitVec 2
  rxmb : BitVec 6
  deriving DecidableEq, Repr

/-- The timing-configuration registers (R31). -/
structure Timing where
  brp : BitVec 16
  prop : Byte
  ps1 : Byte
  ps2 : Byte
  rjw : Byte
  /-- `T_FLAGS`: bit 0 `TRIPLE`, bit 1 `BITOK`, bit 2 `FD`. -/
  flags : BitVec 3
  rate : Word
  clk : Word
  div : Byte
  factor : BitVec 4
  dprop : Byte
  dps1 : Byte
  dps2 : Byte
  drjw : Byte
  deriving DecidableEq, Repr

/-- A ring buffer (R45): its four 16-bit words and its memory. -/
structure Ring where
  cap : BitVec 16
  rd : BitVec 16
  cnt : BitVec 16
  peak : BitVec 16
  mem : Memory Frame
  deriving DecidableEq, Repr

/-- The environment's answers to the `PortRead`s to come (R76, R78): for each kind of read the answers in the order
they will be given, those of an indexed read under their argument. `draws` counts the reads answered by a free value
because no answer was listed (log entry 2). -/
structure Port where
  mbCodes : List (Nat × MbCode)
  flags : List (BitVec 4)
  flagsLo : List Word
  flagsHi : List Word
  fifoFrames : List FifoAnswer
  mbFrames : List (Nat × MbImage)
  timers : List (BitVec 16)
  pins : List ((PinDir × Byte) × Bool)
  draws : Nat
  deriving DecidableEq, Repr

/-- The state of one instance (R20), and after `out` the model's own fields. -/
structure State where
  /-- Argument registers `x[0..4]` (R21). -/
  a0 : Word
  a1 : Word
  a2 : Word
  a3 : Word
  a4 : Word
  /-- Result registers `x[5]`, `x[6]` (R21). -/
  r0 : Word
  r1 : Word
  /-- The fields of `CMDSTAT` (R27). -/
  life : Life
  mode : Mode
  busy : Bool
  err : ErrCode
  waitpt : WaitPt
  /-- `GSTAT` (R28): bit 0 `INIT_ERROR`, 1 `FIFO_WARNING`, 2 `FIFO_OVERFLOW`, 3 `RXBUF_OVERFLOW`. -/
  gstat : BitVec 4
  /-- The fields of `FCOUNT` (R29). -/
  np : Byte
  ns : Byte
  nf : Byte
  /-- `ACT_CFG` (R30). -/
  act : ActCfg
  /-- `T_*` and `TD_*` (R31). -/
  timing : Timing
  /-- The fields of `Q_CFG` (R36). -/
  rxcap : BitVec 16
  txcap : BitVec 16
  /-- The fields of `FD_CFG` (R37). -/
  fdPayload : BitVec 2
  fdRxmb : Byte
  /-- The fields of `PIN_CFG` (R38). -/
  txpin : Byte
  rxpin : Byte
  /-- The frame register files (R40). -/
  txf : FrameFile
  rxf : FrameFile
  /-- The rings (R45). -/
  rxq : Ring
  txq : Ring
  /-- The staging lists (R47). -/
  sp : Memory FilterEntry
  ss : Memory FilterEntry
  sf : Memory FilterEntry
  /-- The active tables (R48). -/
  nslot : Nat
  slot : Memory FilterPair
  ncb : Nat
  cbt : Memory Word
  /-- `OUT` (R50), oldest action first. -/
  out : List Action
  /-- The instance's parameters (R9); no step changes them. -/
  par : Params
  /-- The moves of the outside still to come, next first (log entry 1). -/
  inputs : List Input
  /-- The port answers still to come (log entry 2). -/
  port : Port
  /-- The word the last host read returned (log entry 7). -/
  busData : Word
  deriving DecidableEq, Repr

/-- The block has no faults: "There are no exceptions/panics anywhere in this design" (file 60); every failure is a
refusal code, a result word or a status bit, so no rule raises a member of this type. -/
inductive Fault
  deriving DecidableEq, Repr

/-- Why a step has no meaning. -/
inductive Refusal
  /-- Raised by an arm of `exec` only, for an instruction without a meaning (safe: nothing can be proved of it). No arm
  of this model raises it. -/
  | notModelled (mnemonic : String)
  deriving DecidableEq, Repr

/-- An empty frame register file (R51). -/
def FrameFile.zero : FrameFile where
  id := 0
  ext := .std
  kind := .data
  len := 0
  idx := 0
  d := Vector.replicate 16 0

/-- A ring of capacity 0 (R51). -/
def Ring.zero : Ring where
  cap := 0
  rd := 0
  cnt := 0
  peak := 0
  mem := []

/-- The timing registers after reset (R51). -/
def Timing.zero : Timing where
  brp := 0
  prop := 0
  ps1 := 0
  ps2 := 0
  rjw := 0
  flags := 0
  rate := 0
  clk := 0
  div := 0
  factor := 0
  dprop := 0
  dps1 := 0
  dps2 := 0
  drjw := 0

/-- `ACT_CFG = 0` (R30). -/
def ActCfg.zero : ActCfg where
  np := 0
  ns := 0
  nf := 0
  payload := 0
  rxmb := 0

/-- A port with no answer given yet. -/
def Port.none : Port where
  mbCodes := []
  flags := []
  flagsLo := []
  flagsHi := []
  fifoFrames := []
  mbFrames := []
  timers := []
  pins := []
  draws := 0

/-- The reset state (R51, R261) of an instance with parameters `p`. -/
def State.resetWith (p : Params) : State where
  a0 := 0
  a1 := 0
  a2 := 0
  a3 := 0
  a4 := 0
  r0 := 0
  r1 := 0
  life := .uninit
  mode := .classic
  busy := false
  err := .none
  waitpt := .none
  gstat := 0
  np := 0
  ns := 0
  nf := 0
  act := ActCfg.zero
  timing := Timing.zero
  rxcap := 0
  txcap := 0
  fdPayload := 0
  fdRxmb := 0
  txpin := 0
  rxpin := 0
  txf := FrameFile.zero
  rxf := FrameFile.zero
  rxq := Ring.zero
  txq := Ring.zero
  sp := []
  ss := []
  sf := []
  nslot := 0
  slot := []
  ncb := 0
  cbt := []
  out := []
  par := p
  inputs := []
  port := Port.none
  busData := 0

/-- An instance with parameters `p`; refused outside the constraints of R9. -/
def State.instantiate (p : Params) : Option State :=
  if p.wf then some (State.resetWith p) else none

/-- The block right after reset, with the default parameters of R9. -/
def State.reset : State := State.resetWith Config.defaults

end Sys2Proof.Machine
end

