-- ==== Sys2Proof/Machine/Ops.lean ====
section
/-! DEFINITION. The shared operations: internal memories (R64), rings (R65 to R69), port reads (R76), emitted actions
(R77), the refusal (R230) and the register writes. -/

namespace Sys2Proof.Machine

/-! ## Bits -/

/-- The bit `b` at position `n` of a word. -/
def bitAt (b : Bool) (n : Nat) : Word := (BitVec.ofBool b).setWidth 32 <<< n

/-- The OR of one bit for each condition that holds, the form of every error word (R133, R134, R178, R191). -/
def flagWord : List (Bool × Nat) → Word
  | [] => 0
  | (b, n) :: rest => bitAt b n ||| flagWord rest

/-! ## Internal memories (R64) -/

/-- The canonical form: strictly rising indices. What an entry not listed reads as is no value (R52, R69), so no
listed entry can equal it. -/
abbrev Memory.wf {α : Type} (m : Memory α) : Prop := m.Pairwise fun a b => a.1 < b.1

/-- The entry at index `i`, if it was ever written. -/
def Memory.read? {α : Type} : Memory α → Nat → Option α
  | [], _ => none
  | (k, v) :: m, i => if k = i then some v else Memory.read? m i

/-- `MemWrite(space, i, 1, v)`: replace the entry at index `i`. -/
def Memory.write {α : Type} : Memory α → Nat → α → Memory α
  | [], i, v => [(i, v)]
  | (k, w) :: m, i, v =>
    if i < k then (i, v) :: (k, w) :: m
    else if i = k then (i, v) :: m
    else (k, w) :: Memory.write m i v

/-- A table written whole: entry `i` is `f i` for `i < n`. -/
def Memory.table {α : Type} (n : Nat) (f : Nat → α) : Memory α := (List.range n).map fun i => (i, f i)

/-- `MemRead(RXQ, i, 1)`, `MemRead(TXQ, i, 1)`. -/
def readFrame (m : Memory Frame) (i : Nat) : Frame := (m.read? i).getD (Config.unwrittenFrame i)

/-- `MemRead(FT, SP[i], 1)`, and the same for `SS` and `SF`. -/
def readFilter (m : Memory FilterEntry) (i : Nat) : FilterEntry := (m.read? i).getD (Config.unwrittenFilter i)

/-- `MemRead(FT, SLOT[i], 1)`. -/
def readSlot (m : Memory FilterPair) (i : Nat) : FilterPair := (m.read? i).getD (Config.unwrittenSlot i)

/-- `MemRead(FT, CBT[i], 1)`. -/
def readCallback (m : Memory Word) (i : Nat) : Word := (m.read? i).getD (Config.unwrittenCallback i)

/-! ## Rings -/

/-- The index of the `k`-th live entry, oldest first (R45); for `k = CNT` the write position (R65). -/
def ringIndex (q : Ring) (k : Nat) : Nat := (q.rd.toNat + k) % q.cap.toNat

/-- `QPush` (R66); `none` is its answer `FULL`, which changes nothing. -/
def qPush (q : Ring) (f : Frame) : Option Ring :=
  if q.cnt = q.cap then none
  else
    let cnt := q.cnt.toNat + 1
    some { q with
      mem := q.mem.write (ringIndex q q.cnt.toNat) f
      cnt := BitVec.ofNat 16 cnt
      peak := if q.peak.toNat < cnt then BitVec.ofNat 16 cnt else q.peak }

/-- `QPop` (R67); `none` is its answer `NONE`. -/
def qPop (q : Ring) : Option (Frame × Ring) :=
  if q.cnt = 0 then none
  else
    some (readFrame q.mem q.rd.toNat,
      { q with rd := BitVec.ofNat 16 (ringIndex q 1), cnt := BitVec.ofNat 16 (q.cnt.toNat - 1) })

/-- `QCreate` (R69): `cap` entries of unspecified content. -/
def qCreate (cap : BitVec 16) : Ring where
  cap := cap
  rd := 0
  cnt := 0
  peak := 0
  mem := []

/-- `QDestroy` (R69). -/
def qDestroy : Ring := qCreate 0

/-! ## Register writes, the trace, and the refusal -/

/-- `x[5] <- v`. -/
def setR0 (v : Word) (s : State) : State := { s with r0 := v }

/-- `x[6] <- v`. -/
def setR1 (v : Word) (s : State) : State := { s with r1 := v }

/-- The port after a read. -/
def setPort (p : Port) (s : State) : State := { s with port := p }

/-- The receive ring after a push, a pop or a creation. -/
def setRxq (q : Ring) (s : State) : State := { s with rxq := q }

/-- The transmit ring after a push, a pop or a creation. -/
def setTxq (q : Ring) (s : State) : State := { s with txq := q }

/-- `LIFE`, `BUSY` and `WAITPT` together (R171). -/
def setLife (l : Life) (b : Bool) (w : WaitPt) (s : State) : State := { s with life := l, busy := b, waitpt := w }

/-- `MODE <- m`. -/
def setMode (m : Mode) (s : State) : State := { s with mode := m }

/-- `GSTAT <- g`. -/
def setGstat (g : BitVec 4) (s : State) : State := { s with gstat := g }

/-- `ACT_CFG <- a`. -/
def setAct (a : ActCfg) (s : State) : State := { s with act := a }

/-- The active tables, written whole (R177, R181). -/
def setTables (nslot : Nat) (slot : Memory FilterPair) (ncb : Nat) (cbt : Memory Word) (s : State) : State :=
  { s with nslot := nslot, slot := slot, ncb := ncb, cbt := cbt }

/-- The timing registers, written whole (R120, R126). -/
def setTiming (t : Timing) (s : State) : State := { s with timing := t }

/-- The primary staging list and its counter. -/
def setPrimary (n : Byte) (m : Memory FilterEntry) (s : State) : State := { s with np := n, sp := m }

/-- The secondary staging list and its counter. -/
def setSecondary (n : Byte) (m : Memory FilterEntry) (s : State) : State := { s with ns := n, ss := m }

/-- The FD staging list and its counter. -/
def setFd (n : Byte) (m : Memory FilterEntry) (s : State) : State := { s with nf := n, sf := m }

/-- `if b = 1: g`. -/
def onFlag (b : Bool) (g : State → State) (s : State) : State := if b then g s else s

/-- `emit A` (R77). -/
def emit (a : Action) (s : State) : State := { s with out := s.out ++ [a] }

/-- Several `emit`s, in order. -/
def emitAll (as : List Action) (s : State) : State := { s with out := s.out ++ as }

/-- The refusal (R230), the block's one synchronous error: `CMDSTAT.ERR <- CODE` and nothing else. -/
def refuse (c : ErrCode) (s : State) : State := { s with err := c }

/-- What every accepted command does to `CMDSTAT.ERR` (R230). -/
def accept (s : State) : State := { s with err := .none }

/-- The outcome of a command: every command ends in a next state, refused or not (R230). -/
abbrev done (s : State) : Host.Outcome State Fault Refusal := .next s

/-! ## Port reads (R76, R78)

Each takes the next answer the environment gives for that read, or a free value when none is listed. -/

/-- The first answer listed under the key `k`, and the answers left. -/
def takeKeyed {κ α : Type} [DecidableEq κ] : List (κ × α) → κ → Option (α × List (κ × α))
  | [], _ => none
  | (k', v) :: rest, k =>
    if k' = k then some (v, rest)
    else
      match takeKeyed rest k with
      | none => none
      | some (w, rest') => some (w, (k', v) :: rest')

/-- The port after a read answered by a free value. -/
def Port.drawn (p : Port) : Port := { p with draws := p.draws + 1 }

/-- `PortRead(MbCode(i))`. -/
def portMbCode (i : Nat) (p : Port) : MbCode × Port :=
  match takeKeyed p.mbCodes i with
  | some (c, rest) => (c, { p with mbCodes := rest })
  | none => (Config.freeMbCode p.draws i, p.drawn)

/-- `PortRead(Flags)`. -/
def portFlags (p : Port) : BitVec 4 × Port :=
  match p.flags with
  | w :: rest => (w, { p with flags := rest })
  | [] => (Config.freeFlags p.draws, p.drawn)

/-- `PortRead(FlagsLo)`. -/
def portFlagsLo (p : Port) : Word × Port :=
  match p.flagsLo with
  | w :: rest => (w, { p with flagsLo := rest })
  | [] => (Config.freeFlagsLo p.draws, p.drawn)

/-- `PortRead(FlagsHi)`. -/
def portFlagsHi (p : Port) : Word × Port :=
  match p.flagsHi with
  | w :: rest => (w, { p with flagsHi := rest })
  | [] => (Config.freeFlagsHi p.draws, p.drawn)

/-- `PortRead(FifoFrame)`. -/
def portFifoFrame (p : Port) : FifoAnswer × Port :=
  match p.fifoFrames with
  | a :: rest => (a, { p with fifoFrames := rest })
  | [] => (Config.freeFifoFrame p.draws, p.drawn)

/-- `PortRead(MbFrame(i))`. -/
def portMbFrame (i : Nat) (p : Port) : MbImage × Port :=
  match takeKeyed p.mbFrames i with
  | some (a, rest) => (a, { p with mbFrames := rest })
  | none => (Config.freeMbFrame p.draws i, p.drawn)

/-- `PortRead(Timer)`. -/
def portTimer (p : Port) : BitVec 16 × Port :=
  match p.timers with
  | t :: rest => (t, { p with timers := rest })
  | [] => (Config.freeTimer p.draws, p.drawn)

/-- `PortRead(PinValid(dir, pin))`. -/
def portPinValid (dir : PinDir) (pin : Byte) (p : Port) : Bool × Port :=
  match takeKeyed p.pins (dir, pin) with
  | some (b, rest) => (b, { p with pins := rest })
  | none => (Config.freePinValid p.draws dir pin, p.drawn)

/-! ## Mailboxes and payload classes -/

/-- `Claimable(c)` (R80). -/
def claimable (c : MbCode) : Bool := c != .txpend

/-- `PayloadBytes(c) = 8 << c` (R37). -/
def payloadBytes (c : BitVec 2) : Nat := 8 <<< c.toNat

/-- `FD_MB_TOTAL(PayloadBytes(c))` (R9). -/
def fdMbTotal (p : Params) (c : BitVec 2) : Nat :=
  if c = 0 then p.fdMbTotal8 else if c = 1 then p.fdMbTotal16 else if c = 2 then p.fdMbTotal32 else p.fdMbTotal64

/-- The mailbox numbers from `first` up to but not including `stop`, ascending. -/
def mailboxes (first stop : Nat) : List Nat := List.range' first (stop - first)

end Sys2Proof.Machine
end

