-- ==== Sys2Proof/Machine/Operands.lean ====
section
/-! DEFINITION. The operand forms: frames and their images (R40 to R44, R70 to R74), filter matching (R87), and the
host register map (R61 to R63). -/

namespace Sys2Proof.Machine

/-! ## Frame predicates (R42, R43) -/

/-- `LENSET`. -/
def lenSet : List Nat := [0, 1, 2, 3, 4, 5, 6, 7, 8, 12, 16, 20, 24, 32, 48, 64]

/-- `IdOk`. -/
def idOk (f : Frame) : Bool :=
  match f.ext with
  | .ext => f.id.toNat ≤ Config.idMaxExt
  | .std => f.id.toNat ≤ Config.idMaxStd

/-- `f.kind in {DATA, REMOTE}`: the kind is not an FD kind. -/
def classicKind : FrameKind → Bool
  | .data => true
  | .remote => true
  | .fdNoBrs => false
  | .fdBrs => false

/-- `ClassicOk`. -/
def classicOk (f : Frame) : Bool := idOk f && classicKind f.kind && decide (f.len.toNat ≤ Config.lenMaxC)

/-- `FdOk`. -/
def fdOk (f : Frame) : Bool :=
  idOk f && lenSet.contains f.len.toNat && (!classicKind f.kind || decide (f.len.toNat ≤ Config.lenMaxC))

/-- `PayLen`. -/
def payLen (f : Frame) : Nat := if f.kind = .remote then 0 else f.len.toNat

/-- `Norm`. -/
def norm (f : Frame) : Frame :=
  { f with data := Vector.ofFn fun j : Fin 64 => if j.val < payLen f then f.data[j] else 0 }

/-! ## Bytes and words (R41, R70, R71) -/

/-- Payload byte `j`. -/
def frameByte (f : Frame) (j : Nat) : Byte := f.data[j]?.getD 0

/-- Host word `k` of the payload, byte `4k` least significant (R41, R70). -/
def hostWord (f : Frame) (k : Nat) : Word :=
  frameByte f (4 * k + 3) ++ frameByte f (4 * k + 2) ++ frameByte f (4 * k + 1) ++ frameByte f (4 * k)

/-- Port word `k` of the payload, byte `4k` most significant (R71, R74). -/
def portWord (f : Frame) (k : Nat) : Word :=
  frameByte f (4 * k) ++ frameByte f (4 * k + 1) ++ frameByte f (4 * k + 2) ++ frameByte f (4 * k + 3)

/-- Byte `j mod 4` of a host word. -/
def hostByte (w : Word) (j : Nat) : Byte := w.extractLsb' (8 * (j % 4)) 8

/-- Byte `j mod 4` of a port word. -/
def portByte (w : Word) (j : Nat) : Byte := w.extractLsb' (24 - 8 * (j % 4)) 8

/-- `BSwap` (R71). -/
def bswap (w : Word) : Word :=
  w.extractLsb' 0 8 ++ w.extractLsb' 8 8 ++ w.extractLsb' 16 8 ++ w.extractLsb' 24 8

/-! ## Register files (R44) -/

/-- `ReadTXF()`. -/
def readFile (t : FrameFile) : Frame where
  id := t.id
  ext := t.ext
  kind := t.kind
  len := t.len
  data := Vector.ofFn fun j : Fin 64 => hostByte (t.d[j.val / 4]?.getD 0) j.val
  idx := 0

/-- What `WriteRXF(f)` stores. -/
def fileOf (f : Frame) : FrameFile where
  id := f.id
  ext := f.ext
  kind := f.kind
  len := f.len
  idx := f.idx
  d := Vector.ofFn fun k : Fin 16 => hostWord f k.val

/-- `WriteRXF(f)`. -/
def writeRxf (f : Frame) (s : State) : State := { s with rxf := fileOf f }

/-! ## Frame images (R72 to R74) -/

/-- `CodeOfLen` (R74), the inverse of `LenOfCode` on `LENSET`. -/
def codeOfLen (l : BitVec 7) : BitVec 4 :=
  let n := l.toNat
  if n ≤ 8 then BitVec.ofNat 4 n
  else if n = 12 then 9
  else if n = 16 then 10
  else if n = 20 then 11
  else if n = 24 then 12
  else if n = 32 then 13
  else if n = 48 then 14
  else if n = 64 then 15
  else Config.freeLenCode n

/-- `LenOfCode` (R74). -/
def lenOfCode (c : BitVec 4) : BitVec 7 :=
  let n := c.toNat
  if n ≤ 8 then BitVec.ofNat 7 n
  else if n = 9 then 12
  else if n = 10 then 16
  else if n = 11 then 20
  else if n = 12 then 24
  else if n = 13 then 32
  else if n = 14 then 48
  else 64

/-- The number of data words of an image (R72). -/
def imageWords (m : Mode) (payload : BitVec 2) : Nat :=
  match m with
  | .classic => 2
  | .fd => payloadBytes payload / 4

/-- The control word of `Pack` (R72, R74), code `0xC`, "transmit-once". -/
def packCs (f : Frame) : Word :=
  bitAt (!classicKind f.kind) 31 ||| bitAt (f.kind == .fdBrs) 30 ||| (0xC#32 <<< 24)
    ||| bitAt (bitOfFormat f.ext) 22 ||| bitAt (bitOfFormat f.ext) 21 ||| bitAt (f.kind == .remote) 20
    ||| ((codeOfLen f.len).setWidth 32 <<< 16)

/-- The identifier word of `Pack` (R73, R74). -/
def packIdw (f : Frame) : Word :=
  match f.ext with
  | .ext => f.id.setWidth 32
  | .std => f.id.setWidth 32 <<< 18

/-- The data words of `Pack`, `n` of them. -/
def packDw (n : Nat) (f : Frame) : List Word := (List.range n).map (portWord f)

/-- The kind `Unpack` reads from a control word. -/
def unpackKind (m : Mode) (cs : Word) : FrameKind :=
  if m = .fd && cs.getLsbD 31 && cs.getLsbD 30 then .fdBrs
  else if m = .fd && cs.getLsbD 31 then .fdNoBrs
  else if cs.getLsbD 20 then .remote
  else .data

/-- The length `Unpack` reads from a control word. -/
def unpackLen (m : Mode) (cs : Word) : BitVec 7 :=
  let dlc : BitVec 4 := cs.extractLsb' 16 4
  if m = .fd && cs.getLsbD 31 then lenOfCode dlc else BitVec.ofNat 7 (min dlc.toNat 8)

/-- `Unpack` (R74), with `idx = 0`. -/
def unpack (m : Mode) (cs idw : Word) (dw : List Word) : Frame :=
  norm
    { id := if cs.getLsbD 21 then idw.extractLsb' 0 29 else (idw.extractLsb' 18 11).setWidth 29
      ext := formatOfBit (cs.getLsbD 21)
      kind := unpackKind m cs
      len := unpackLen m cs
      data := Vector.ofFn fun j : Fin 64 =>
        match dw[j.val / 4]? with
        | some w => portByte w j.val
        | none => 0
      idx := 0 }

/-! ## Filter matching (R87), which describes the controller -/

/-- The header word `H(f)`, with the standard-format offset `sStd`. -/
def headerWord (sStd : Nat) (f : Frame) : Word :=
  bitAt (f.kind == .remote) 31 ||| bitAt (bitOfFormat f.ext) 30
    ||| match f.ext with
        | .ext => f.id.setWidth 32 <<< Config.shiftExt
        | .std => f.id.setWidth 32 <<< sStd

/-- `FilterMatch`: the frame's header agrees with the acceptance word on every bit of the mask word. -/
def filterMatch (sStd : Nat) (p : FilterPair) (f : Frame) : Bool :=
  headerWord sStd f &&& p.mw == p.aw &&& p.mw

/-! ## The host register map (R61) -/

/-- The registers of R61. -/
inductive HostReg
  | cmd
  | cmdstat
  | gstat
  | fcount
  | a0
  | a1
  | a2
  | a3
  | a4
  | actCfg
  | r0
  | r1
  | tBrp
  | tProp
  | tPs1
  | tPs2
  | tRjw
  | tFlags
  | tRate
  | tClk
  | tDiv
  | tFactor
  | tdProp
  | tdPs1
  | tdPs2
  | tdRjw
  | qCfg
  | fdCfg
  | pinCfg
  | rxqStat
  | rxqPeak
  | txqStat
  | txqPeak
  | txfId
  | txfCtl
  | txfD (k : Fin 16)
  | rxfId
  | rxfCtl
  | rxfD (k : Fin 16)
  deriving DecidableEq, Repr

/-- The offset of a register (R61). -/
def regOffset : HostReg → Nat
  | .cmd => 0x000
  | .cmdstat => 0x004
  | .gstat => 0x008
  | .fcount => 0x00C
  | .a0 => 0x010
  | .a1 => 0x014
  | .a2 => 0x018
  | .a3 => 0x01C
  | .a4 => 0x020
  | .actCfg => 0x024
  | .r0 => 0x028
  | .r1 => 0x02C
  | .tBrp => 0x030
  | .tProp => 0x034
  | .tPs1 => 0x038
  | .tPs2 => 0x03C
  | .tRjw => 0x040
  | .tFlags => 0x044
  | .tRate => 0x048
  | .tClk => 0x04C
  | .tDiv => 0x050
  | .tFactor => 0x054
  | .tdProp => 0x058
  | .tdPs1 => 0x05C
  | .tdPs2 => 0x060
  | .tdRjw => 0x064
  | .qCfg => 0x070
  | .fdCfg => 0x074
  | .pinCfg => 0x078
  | .rxqStat => 0x080
  | .rxqPeak => 0x084
  | .txqStat => 0x088
  | .txqPeak => 0x08C
  | .txfId => 0x100
  | .txfCtl => 0x104
  | .txfD k => 0x108 + 4 * k.val
  | .rxfId => 0x180
  | .rxfCtl => 0x184
  | .rxfD k => 0x188 + 4 * k.val

/-- The registers outside the `D` words. -/
def plainRegs : List HostReg :=
  [.cmd, .cmdstat, .gstat, .fcount, .a0, .a1, .a2, .a3, .a4, .actCfg, .r0, .r1,
   .tBrp, .tProp, .tPs1, .tPs2, .tRjw, .tFlags, .tRate, .tClk, .tDiv, .tFactor,
   .tdProp, .tdPs1, .tdPs2, .tdRjw, .qCfg, .fdCfg, .pinCfg,
   .rxqStat, .rxqPeak, .txqStat, .txqPeak, .txfId, .txfCtl, .rxfId, .rxfCtl]

/-- Every register of R61. -/
def hostRegs : List HostReg :=
  plainRegs ++ (List.finRange 16).map .txfD ++ (List.finRange 16).map .rxfD

/-- The register at an offset; none for a reserved or misaligned offset (R61, R62). -/
def regAt (off : Nat) : Option HostReg := hostRegs.find? fun r => regOffset r == off

/-- The register a host access reaches: an aligned 4-byte access at a listed offset of this block's register space;
none for every other access (R62). -/
def busReg (p : Params) (addr size : Nat) : Option HostReg :=
  if size = 4 ∧ p.seaBase ≤ addr then regAt (addr - p.seaBase) else none

/-- The number of a frame kind (R18). -/
def kindCode : FrameKind → BitVec 2
  | .data => 0
  | .remote => 1
  | .fdNoBrs => 2
  | .fdBrs => 3

/-- The frame kind of a number (R18). -/
def kindOfCode (c : BitVec 2) : FrameKind :=
  if c = 0 then .data else if c = 1 then .remote else if c = 2 then .fdNoBrs else .fdBrs

/-- The number of a life-cycle state (R18). -/
def lifeCode : Life → BitVec 2
  | .uninit => 0
  | .configuring => 1
  | .running => 2

/-- The number of a mode (R18). -/
def modeBit : Mode → Bool
  | .classic => false
  | .fd => true

/-- The number of a refusal code (R233). -/
def errCodeNum : ErrCode → BitVec 4
  | .none => 0
  | .illegalCommand => 1
  | .badState => 2
  | .badOperand => 3

/-- The number of a wait point (R27). -/
def waitCode : WaitPt → BitVec 2
  | .none => 0
  | .beginFrozen => 1
  | .beginUnfrozen => 2
  | .endFrozen => 3

/-- `CMDSTAT` as a word (R27). -/
def cmdstatWord (s : State) : Word :=
  0#22 ++ waitCode s.waitpt ++ errCodeNum s.err ++ BitVec.ofBool s.busy ++ BitVec.ofBool (modeBit s.mode)
    ++ lifeCode s.life

/-- `ACT_CFG` as a word (R30). -/
def actCfgWord (a : ActCfg) : Word := a.rxmb ++ a.payload ++ a.nf ++ a.ns ++ a.np

/-- The `CTL` word of a frame register file (R40). -/
def ctlWord (t : FrameFile) : Word :=
  0#8 ++ t.idx ++ 0#1 ++ t.len ++ 0#5 ++ kindCode t.kind ++ BitVec.ofBool (bitOfFormat t.ext)

/-- The word a host read of a register returns (R61, R63): bits without a field read 0, `CMD` reads 0 (R26). -/
def readReg (r : HostReg) (s : State) : Word :=
  match r with
  | .cmd => 0
  | .cmdstat => cmdstatWord s
  | .gstat => s.gstat.setWidth 32
  | .fcount => 0#8 ++ s.nf ++ s.ns ++ s.np
  | .a0 => s.a0
  | .a1 => s.a1
  | .a2 => s.a2
  | .a3 => s.a3
  | .a4 => s.a4
  | .actCfg => actCfgWord s.act
  | .r0 => s.r0
  | .r1 => s.r1
  | .tBrp => s.timing.brp.setWidth 32
  | .tProp => s.timing.prop.setWidth 32
  | .tPs1 => s.timing.ps1.setWidth 32
  | .tPs2 => s.timing.ps2.setWidth 32
  | .tRjw => s.timing.rjw.setWidth 32
  | .tFlags => s.timing.flags.setWidth 32
  | .tRate => s.timing.rate
  | .tClk => s.timing.clk
  | .tDiv => s.timing.div.setWidth 32
  | .tFactor => s.timing.factor.setWidth 32
  | .tdProp => s.timing.dprop.setWidth 32
  | .tdPs1 => s.timing.dps1.setWidth 32
  | .tdPs2 => s.timing.dps2.setWidth 32
  | .tdRjw => s.timing.drjw.setWidth 32
  | .qCfg => s.txcap ++ s.rxcap
  | .fdCfg => 0#16 ++ s.fdRxmb ++ 0#6 ++ s.fdPayload
  | .pinCfg => 0#16 ++ s.rxpin ++ s.txpin
  | .rxqStat => s.rxq.cap ++ s.rxq.cnt
  | .rxqPeak => s.rxq.peak.setWidth 32
  | .txqStat => s.txq.cap ++ s.txq.cnt
  | .txqPeak => s.txq.peak.setWidth 32
  | .txfId => s.txf.id.setWidth 32
  | .txfCtl => ctlWord s.txf
  | .txfD k => s.txf.d[k]
  | .rxfId => s.rxf.id.setWidth 32
  | .rxfCtl => ctlWord s.rxf
  | .rxfD k => s.rxf.d[k]

/-- `CTL` fields of a written word (R40). -/
def writeCtl (v : Word) (t : FrameFile) : FrameFile :=
  { t with
    ext := formatOfBit (v.getLsbD 0)
    kind := kindOfCode (v.extractLsb' 1 2)
    len := v.extractLsb' 8 7
    idx := v.extractLsb' 16 8 }

/-- A host write to a register other than `CMD` (R63): a read-write register takes the value cut to its defined bits
(R12), a read-only register ignores it. The write of `CMD` is a command, not a store (R26). -/
def writeReg (r : HostReg) (v : Word) (s : State) : State :=
  match r with
  | .cmd => s
  | .cmdstat => s
  | .gstat => s
  | .fcount => s
  | .a0 => { s with a0 := v }
  | .a1 => { s with a1 := v }
  | .a2 => { s with a2 := v }
  | .a3 => { s with a3 := v }
  | .a4 => { s with a4 := v }
  | .actCfg => s
  | .r0 => s
  | .r1 => s
  | .tBrp => { s with timing := { s.timing with brp := v.setWidth 16 } }
  | .tProp => { s with timing := { s.timing with prop := v.setWidth 8 } }
  | .tPs1 => { s with timing := { s.timing with ps1 := v.setWidth 8 } }
  | .tPs2 => { s with timing := { s.timing with ps2 := v.setWidth 8 } }
  | .tRjw => { s with timing := { s.timing with rjw := v.setWidth 8 } }
  | .tFlags => { s with timing := { s.timing with flags := v.setWidth 3 } }
  | .tRate => { s with timing := { s.timing with rate := v } }
  | .tClk => { s with timing := { s.timing with clk := v } }
  | .tDiv => { s with timing := { s.timing with div := v.setWidth 8 } }
  | .tFactor => { s with timing := { s.timing with factor := v.setWidth 4 } }
  | .tdProp => { s with timing := { s.timing with dprop := v.setWidth 8 } }
  | .tdPs1 => { s with timing := { s.timing with dps1 := v.setWidth 8 } }
  | .tdPs2 => { s with timing := { s.timing with dps2 := v.setWidth 8 } }
  | .tdRjw => { s with timing := { s.timing with drjw := v.setWidth 8 } }
  | .qCfg => { s with rxcap := v.extractLsb' 0 16, txcap := v.extractLsb' 16 16 }
  | .fdCfg => { s with fdPayload := v.extractLsb' 0 2, fdRxmb := v.extractLsb' 8 8 }
  | .pinCfg => { s with txpin := v.extractLsb' 0 8, rxpin := v.extractLsb' 8 8 }
  | .rxqStat => s
  | .rxqPeak => s
  | .txqStat => s
  | .txqPeak => s
  | .txfId => { s with txf := { s.txf with id := v.setWidth 29 } }
  | .txfCtl => { s with txf := writeCtl v s.txf }
  | .txfD k => { s with txf := { s.txf with d := s.txf.d.set k v } }
  | .rxfId => s
  | .rxfCtl => s
  | .rxfD _ => s

end Sys2Proof.Machine
end

