-- ==== Sys2Proof/Machine/Flags.lean ====
section
/-! DEFINITION. Every flag and error word the block computes: `T_FLAGS` (R25, R125, R127), the consistency words (R133,
R134), the staging and pin validations (R173, R174), the configuration error word (R178) and the `GSTAT` flags
(R28). -/

namespace Sys2Proof.Machine

/-- A flag as a register value, 1 or 0. -/
def boolWord (b : Bool) : Word := bitAt b 0

/-! ## The timing flags -/

/-- `T_FLAGS.TRIPLE` (R25). -/
def Timing.triple (t : Timing) : Bool := t.flags.getLsbD 0

/-- `T_FLAGS.BITOK` (R25). -/
def Timing.bitok (t : Timing) : Bool := t.flags.getLsbD 1

/-- `T_FLAGS.FD` (R25, R35). -/
def Timing.fd (t : Timing) : Bool := t.flags.getLsbD 2

/-- `TRIPLE | (BITOK << 1) | (FD << 2)`. -/
def timingFlags (triple bitok fd : Bool) : BitVec 3 :=
  BitVec.ofBool fd ++ BitVec.ofBool bitok ++ BitVec.ofBool triple

/-- `TQ_A` (R34). -/
def tqA (t : Timing) : Nat := 1 + t.prop.toNat + t.ps1.toNat + t.ps2.toNat

/-- `TQ_D` (R34). -/
def tqD (t : Timing) : Nat := 1 + t.dprop.toNat + t.dps1.toNat + t.dps2.toNat

/-- `|a - b|` (R11). -/
def absDiff (a b : Nat) : Nat := (a - b) + (b - a)

/-- `Triple` (R125). -/
def tripleFlag (f d p tq ps1 : Nat) : Bool := decide (f / (d * p * tq) ≤ Config.tripleRate) && decide (2 ≤ ps1)

/-- `TolOk` (R127). -/
def tolOk (f w tol : Nat) : Bool := decide (Config.ppmScale * absDiff f w ≤ w * tol)

/-! ## The consistency words -/

/-- `ConsistencyC()` (R133). -/
def consistencyC (t : Timing) : Word :=
  flagWord
    [(t.brp.toNat == 0, 0),
     (decide (t.brp.toNat > Config.brpMaxC), 1),
     (t.prop.toNat == 0, 2),
     (decide (t.prop.toNat > Config.propMaxC), 3),
     (t.ps1.toNat == 0, 4),
     (decide (t.ps1.toNat > Config.ps1MaxC), 5),
     (t.ps2.toNat == 0, 6),
     (decide (t.ps2.toNat > Config.ps2MaxC), 7),
     (t.rjw.toNat == 0, 8),
     (decide (t.rjw.toNat > Config.rjwMaxC), 9),
     (decide (t.rjw.toNat > t.ps2.toNat), 10),
     (t.ps1.toNat == 1 && t.triple, 11)]

/-- `ConsistencyF()` (R134). -/
def consistencyF (t : Timing) : Word :=
  flagWord
    [(t.brp.toNat == 0, 0),
     (decide (t.brp.toNat > Config.brpMaxF), 1),
     (t.prop.toNat == 0, 2),
     (decide (t.prop.toNat > Config.propMaxA), 3),
     (t.ps1.toNat == 0, 4),
     (decide (t.ps1.toNat > Config.ps1MaxA), 5),
     (t.ps2.toNat == 0, 6),
     (decide (t.ps2.toNat > Config.ps2MaxA), 7),
     (t.rjw.toNat == 0, 8),
     (decide (t.rjw.toNat > Config.rjwMaxA), 9),
     (decide (t.rjw.toNat > t.ps2.toNat), 10),
     (t.ps1.toNat == 1 && t.triple, 11),
     (t.dprop.toNat == 0, 12),
     (decide (t.dprop.toNat > Config.propMaxD), 13),
     (t.dps1.toNat == 0, 14),
     (decide (t.dps1.toNat > Config.ps1MaxD), 15),
     (t.dps2.toNat == 0, 16),
     (decide (t.dps2.toNat > Config.ps2MaxD), 17),
     (t.drjw.toNat == 0, 18),
     (decide (t.drjw.toNat > Config.rjwMaxD), 19),
     (decide (t.drjw.toNat > t.dps2.toNat), 20)]

/-! ## Validation (R173, R174, R178) -/

/-- Some stored entry below `n` has its soft error flag set (R173). -/
def nonconform (m : Memory FilterEntry) (n : Nat) : Bool :=
  (List.range n).any fun i => (readFilter m i).aw.getLsbD 0

/-- `FilterErrC()` (R173). -/
def filterErrC (s : State) : Word :=
  flagWord
    [(decide (s.np.toNat > s.par.nPrimaryMax), 31),
     (decide (s.ns.toNat > s.par.nSecondaryMax), 29),
     (nonconform s.sp (min s.np.toNat s.par.nPrimaryMax), 30),
     (nonconform s.ss (min s.ns.toNat s.par.nSecondaryMax), 28)]

/-- `FilterErrF(R)` (R173). -/
def filterErrF (r : Nat) (s : State) : Word :=
  flagWord
    [(decide (s.nf.toNat > r), 22),
     (nonconform s.sf (min s.nf.toNat Config.stageFd), 21)]

/-- `PinErr()` (R174): both reads, TX first, whatever they answer. -/
def pinErr (s : State) : Word × Port :=
  let tx := portPinValid .tx s.txpin s.port
  let rx := portPinValid .rx s.rxpin tx.2
  (flagWord [(!tx.1, 27), (!rx.1, 26)], rx.2)

/-- The configuration error word of BEGIN, and the port after its reads (R175, R178). -/
def beginError (s : State) : Word × Port :=
  let pin := pinErr s
  (consistencyC s.timing ||| flagWord [(!s.timing.bitok, 25)] ||| filterErrC s ||| pin.1, pin.2)

/-- The configuration error word of BEGINFD, and the port after its reads (R178, R180). -/
def beginFdError (s : State) : Word × Port :=
  let r := s.fdRxmb.toNat
  let m := fdMbTotal s.par s.fdPayload
  let pin := pinErr s
  (consistencyF s.timing
    ||| flagWord [(!s.timing.bitok, 25), (!s.par.fdCapable, 24), (decide (r > m - 2), 23)]
    ||| filterErrF r s ||| pin.1, pin.2)

/-! ## `GSTAT` (R28) -/

/-- `GSTAT.INIT_ERROR <- 1`. -/
def setInitError (s : State) : State := { s with gstat := s.gstat ||| 0x1#4 }

/-- `GSTAT.FIFO_WARNING <- 1`. -/
def setFifoWarning (s : State) : State := { s with gstat := s.gstat ||| 0x2#4 }

/-- `GSTAT.FIFO_OVERFLOW <- 1`. -/
def setFifoOverflow (s : State) : State := { s with gstat := s.gstat ||| 0x4#4 }

/-- `GSTAT.RXBUF_OVERFLOW <- 1`. -/
def setRxbufOverflow (s : State) : State := { s with gstat := s.gstat ||| 0x8#4 }

/-! ## The send status word (R191) -/

def txBufferOverflow : Word := 0x01
def noMailboxForRemote : Word := 0x02
def payloadExceedsClass : Word := 0x04
def modeMismatch : Word := 0x08
def notRunning : Word := 0x10

end Sys2Proof.Machine
end

