-- ==== Sys2Proof/Machine/Bts.lean ====
section
/-! DEFINITION. The bit-timing solver (file 41): SOLVE, SOLVEFD, CHECK and the queries. -/

namespace Sys2Proof.Machine

/-! ## The search (R121) -/

/-- What the search keeps: the least error so far, `none` before the first candidate, and its pair. -/
structure SearchBest where
  err : Option Nat
  p : Nat
  tq : Nat
  deriving DecidableEq, Repr

/-- Take a candidate when there is none yet or its error is strictly smaller. -/
def searchTake (b : SearchBest) (e p tq : Nat) : SearchBest :=
  match b.err with
  | none => { err := some e, p := p, tq := tq }
  | some e' => if e < e' then { err := some e, p := p, tq := tq } else b

/-- The two candidates of one time-quantum count, `P0` before `P0 + 1`. -/
def searchAt (br f d pMax tq : Nat) (b : SearchBest) : SearchBest :=
  let p0 := f / (br * tq * d)
  let b := if 1 ≤ p0 ∧ p0 ≤ pMax then searchTake b (f - br * tq * p0 * d) p0 tq else b
  if p0 < pMax then searchTake b (br * tq * (p0 + 1) * d - f) (p0 + 1) tq else b

/-- The counts `TQ_MIN + n - 1` down to `TQ_MIN`. -/
def searchDown (br f d pMax : Nat) : Nat → SearchBest → SearchBest
  | 0, b => b
  | n + 1, b => searchDown br f d pMax n (searchAt br f d pMax (Config.tqMin + n) b)

/-- `Search(B, F, D, tqMax, pMax)`: the pair `(P, TQ)`. -/
def search (br f d tqMax pMax : Nat) : Nat × Nat :=
  let b := searchDown br f d pMax (tqMax + 1 - Config.tqMin) { err := none, p := pMax, tq := tqMax }
  (b.p, b.tq)

/-- `Apportion(TQ, ps2Max, ps1Max)` (R123): `(PROP, PS1, PS2)`. -/
def apportion (tq ps2Max ps1Max : Nat) : Nat × Nat × Nat :=
  let ps2 := min ps2Max (1 + 2 * tq / 7)
  let rem := tq - 1 - ps2
  let ps1 := min ps1Max (rem / 2)
  (rem - ps1, ps1, ps2)

/-! ## SOLVE and SOLVEFD -/

/-- The operands SOLVE refuses (R130). -/
def solveBad (s : State) : Bool :=
  s.a0.toNat == 0 || s.a1.toNat == 0 || s.a2.toNat == 0 || decide (s.a2.toNat > Config.divMax)

/-- The operands SOLVEFD refuses (R130). -/
def solveFdBad (s : State) : Bool := solveBad s || s.a4.toNat == 0 || decide (s.a4.toNat > Config.factorMax)

/-- The timing registers SOLVE writes (R120). -/
def solveTiming (rate clk divisor tol : Word) : Timing :=
  let br := rate.toNat
  let f := clk.toNat
  let d := divisor.toNat
  let r := search br f d Config.tqMaxC Config.brpMaxC
  let p := r.1
  let tq := r.2
  let g := apportion tq Config.ps2MaxC Config.ps1MaxC
  { brp := BitVec.ofNat 16 p
    prop := BitVec.ofNat 8 g.1
    ps1 := BitVec.ofNat 8 g.2.1
    ps2 := BitVec.ofNat 8 g.2.2
    rjw := BitVec.ofNat 8 (min g.2.2 Config.rjwMaxC)
    flags := timingFlags (tripleFlag f d p tq g.2.1) (tolOk f (br * tq * p * d) tol.toNat) false
    rate := rate
    clk := clk
    div := divisor.setWidth 8
    factor := 1
    dprop := 0
    dps1 := 0
    dps2 := 0
    drjw := 0 }

/-- The timing registers SOLVEFD writes (R126, R128). -/
def solveFdTiming (rate clk divisor tol factor : Word) : Timing :=
  let br := rate.toNat
  let f := clk.toNat
  let d := divisor.toNat
  let k := factor.toNat
  let r := search (br * k) f d (min Config.tqMaxD (Config.tqMaxA / k)) Config.brpMaxF
  let p := r.1
  let tqd := r.2
  let gd := apportion tqd Config.ps2MaxD Config.ps1MaxD
  let tqa := tqd * k
  let ga := apportion tqa Config.ps2MaxA Config.ps1MaxA
  { brp := BitVec.ofNat 16 p
    prop := BitVec.ofNat 8 ga.1
    ps1 := BitVec.ofNat 8 ga.2.1
    ps2 := BitVec.ofNat 8 ga.2.2
    rjw := BitVec.ofNat 8 (min ga.2.2 Config.rjwMaxA)
    flags := timingFlags (tripleFlag f d p tqa ga.2.1) (tolOk f (br * k * tqd * p * d) tol.toNat) true
    rate := rate
    clk := clk
    div := divisor.setWidth 8
    factor := factor.setWidth 4
    dprop := BitVec.ofNat 8 gd.1
    dps1 := BitVec.ofNat 8 gd.2.1
    dps2 := BitVec.ofNat 8 gd.2.2
    drjw := BitVec.ofNat 8 (min gd.2.2 Config.rjwMaxD) }

/-- Store a solved configuration and answer its `BITOK` in `R0`. -/
def storeTiming (t : Timing) (s : State) : State := setR0 (boolWord t.bitok) (setTiming t (accept s))

/-- SOLVE (R120). -/
def execSolve (s : State) : Host.Outcome State Fault Refusal :=
  done (if solveBad s then refuse .badOperand s else storeTiming (solveTiming s.a0 s.a1 s.a2 s.a3) s)

/-- SOLVEFD (R126). -/
def execSolveFd (s : State) : Host.Outcome State Fault Refusal :=
  done (if solveFdBad s then refuse .badOperand s else storeTiming (solveFdTiming s.a0 s.a1 s.a2 s.a3 s.a4) s)

/-! ## CHECK and the queries -/

/-- CHECK (R132). -/
def execCheck (s : State) : Host.Outcome State Fault Refusal :=
  done (setR0 (if s.timing.fd then consistencyF s.timing else consistencyC s.timing) (accept s))

/-- ACTUAL (R135). -/
def execActual (s : State) : Host.Outcome State Fault Refusal :=
  let t := s.timing
  done
    (if t.div = 0 ∨ t.brp = 0 then refuse .badOperand s
     else setR0 (BitVec.ofNat 32 (t.clk.toNat / (t.div.toNat * t.brp.toNat * tqA t))) (accept s))

/-- EXACT (R136). -/
def execExact (s : State) : Host.Outcome State Fault Refusal :=
  let t := s.timing
  done (setR0 (boolWord (t.clk.toNat == t.rate.toNat * tqA t * t.brp.toNat * t.div.toNat)) (accept s))

/-- PPM (R137). -/
def execPpm (s : State) : Host.Outcome State Fault Refusal :=
  let t := s.timing
  let w := t.rate.toNat * tqA t * t.brp.toNat * t.div.toNat
  done
    (if w = 0 then refuse .badOperand s
     else setR0 (BitVec.ofNat 32 (min (Config.ppmScale * absDiff t.clk.toNat w / w) 0xFFFFFFFF)) (accept s))

/-- SAMPLE (R138). -/
def execSample (s : State) : Host.Outcome State Fault Refusal :=
  let t := s.timing
  done
    (setR0 (BitVec.ofNat 32 (100 * (1 + t.prop.toNat + t.ps1.toNat - t.triple.toNat) / tqA t)) (accept s))

/-- DACTUAL (R139). -/
def execDactual (s : State) : Host.Outcome State Fault Refusal :=
  let t := s.timing
  done
    (if !t.fd then refuse .badOperand s
     else if t.div = 0 ∨ t.brp = 0 then refuse .badOperand s
     else setR0 (BitVec.ofNat 32 (t.clk.toNat / (t.div.toNat * t.brp.toNat * tqD t))) (accept s))

/-- DEXACT (R140). -/
def execDexact (s : State) : Host.Outcome State Fault Refusal :=
  let t := s.timing
  done
    (if !t.fd then refuse .badOperand s
     else setR0
      (boolWord (t.clk.toNat == t.rate.toNat * t.factor.toNat * tqD t * t.brp.toNat * t.div.toNat)) (accept s))

/-- DSAMPLE (R141). -/
def execDsample (s : State) : Host.Outcome State Fault Refusal :=
  let t := s.timing
  done
    (if !t.fd then refuse .badOperand s
     else setR0 (BitVec.ofNat 32 (100 * (1 + t.dprop.toNat + t.dps1.toNat) / tqD t)) (accept s))

end Sys2Proof.Machine
end

