-- ==== Sys2Proof/Machine/Fme.lean ====
section
/-! DEFINITION. The filter-mask encoder (file 42): ENCP, ENCS, ENCF, ENCANY and the staging commands. -/

namespace Sys2Proof.Machine

/-- `idmax` of a format (R154). -/
def idMax : Format → Word
  | .std => BitVec.ofNat 32 Config.idMaxStd
  | .ext => BitVec.ofNat 32 Config.idMaxExt

/-- The offset of the identifier field (R152). -/
def filterShift (sStd : Nat) : Format → Nat
  | .std => sStd
  | .ext => Config.shiftExt

/-- The soft error flag `err` (R154), on the full 32-bit operands. -/
def softError (fmt : Format) (m a : Word) : Bool :=
  decide (a.toNat > (idMax fmt).toNat) || decide (m.toNat > (idMax fmt).toNat) || (m &&& a) != a

/-- `Enc(kind, fmt, m, a, sStd)` (R155). -/
def encFilter (kind : FilterKind) (fmt : Format) (m a : Word) (sStd : Nat) : FilterPair where
  mw := (1#32 <<< 31) ||| (1#32 <<< 30) ||| ((m &&& idMax fmt) <<< filterShift sStd fmt)
  aw := bitAt (bitOfKind kind) 31 ||| bitAt (bitOfFormat fmt) 30 ||| ((a &&& idMax fmt) <<< filterShift sStd fmt)
    ||| bitAt (softError fmt m a) 0

/-- `x[5] <- mw ; x[6] <- aw`. -/
def setPair (p : FilterPair) (s : State) : State := setR1 p.aw (setR0 p.mw (accept s))

/-- ENCP (R156). -/
def execEncp (kind : FilterKind) (fmt : Format) (s : State) : Host.Outcome State Fault Refusal :=
  done (setPair (encFilter kind fmt s.a0 s.a1 Config.shiftStd) s)

/-- ENCS (R157). -/
def execEncs (kind : FilterKind) (fmt : Format) (s : State) : Host.Outcome State Fault Refusal :=
  done (setPair (encFilter kind fmt s.a0 s.a1 Config.shiftStd) s)

/-- ENCF (R158), with the open parameter `FD_SHIFT_STD`. -/
def execEncf (kind : FilterKind) (fmt : Format) (s : State) : Host.Outcome State Fault Refusal :=
  done (setPair (encFilter kind fmt s.a0 s.a1 s.par.fdShiftStd) s)

/-- The permissive pair (R159, R177). -/
def permissive : FilterPair where
  mw := 0
  aw := 0

/-- ENCANY (R159). -/
def execEncany (s : State) : Host.Outcome State Fault Refusal := done (setPair permissive s)

/-! ## Staging (R160 to R163) -/

/-- The entry a push stores: `R0`, `R1` and the callback reference in `A2`. -/
def pushedEntry (s : State) : FilterEntry where
  mw := s.r0
  aw := s.r1
  cb := s.a2

/-- A push to a list that stores `limit` entries: counted and not stored beyond it. -/
def stagePush (limit : Nat) (n : Byte) (m : Memory FilterEntry) (e : FilterEntry) : Memory FilterEntry :=
  if n.toNat < limit then m.write n.toNat e else m

/-- A staging counter after a push, saturating at `STAGE_MAX`. -/
def stageCount (n : Byte) : Byte := if n.toNat < Config.stageMax then BitVec.ofNat 8 (n.toNat + 1) else n

/-- FPUSHP (R160). -/
def execFpushp (s : State) : Host.Outcome State Fault Refusal :=
  done (setPrimary (stageCount s.np) (stagePush s.par.nPrimaryMax s.np s.sp (pushedEntry s)) (accept s))

/-- FPUSHS (R161). -/
def execFpushs (s : State) : Host.Outcome State Fault Refusal :=
  done (setSecondary (stageCount s.ns) (stagePush s.par.nSecondaryMax s.ns s.ss (pushedEntry s)) (accept s))

/-- FPUSHF (R162). -/
def execFpushf (s : State) : Host.Outcome State Fault Refusal :=
  done (setFd (stageCount s.nf) (stagePush Config.stageFd s.nf s.sf (pushedEntry s)) (accept s))

/-- FCLEAR (R163): the counters only; the entries are not erased. -/
def execFclear (s : State) : Host.Outcome State Fault Refusal := 
  done (setPrimary 0 s.sp (setSecondary 0 s.ss (setFd 0 s.sf (accept s))))

end Sys2Proof.Machine
end

