-- ==== Sys2Proof/Machine/Cfg.lean ====
section
/-! DEFINITION. The life cycle (file 43): NOP, BEGIN, BEGINFD, END, GSCLR, and the acknowledgements that complete
them. -/

namespace Sys2Proof.Machine

/-- NOP (R170). -/
def execNop (s : State) : Host.Outcome State Fault Refusal := done (accept s)

/-- GSCLR (R182): bit 0 of `CLR` has no effect. -/
def execGsclr (clr : BitVec 4) (s : State) : Host.Outcome State Fault Refusal :=
  done (setGstat (s.gstat &&& ~~~(clr &&& 0xE#4)) (accept s))

/-! ## Slot fill (R177) -/

/-- The pair of a staging entry. -/
def entryPair (e : FilterEntry) : FilterPair where
  mw := e.mw
  aw := e.aw

/-- `fill` of `FillSlotsC`. -/
def fillC (s : State) : FilterPair :=
  if s.np.toNat > 0 then entryPair (readFilter s.sp 0)
  else if s.ns.toNat > 0 then entryPair (readFilter s.ss 0)
  else permissive

/-- `SLOT[k]` of `FillSlotsC`. -/
def slotC (s : State) (k : Nat) : FilterPair :=
  let j := k - s.par.nPrimaryMax
  if k < s.par.nPrimaryMax then
    if k < s.np.toNat then entryPair (readFilter s.sp k) else fillC s
  else
    if j < s.ns.toNat then entryPair (readFilter s.ss j) else fillC s

/-- `CBT[i]` of `FillSlotsC`. -/
def cbtC (s : State) (i : Nat) : Word :=
  if i < s.np.toNat then (readFilter s.sp i).cb else (readFilter s.ss (i - s.np.toNat)).cb

/-- `FillSlotsC()`. -/
def fillSlotsC (s : State) : State :=
  let nslot := s.par.nPrimaryMax + s.par.nSecondaryMax
  let ncb := s.np.toNat + s.ns.toNat
  setTables nslot (Memory.table nslot (slotC s)) ncb (Memory.table ncb (cbtC s)) s

/-- `fill` of `FillSlotsF`. -/
def fillF (s : State) : FilterPair :=
  if s.nf.toNat > 0 then entryPair (readFilter s.sf 0) else permissive

/-- `SLOT[k]` of `FillSlotsF`. -/
def slotF (s : State) (k : Nat) : FilterPair :=
  if k < s.nf.toNat then entryPair (readFilter s.sf k) else fillF s

/-- `FillSlotsF(R)`. -/
def fillSlotsF (r : Nat) (s : State) : State :=
  setTables r (Memory.table r (slotF s)) s.nf.toNat (Memory.table s.nf.toNat fun i => (readFilter s.sf i).cb) s

/-! ## The configuration image (R176) -/

/-- The fields of both images. -/
def imageCommon (s : State) : ImageCommon where
  brp := s.timing.brp
  prop := s.timing.prop
  ps1 := s.timing.ps1
  ps2 := s.timing.ps2
  rjw := s.timing.rjw
  triple := s.timing.triple
  slots := (List.range s.nslot).map (readSlot s.slot)
  txpin := s.txpin
  rxpin := s.rxpin

/-- `ImageC()`. -/
def imageC (s : State) : ConfigImage := .classic (imageCommon s)

/-- `ImageF()`. -/
def imageF (s : State) : ConfigImage :=
  .fd (imageCommon s)
    { dprop := s.timing.dprop
      dps1 := s.timing.dps1
      dps2 := s.timing.dps2
      drjw := s.timing.drjw
      payload := s.fdPayload
      rxmb := s.fdRxmb }

/-! ## BEGIN and BEGINFD (R175, R180) -/

/-- Phase A once the command is accepted, given the error word and the port after the pin reads. -/
def beginPhaseA (m : Mode) (e : Word × Port) (s : State) : State :=
  let s := setR0 e.1 (accept (setPort e.2 s))
  if e.1 ≠ 0 then setInitError s
  else emit .freezeEnter (setLife .configuring true .beginFrozen (setMode m s))

/-- BEGIN (R175), phase A. -/
def execBegin (s : State) : Host.Outcome State Fault Refusal :=
  done
    (if s.life ≠ .uninit then refuse .badState s
     else if s.timing.fd then refuse .badOperand s
     else beginPhaseA .classic (beginError s) s)

/-- BEGINFD (R180), phase A. -/
def execBeginFd (s : State) : Host.Outcome State Fault Refusal :=
  done
    (if s.life ≠ .uninit then refuse .badState s
     else if !s.timing.fd then refuse .badOperand s
     else beginPhaseA .fd (beginFdError s) s)

/-- `QCreate` of both rings from `Q_CFG`. -/
def createRings (s : State) : State := setTxq (qCreate s.txcap) (setRxq (qCreate s.rxcap) s)

/-- The last lines of phase B, common to both modes. -/
def unfreeze (s : State) : State := setLife s.life s.busy .beginUnfrozen (emitAll [.irqInstall, .freezeExit] s)

/-- Phase B of BEGIN (R175). -/
def beginPhaseB (s : State) : State :=
  let s := fillSlotsC (createRings s)
  let s := setAct { ActCfg.zero with np := s.np, ns := s.ns } s
  unfreeze
    (emitAll
      (.configWrite (imageC s) :: (mailboxes s.par.mbTxRemoteFirst s.par.nMb).map .mbSetInactive) s)

/-- Phase B of BEGINFD (R180). -/
def beginFdPhaseB (s : State) : State :=
  let r := s.fdRxmb.toNat
  let m := fdMbTotal s.par s.fdPayload
  let s := fillSlotsF r (createRings s)
  let s := setAct { ActCfg.zero with nf := s.nf, payload := s.fdPayload, rxmb := s.fdRxmb.setWidth 6 } s
  unfreeze
    (emitAll
      (.configWrite (imageF s) :: .mbSetInactive 0
        :: ((mailboxes 1 (r + 1)).map fun k => .mbRearm k (readSlot s.slot (k - 1)).aw)
        ++ (mailboxes (r + 1) m).map .mbSetInactive) s)

/-- Phase C of BEGIN and BEGINFD (R175, R180). -/
def beginPhaseC (s : State) : State := setLife .running false .none (setGstat 0 (emit .irqEnable s))

/-! ## END (R181) -/

/-- END, phase A. -/
def execEnd (s : State) : Host.Outcome State Fault Refusal :=
  done
    (if s.life ≠ .running then refuse .badState s
     else setLife .configuring true .endFrozen (emitAll [.irqDisable, .freezeEnter] (accept s)))

/-- END, phase B. The active tables have no entries left. -/
def endPhaseB (s : State) : State :=
  setLife .uninit false .none (setAct ActCfg.zero (setTables 0 [] 0 [] (setTxq qDestroy (setRxq qDestroy s))))

/-! ## Acknowledgements (R90, R171) -/

/-- An acknowledgement of the environment: it completes the wait it answers and is ignored otherwise (R171). `MODE`
tells BEGIN from BEGINFD, whose phase A set it. -/
def takeAck (a : Ack) (s : State) : State :=
  match a, s.waitpt with
  | .frozen, .beginFrozen =>
    match s.mode with
    | .classic => beginPhaseB s
    | .fd => beginFdPhaseB s
  | .unfrozen, .beginUnfrozen => beginPhaseC s
  | .frozen, .endFrozen => endPhaseB s
  | .frozen, .none => s
  | .frozen, .beginUnfrozen => s
  | .unfrozen, .none => s
  | .unfrozen, .beginFrozen => s
  | .unfrozen, .endFrozen => s

end Sys2Proof.Machine
end

