-- ==== Sys2Proof/Machine/Sfa.lean ====
section
/-! DEFINITION. The software FIFO arbiter (file 44): SEND, SENDFD, RECV, RECVFD, DISPATCH, DISPATCHFD and the handler
operations ISRC, ISRFD. -/

namespace Sys2Proof.Machine

/-! ## Transmit -/

/-- `TxWrite(i, f)` (R207), in FD mode with the errata workaround (R206). -/
def txWrite (i : Nat) (f : Frame) (s : State) : State :=
  let write := Action.mbWriteTx i (packCs f) (packIdw f) (packDw (imageWords s.mode s.act.payload) f)
  match s.mode with
  | .classic => emit write s
  | .fd => emitAll [write, .mbSetInactive 0, .mbSetInactive 0] s

/-- `SendData(f, mb)` (R193), its result in `R0`. -/
def sendData (f : Frame) (mb : Nat) (s : State) : State :=
  let c := portMbCode mb s.port
  let s := setPort c.2 s
  if c.1 = .inactive ∧ s.txq.cnt = 0 then setR0 0 (txWrite mb f s)
  else
    match qPush s.txq f with
    | none => setR0 txBufferOverflow s
    | some q => setR0 0 (setTxq q s)

/-- `SendRemote(f, first, last)` (R194) over the mailboxes of the scan, its result in `R0`. -/
def sendRemote (f : Frame) : List Nat → State → State
  | [], s => setR0 noMailboxForRemote s
  | i :: rest, s =>
    let c := portMbCode i s.port
    let s := setPort c.2 s
    if claimable c.1 then setR0 0 (txWrite i f s) else sendRemote f rest s

/-- The two paths of a running send: remote frames scan from `first` up to the dedicated mailbox `mb`, data frames use
`mb` (R190, R197). -/
def sendFrame (f : Frame) (first mb : Nat) (s : State) : State :=
  if f.kind = .remote then sendRemote f (mailboxes first mb) s else sendData f mb s

/-- SEND (R190). -/
def execSend (s : State) : Host.Outcome State Fault Refusal :=
  let f := readFile s.txf
  done
    (if !classicOk f then refuse .badOperand s
     else if s.life ≠ .running then setR0 notRunning (accept s)
     else if s.mode ≠ .classic then setR0 modeMismatch (accept s)
     else sendFrame (norm f) s.par.mbTxRemoteFirst s.par.mbTxData (accept s))

/-- `FdTxData = M - 1` (R82). -/
def fdTxData (s : State) : Nat := fdMbTotal s.par s.act.payload - 1

/-- SENDFD (R197). -/
def execSendFd (s : State) : Host.Outcome State Fault Refusal :=
  let f := readFile s.txf
  done
    (if !fdOk f then refuse .badOperand s
     else if s.life ≠ .running then setR0 notRunning (accept s)
     else if s.mode ≠ .fd then setR0 modeMismatch (accept s)
     else if f.len.toNat > payloadBytes s.act.payload then setR0 payloadExceedsClass (accept s)
     else sendFrame (norm f) (s.act.rxmb.toNat + 1) (fdTxData s) (accept s))

/-! ## Receive -/

/-- Pop the receive ring into `RXF`, in `RUNNING` and mode `m` only; `none` when there is no frame to deliver (R200,
R202). -/
def recvFrame (m : Mode) (s : State) : Option (Frame × State) :=
  if s.life ≠ .running ∨ s.mode ≠ m then none
  else
    match qPop s.rxq with
    | none => none
    | some (f, q) => some (f, writeRxf f (setRxq q s))

/-- The common body of RECV and RECVFD. -/
def recvIn (m : Mode) (s : State) : State :=
  match recvFrame m (accept s) with
  | none => setR0 0 (accept s)
  | some (_, t) => setR0 1 t

/-- The callback of a matched index (R204). -/
def callbackOf (s : State) (idx : Byte) : Word := if idx.toNat < s.ncb then readCallback s.cbt idx.toNat else 0

/-- The common body of DISPATCH and DISPATCHFD. -/
def dispatchIn (m : Mode) (notify : Bool) (s : State) : State :=
  match recvFrame m (accept s) with
  | none => setR1 0 (setR0 0 (accept s))
  | some (f, t) =>
    let cb := callbackOf t f.idx
    let t := onFlag notify (emit (.matchNotify f.idx)) t
    let t := onFlag (cb != 0) (emit (.callbackInvoke cb f)) t
    setR1 cb (setR0 1 t)

/-- RECV (R200). -/
def execRecv (s : State) : Host.Outcome State Fault Refusal := done (recvIn .classic s)

/-- RECVFD (R201). -/
def execRecvFd (s : State) : Host.Outcome State Fault Refusal := done (recvIn .fd s)

/-- DISPATCH (R202). -/
def execDispatch (notify : Bool) (s : State) : Host.Outcome State Fault Refusal := done (dispatchIn .classic notify s)

/-- DISPATCHFD (R203). -/
def execDispatchFd (notify : Bool) (s : State) : Host.Outcome State Fault Refusal := done (dispatchIn .fd notify s)

/-! ## The handler -/

/-- `QPush(RXQ, f)`, a full ring dropping the frame and setting the sticky flag (R215). -/
def rxPush (f : Frame) (s : State) : State :=
  match qPush s.rxq f with
  | none => setRxbufOverflow s
  | some q => setRxq q s

/-- The transmit drain on mailbox `mb` (R216). -/
def txDrain (mb : Nat) (s : State) : State :=
  match qPop s.txq with
  | some (g, q) => txWrite mb g (setTxq q s)
  | none => emit (.mbSetInactive mb) s

/-- `MatchedIndex(HIT)` (R214). -/
def matchedIndex (s : State) (hit : BitVec 9) : Byte :=
  let h := hit.toNat
  BitVec.ofNat 8 (if h < s.par.nPrimaryMax then h else h - s.par.nPrimaryMax + s.act.np.toNat)

/-- The receive part of ISRC. -/
def isrcReceive (s : State) : State :=
  let a := portFifoFrame s.port
  let f := unpack .classic a.1.cs a.1.idw [a.1.dw0, a.1.dw1]
  rxPush { f with idx := matchedIndex s a.1.hit } (setPort a.2 s)

/-- ISRC on the sample `w` (R213). -/
def isrcRun (w : BitVec 4) (s : State) : State :=
  let s := onFlag (w.getLsbD 0) isrcReceive s
  let s := onFlag (w.getLsbD 1) setFifoWarning s
  let s := onFlag (w.getLsbD 2) setFifoOverflow s
  let s := onFlag (w.getLsbD 3) (txDrain s.par.mbTxData) s
  emit (.flagsClear w) s

/-- ISRC (R213). Outside its precondition the interrupt agent has no step (R212): nothing changes (log entry 4). -/
def execIsrc (s : State) : Host.Outcome State Fault Refusal :=
  done
    (if s.life = .running ∧ s.mode = .classic then
      let w := portFlags s.port
      isrcRun w.1 (setPort w.2 s)
     else s)

/-- The receive part of ISRFD for mailbox `i`. -/
def isrFdReceive (i : Nat) (s : State) : State :=
  let a := portMbFrame i s.port
  let f := unpack .fd a.1.cs a.1.idw (a.1.dw.toList.take (imageWords .fd s.act.payload))
  emit (.mbRearm i (readSlot s.slot (i - 1)).aw)
    (rxPush { f with idx := BitVec.ofNat 8 (i - 1) } (setPort a.2 s))

/-- ISRFD on one flagged mailbox: a receive mailbox, the dedicated transmit mailbox, or neither (R218). -/
def isrFdMailbox (i : Nat) (s : State) : State :=
  if 1 ≤ i ∧ i ≤ s.act.rxmb.toNat then isrFdReceive i s
  else if i = fdTxData s then txDrain i s
  else s

/-- ISRFD's loop over the flagged mailboxes, in the order of the list. -/
def isrFdLoop (flags : BitVec 64) : List Nat → State → State
  | [], s => s
  | i :: rest, s => isrFdLoop flags rest (onFlag (flags.getLsbD i) (isrFdMailbox i) s)

/-- ISRFD (R218), its precondition as ISRC's. -/
def execIsrFd (s : State) : Host.Outcome State Fault Refusal :=
  done
    (if s.life = .running ∧ s.mode = .fd then
      let lo := portFlagsLo s.port
      let hi := portFlagsHi lo.2
      let flags : BitVec 64 := hi.1 ++ lo.1
      let s := isrFdLoop flags (List.range 64) (setPort hi.2 s)
      emit (.flagsClearFd flags) (setPort (portTimer s.port).2 s)
     else s)

end Sys2Proof.Machine
end

