-- ==== Sys2Proof/Machine/Dispatch.lean ====
section
/-! DEFINITION. The one match from operations to their meanings. -/

namespace Sys2Proof.Machine

def exec (i : Instr) (s : State) : Host.Outcome State Fault Refusal :=
  match i with
  | .nop => Sys2Proof.Machine.execNop s
  | .solve => Sys2Proof.Machine.execSolve s
  | .solveFd => Sys2Proof.Machine.execSolveFd s
  | .check => Sys2Proof.Machine.execCheck s
  | .actual => Sys2Proof.Machine.execActual s
  | .exact => Sys2Proof.Machine.execExact s
  | .ppm => Sys2Proof.Machine.execPpm s
  | .sample => Sys2Proof.Machine.execSample s
  | .dactual => Sys2Proof.Machine.execDactual s
  | .dexact => Sys2Proof.Machine.execDexact s
  | .dsample => Sys2Proof.Machine.execDsample s
  | .encp kind fmt => Sys2Proof.Machine.execEncp kind fmt s
  | .encs kind fmt => Sys2Proof.Machine.execEncs kind fmt s
  | .encf kind fmt => Sys2Proof.Machine.execEncf kind fmt s
  | .encany => Sys2Proof.Machine.execEncany s
  | .fpushp => Sys2Proof.Machine.execFpushp s
  | .fpushs => Sys2Proof.Machine.execFpushs s
  | .fpushf => Sys2Proof.Machine.execFpushf s
  | .fclear => Sys2Proof.Machine.execFclear s
  | .beginCmd => Sys2Proof.Machine.execBegin s
  | .beginFd => Sys2Proof.Machine.execBeginFd s
  | .endCmd => Sys2Proof.Machine.execEnd s
  | .gsclr clr => Sys2Proof.Machine.execGsclr clr s
  | .send => Sys2Proof.Machine.execSend s
  | .sendFd => Sys2Proof.Machine.execSendFd s
  | .recv => Sys2Proof.Machine.execRecv s
  | .recvFd => Sys2Proof.Machine.execRecvFd s
  | .dispatch notify => Sys2Proof.Machine.execDispatch notify s
  | .dispatchFd notify => Sys2Proof.Machine.execDispatchFd notify s
  | .isrc => Sys2Proof.Machine.execIsrc s
  | .isrFd => Sys2Proof.Machine.execIsrFd s

end Sys2Proof.Machine
end

