-- ==== Sys2Proof/Machine/Inputs.lean ====
section
/-! DEFINITION. What one move of the outside does to the block: host accesses (R26, R62, R63), a turn of the interrupt
agent (R212, R243), an acknowledgement (R171) and reset (R260). -/

namespace Sys2Proof.Machine

/-- A word written to `CMD` while `BUSY = 0` (R26, R103). -/
def issue (w : Word) (s : State) : Host.Outcome State Fault Refusal :=
  match decode w with
  | .error _ => done (refuse .illegalCommand s)
  | .ok i => exec i s

/-- A host write. While `BUSY = 1` every one is ignored (R63, R171); an access the bus interface refuses changes
nothing (R62). -/
def hostWrite (addr size : Nat) (v : Word) (s : State) : Host.Outcome State Fault Refusal :=
  if s.busy then done s
  else
    match busReg s.par addr size with
    | none => done s
    | some .cmd => issue v s
    | some r => done (writeReg r v s)

/-- The word a host read returns; 0 for an access the bus interface refuses (R62). -/
def busRead (addr size : Nat) (s : State) : Word :=
  match busReg s.par addr size with
  | none => 0
  | some r => readReg r s

/-- A turn of the interrupt agent: one handler run, chosen by `MODE` (R208, R243), while `LIFE = RUNNING` (R212). -/
def handlerTurn (s : State) : Host.Outcome State Fault Refusal :=
  match s.mode with
  | .classic => exec .isrc s
  | .fd => exec .isrFd s

/-- The platform's reset (R260 to R262): every piece of the block's state takes its reset value and nothing is emitted;
the parameters and what the outside still has to say stay. -/
def platformReset (s : State) : State :=
  { State.resetWith s.par with inputs := s.inputs, port := s.port }

/-- One move of the outside. -/
def takeInput (e : Input) (s : State) : Host.Outcome State Fault Refusal :=
  match e with
  | .busWrite addr size v => hostWrite addr size v s
  | .busRead addr size => done { s with busData := busRead addr size s }
  | .irq => handlerTurn s
  | .ack what => done (takeAck what s)
  | .reset => done (platformReset s)

/-- The bus write that puts a command word into `CMD`. -/
def commandWrite (p : Params) (w : Word) : Input := .busWrite (p.seaBase + regOffset .cmd) 4 w

end Sys2Proof.Machine
end

