-- ==== Sys2Proof/Machine/Loopback.lean ====
section
/-! DEFINITION. The reference environment of R89, a loopback controller: not part of the block, used by the properties
that name it. -/

namespace Sys2Proof.Machine

/-- The controller's state: a code per mailbox (`INACTIVE` where not listed), the images written to mailboxes, the
filter slots, and the receive side of both modes. -/
structure Loopback where
  mode : Mode
  selfReception : Bool
  slots : List FilterPair
  rxmb : Nat
  codes : Memory MbCode
  sent : Memory MbImage
  fifo : List (MbImage × Nat)
  flags : BitVec 4
  received : Memory MbImage
  fdFlags : BitVec 64
  deriving DecidableEq, Repr

/-- The controller before the first configuration. R89 gives no start. DESIGN CHOICE (log entry 18): classic mode, no
filter slot, every mailbox `INACTIVE` and no image in it, the FIFO empty, all flags 0. -/
def loopReset (selfReception : Bool) : Loopback where
  mode := .classic
  selfReception := selfReception
  slots := []
  rxmb := 0
  codes := []
  sent := []
  fifo := []
  flags := 0
  received := []
  fdFlags := 0

/-- The state of mailbox `i`. -/
def loopCode (e : Loopback) (i : Nat) : MbCode := (e.codes.read? i).getD .inactive

/-- An image from the words of `MbWriteTx`. -/
def loopImage (cs idw : Word) (dw : List Word) : MbImage where
  cs := cs
  idw := idw
  dw := Vector.ofFn fun k : Fin 16 => dw[k.val]?.getD 0

/-- The numbers of the slots that match an image (R87), ascending. -/
def loopMatches (p : Params) (e : Loopback) (m : MbImage) : List Nat :=
  let sStd := match e.mode with
    | .classic => Config.shiftStd
    | .fd => p.fdShiftStd
  let f := unpack e.mode m.cs m.idw m.dw.toList
  (List.range e.slots.length).filter fun k => filterMatch sStd (e.slots.getD k { mw := 0, aw := 0 }) f

/-- The mailbox whose completion raises the done flag. -/
def loopDedicated (p : Params) (payload : BitVec 2) (e : Loopback) : Nat :=
  match e.mode with
  | .classic => p.mbTxData
  | .fd => fdMbTotal p payload - 1

/-- One action of the block: `MbWriteTx`, `MbSetInactive` and `FlagsClear` as R89 says. R89 is silent on the others.
DESIGN CHOICE (log entry 18): `ConfigWrite` sets the mode, the filter slots and the number of receive mailboxes and
leaves the mailbox codes, the images, the FIFO and the flags as they are; `FreezeEnter`, `FreezeExit`, `MbRearm` and the
interrupt and callback actions change nothing. So the controller's own reset, which R184 and R262 put into
`FreezeEnter` ("where the adapter resets it"), clears nothing of this controller. -/
def loopObserve (a : Action) (e : Loopback) : Loopback :=
  match a with
  | .mbWriteTx i cs idw dw =>
    { e with codes := e.codes.write i .txpend, sent := e.sent.write i (loopImage cs idw dw) }
  | .mbSetInactive i => { e with codes := e.codes.write i .inactive }
  | .mbRearm _ _ => e
  | .flagsClear w =>
    let fifo := if w.getLsbD 0 then e.fifo.drop 1 else e.fifo
    let flags := e.flags &&& ~~~w
    { e with fifo := fifo, flags := if w.getLsbD 0 && !fifo.isEmpty then flags ||| 0x1#4 else flags }
  | .flagsClearFd w => { e with fdFlags := e.fdFlags &&& ~~~w }
  | .configWrite (.classic c) => { e with mode := .classic, slots := c.slots }
  | .configWrite (.fd c f) => { e with mode := .fd, slots := c.slots, rxmb := f.rxmb.toNat }
  | .freezeEnter => e
  | .freezeExit => e
  | .irqInstall => e
  | .irqEnable => e
  | .irqDisable => e
  | .callbackInvoke _ _ => e
  | .matchNotify _ => e

/-- Offer a completed image to the filters (self-reception). -/
def loopOffer (p : Params) (m : MbImage) (e : Loopback) : Loopback :=
  match e.mode with
  | .classic =>
    match loopMatches p e m with
    | [] => e
    | k :: _ => { e with fifo := e.fifo ++ [(m, k)], flags := e.flags ||| 0x1#4 }
  | .fd =>
    match (loopMatches p e m).filter fun k => decide (k < e.rxmb) && !e.fdFlags.getLsbD (k + 1) with
    | [] => e
    | k :: _ => { e with
        received := e.received.write (k + 1) m
        fdFlags := e.fdFlags ||| (1#64 <<< (k + 1)) }

/-- The controller completes mailbox `i`, a move it may make at any time while the mailbox is transmitting. -/
def loopComplete (p : Params) (payload : BitVec 2) (i : Nat) (e : Loopback) : Loopback :=
  match loopCode e i, e.sent.read? i with
  | .txpend, some m =>
    let e := { e with codes := e.codes.write i (if m.cs.getLsbD 20 then .empty else .inactive) }
    let e :=
      if i = loopDedicated p payload e then
        match e.mode with
        | .classic => { e with flags := e.flags ||| 0x8#4 }
        | .fd => { e with fdFlags := e.fdFlags ||| (1#64 <<< i) }
      else e
    if e.selfReception then loopOffer p m e else e
  | _, _ => e

/-- The answers the controller gives to the port reads of one operation. R89 gives no timer: `PortRead(Timer)` answers 0
(DESIGN CHOICE, log entry 18; R219 discards it). An empty FIFO lists no answer to `PortRead(FifoFrame)`, which the block
makes only when `FRAME_AVAILABLE` is set (R86). -/
def loopPort (e : Loopback) : Port where
  mbCodes := (List.range 64).map fun i => (i, loopCode e i)
  flags := [e.flags]
  flagsLo := [e.fdFlags.extractLsb' 0 32]
  flagsHi := [e.fdFlags.extractLsb' 32 32]
  fifoFrames :=
    match e.fifo with
    | [] => []
    | (m, k) :: _ =>
      [{ cs := m.cs, idw := m.idw, dw0 := m.dw[0], dw1 := m.dw[1], hit := BitVec.ofNat 9 k }]
  mbFrames := e.received
  timers := [0]
  pins := []
  draws := 0

/-- The acknowledgement the controller gives at once to a waiting block. -/
def loopAck (s : State) : List Input :=
  match s.waitpt with
  | .none => []
  | .beginFrozen => [.ack .frozen]
  | .beginUnfrozen => [.ack .unfrozen]
  | .endFrozen => [.ack .frozen]

/-- One step of the block in the reference environment: the controller answers its port reads, consumes the actions it
emits, and acknowledges its wait. The pin answers stay those of `s.port`, the pin-mux being another collaborator. -/
def loopStep (s : State) (e : Loopback) : Host.Outcome (State × Loopback) Fault Refusal :=
  match step { s with port := { loopPort e with pins := s.port.pins, draws := s.port.draws } } with
  | .next t =>
    .next ({ t with inputs := loopAck t ++ t.inputs },
      (t.out.drop s.out.length).foldl (fun e a => loopObserve a e) e)
  | .fault r => .fault r
  | .refused r => .refused r

end Sys2Proof.Machine
end

