-- ==== Sys2Proof/Machine/Script.lean ====
section
/-! DEFINITION. The host script of R106 and its pseudo-operations (R107), as lists of moves of the outside. -/

namespace Sys2Proof.Machine

/-- `WR reg, value`. -/
def scriptWr (p : Params) (r : HostReg) (v : Word) : List Input := [.busWrite (p.seaBase + regOffset r) 4 v]

/-- `RD reg`. -/
def scriptRd (p : Params) (r : HostReg) : List Input := [.busRead (p.seaBase + regOffset r) 4]

/-- `MNEMONIC imm-fields`: the command word to `CMD`; the handler operations have none. -/
def scriptCmd (p : Params) (i : Instr) : List Input :=
  match encode i with
  | some w => [commandWrite p w]
  | none => []

/-- `IRQ`. -/
def scriptIrq : List Input := [.irq]

/-- `SOLVE(rate, clk, div, tol)`. -/
def scriptSolve (p : Params) (rate clk divisor tol : Word) : List Input :=
  scriptWr p .a0 rate ++ scriptWr p .a1 clk ++ scriptWr p .a2 divisor ++ scriptWr p .a3 tol ++ scriptCmd p .solve

/-- `SOLVEFD(rate, clk, div, tol, f)`. -/
def scriptSolveFd (p : Params) (rate clk divisor tol factor : Word) : List Input :=
  scriptWr p .a0 rate ++ scriptWr p .a1 clk ++ scriptWr p .a2 divisor ++ scriptWr p .a3 tol
    ++ scriptWr p .a4 factor ++ scriptCmd p .solveFd

/-- The operands and the encode command of `ENCP(kind, format, mask, acc)`, `ENCS(…)`, `ENCF(…)`. -/
def scriptEnc (p : Params) (i : Instr) (mask acc : Word) : List Input :=
  scriptWr p .a0 mask ++ scriptWr p .a1 acc ++ scriptCmd p i

/-- `ENCP(kind, format, mask, acc)`. -/
def scriptEncp (p : Params) (k : FilterKind) (f : Format) (mask acc : Word) : List Input :=
  scriptEnc p (.encp k f) mask acc

/-- `ENCS(kind, format, mask, acc)`. -/
def scriptEncs (p : Params) (k : FilterKind) (f : Format) (mask acc : Word) : List Input :=
  scriptEnc p (.encs k f) mask acc

/-- `ENCF(kind, format, mask, acc)`. -/
def scriptEncf (p : Params) (k : FilterKind) (f : Format) (mask acc : Word) : List Input :=
  scriptEnc p (.encf k f) mask acc

/-- `FILTERP(kind, format, mask, acc, cb)`. -/
def scriptFilterp (p : Params) (k : FilterKind) (f : Format) (mask acc cb : Word) : List Input :=
  scriptEncp p k f mask acc ++ scriptWr p .a2 cb ++ scriptCmd p .fpushp

/-- `FILTERS(kind, format, mask, acc, cb)`. -/
def scriptFilters (p : Params) (k : FilterKind) (f : Format) (mask acc cb : Word) : List Input :=
  scriptEncs p k f mask acc ++ scriptWr p .a2 cb ++ scriptCmd p .fpushs

/-- `FILTERF(kind, format, mask, acc, cb)`. -/
def scriptFilterf (p : Params) (k : FilterKind) (f : Format) (mask acc cb : Word) : List Input :=
  scriptEncf p k f mask acc ++ scriptWr p .a2 cb ++ scriptCmd p .fpushf

/-- Host word `k` of a list of bytes, those not given being 0. -/
def scriptWord (bytes : List Byte) (k : Nat) : Word :=
  bytes.getD (4 * k + 3) 0 ++ bytes.getD (4 * k + 2) 0 ++ bytes.getD (4 * k + 1) 0 ++ bytes.getD (4 * k) 0

/-- `LDF(id, ext, kind, len, b0, b1, …)`. -/
def scriptLdf (p : Params) (id : Word) (fmt : Format) (kind : FrameKind) (len : BitVec 7) (bytes : List Byte) :
    List Input :=
  scriptWr p .txfId id
    ++ scriptWr p .txfCtl
        (bitAt (bitOfFormat fmt) 0 ||| ((kindCode kind).setWidth 32 <<< 1) ||| (len.setWidth 32 <<< 8))
    ++ ((List.finRange 16).filter fun k => decide (4 * k.val < len.toNat)).flatMap fun k =>
        scriptWr p (.txfD k) (scriptWord bytes k.val)

/-- `TRYSEND`: success is an answer 0. -/
def scriptTrySend (p : Params) : List Input := scriptCmd p .send ++ scriptRd p .r0

end Sys2Proof.Machine
end

