-- ==== Sys2Proof/Machine/System.lean ====
section
/-! DEFINITION. A system of three instances (R2, R99, R250). Each has its own state, parameters, inputs and port; a step
of the system is a step of one instance. -/

namespace Sys2Proof.Machine

/-- The three instances of a system (R2). -/
abbrev System := Vector State Config.nInstances

/-- The register spaces of two instances do not overlap (R61). -/
def disjointMaps (p q : Params) : Bool :=
  decide (p.seaBase + Config.mapBytes ≤ q.seaBase) || decide (q.seaBase + Config.mapBytes ≤ p.seaBase)

/-- The parameters of the three instances are legal and their register spaces apart (R9, R61). -/
def systemWf (sys : System) : Bool :=
  sys.toList.all (fun s => s.par.wf)
    && (List.finRange Config.nInstances).all fun i =>
        (List.finRange Config.nInstances).all fun j => i == j || disjointMaps sys[i].par sys[j].par

/-- A step of instance `k`. -/
def systemStep (k : Fin Config.nInstances) (sys : System) : Host.Outcome System Fault Refusal :=
  match step sys[k] with
  | .next t => .next (sys.set k t)
  | .fault r => .fault r
  | .refused r => .refused r

/-- Reset of the three instances, which start in the reset state together (R250). -/
def systemReset (p : Vector Params Config.nInstances) : System := p.map State.resetWith

end Sys2Proof.Machine
end

