-- ==== Sys2Proof/Safety.lean ====
section
/-! DEFINITION. What a good state of the block is: the invariants the spec states of it (R27, R28, R43, R45, R47, R48,
R171, R179, R183), in the terms the claims use. -/

namespace Sys2Proof.Machine

/-! ## Rings and memories -/

/-- Every entry below `n` was written. -/
def Listed {α : Type} (m : Memory α) (n : Nat) : Prop := ∀ i, i < n → (m.read? i).isSome = true

/-- The invariant of a ring's words (R45), the canonical form of its memory, and that each live entry was written. -/
structure RingWf (q : Ring) : Prop where
  rd_lt : q.rd.toNat < q.cap.toNat ∨ (q.cap = 0 ∧ q.rd = 0)
  cnt_le_peak : q.cnt.toNat ≤ q.peak.toNat
  peak_le_cap : q.peak.toNat ≤ q.cap.toNat
  mem_wf : q.mem.wf
  mem_lt : ∀ e ∈ q.mem, e.1 < q.cap.toNat
  live : ∀ k, k < q.cnt.toNat → (q.mem.read? (ringIndex q k)).isSome = true

/-- The live frames of a ring, oldest first (R45). -/
def queued (q : Ring) : List Frame := (List.range q.cnt.toNat).map fun k => readFrame q.mem (ringIndex q k)

/-- Both rings meet their invariant (R45). -/
def RingsInv (s : State) : Prop := RingWf s.rxq ∧ RingWf s.txq

/-- Every entry of a ring memory is a well-formed frame in normal form (R42, R43). -/
def FramesGood (m : Memory Frame) : Prop := ∀ e ∈ m, fdOk e.2 = true ∧ norm e.2 = e.2

/-- Every frame either ring holds, and the frame in `RXF`, is in normal form (R43). -/
def FramesInv (s : State) : Prop :=
  FramesGood s.rxq.mem ∧ FramesGood s.txq.mem ∧ norm (readFile s.rxf) = readFile s.rxf

/-! ## The life cycle -/

/-- `BUSY = 1` exactly when `LIFE = CONFIGURING`, exactly when `WAITPT != 0` (R27, R171). -/
def LifeInv (s : State) : Prop :=
  (s.busy = true ↔ s.life = .configuring) ∧ (s.life = .configuring ↔ s.waitpt ≠ .none)

/-- `GSTAT.INIT_ERROR = 1` implies `LIFE != RUNNING` (R28). -/
def InitErrorInv (s : State) : Prop := s.gstat.getLsbD 0 = true → s.life ≠ .running

/-- No configuration is active: both rings have capacity 0 and no entries, the active tables are empty and `ACT_CFG`
reads 0 (R30, R45, R179). -/
def Inactive (s : State) : Prop :=
  s.rxq = Ring.zero ∧ s.txq = Ring.zero ∧ s.nslot = 0 ∧ s.slot = [] ∧ s.ncb = 0 ∧ s.cbt = [] ∧ s.act = ActCfg.zero

/-- In `UNINIT`, and until phase B of BEGIN or BEGINFD, no configuration is active (R45, R179). -/
def IdleInv (s : State) : Prop := (s.life = .uninit ∨ s.waitpt = .beginFrozen) → Inactive s

/-! ## Staging, pending configuration, active configuration -/

/-- A staging list (R47): canonical, at most `limit` entries, and every entry counted below the limit was written. -/
structure StageWf (limit : Nat) (n : Byte) (m : Memory FilterEntry) : Prop where
  mem_wf : m.wf
  mem_lt : ∀ e ∈ m, e.1 < limit
  listed : Listed m (min n.toNat limit)

/-- The three staging lists (R47). -/
def StageInv (s : State) : Prop :=
  StageWf s.par.nPrimaryMax s.np s.sp ∧ StageWf s.par.nSecondaryMax s.ns s.ss ∧ StageWf Config.stageFd s.nf s.sf

/-- The validations a BEGIN that waits for `Frozen` has passed, but for the pins (R173, R175, R178). -/
def ValidClassic (s : State) : Prop :=
  consistencyC s.timing = 0 ∧ s.timing.bitok = true ∧ s.timing.fd = false ∧ filterErrC s = 0

/-- The same for BEGINFD (R178, R180). -/
def ValidFd (s : State) : Prop :=
  consistencyF s.timing = 0 ∧ s.timing.bitok = true ∧ s.timing.fd = true ∧ s.par.fdCapable = true
    ∧ s.fdRxmb.toNat + 2 ≤ fdMbTotal s.par s.fdPayload ∧ filterErrF s.fdRxmb.toNat s = 0

/-- While BEGIN or BEGINFD waits for `Frozen`, the registers still hold what phase A validated (R171, R176). -/
def PendingInv (s : State) : Prop :=
  s.waitpt = .beginFrozen →
    match s.mode with
    | .classic => ValidClassic s
    | .fd => ValidFd s

/-- The active tables (R48): canonical, every entry below `NSLOT` and `NCB` written, and no active slot with its soft
error flag set (R183, R220). -/
structure TablesWf (nslot : Nat) (slot : Memory FilterPair) (ncb : Nat) (cbt : Memory Word) : Prop where
  slot_wf : slot.wf
  slot_listed : Listed slot nslot
  soft_clear : ∀ k, k < nslot → (readSlot slot k).aw.getLsbD 0 = false
  cbt_wf : cbt.wf
  cbt_listed : Listed cbt ncb

/-- The counts of an active configuration (R48, R82, R173). -/
def CountsWf (m : Mode) (p : Params) (a : ActCfg) (nslot ncb : Nat) : Prop :=
  match m with
  | .classic =>
    nslot = p.nPrimaryMax + p.nSecondaryMax ∧ ncb = a.np.toNat + a.ns.toNat
      ∧ a.np.toNat ≤ p.nPrimaryMax ∧ a.ns.toNat ≤ p.nSecondaryMax
  | .fd =>
    nslot = a.rxmb.toNat ∧ ncb = a.nf.toNat ∧ a.nf.toNat ≤ a.rxmb.toNat ∧ a.rxmb.toNat + 2 ≤ fdMbTotal p a.payload

/-- From phase B of BEGIN or BEGINFD to phase B of END a configuration is active (R179). -/
def ActiveInv (s : State) : Prop :=
  (s.life = .running ∨ s.waitpt = .beginUnfrozen ∨ s.waitpt = .endFrozen) →
    TablesWf s.nslot s.slot s.ncb s.cbt ∧ CountsWf s.mode s.par s.act s.nslot s.ncb

/-! ## The whole invariant -/

/-- A good state. -/
structure Inv (s : State) : Prop where
  par_wf : s.par.wf = true
  life : LifeInv s
  initError : InitErrorInv s
  idle : IdleInv s
  rings : RingsInv s
  frames : FramesInv s
  stage : StageInv s
  pending : PendingInv s
  active : ActiveInv s

/-- A state some run of an instance with legal parameters reaches, whatever the outside does and answers: from reset
the outside may put any inputs and any port answers before each step. -/
inductive Reachable : State → Prop
  | reset (p : Params) : p.wf = true → Reachable (State.resetWith p)
  | outside (s : State) (inputs : List Input) (port : Port) :
      Reachable s → Reachable { s with inputs := inputs, port := port }
  | step (s t : State) : Reachable s → step s = .next t → Reachable t

end Sys2Proof.Machine
end

