-- ==== Sys2Proof/Certificates/Slice0/Obligations.lean ====
section
/-! DEFINITION. The statements for the provers. Each docstring names the rules of the spec it formalises; a clause that is
the model's own choice names its log entry. -/

namespace Sys2Proof.Machine

/-! ## What the statements say the spec's tables with -/

/-- The reserved opcodes of R104. -/
def reservedOpcode (op : Nat) : Prop :=
  (0x01 ≤ op ∧ op ≤ 0x0F) ∨ (0x1A ≤ op ∧ op ≤ 0x1F) ∨ (0x28 ≤ op ∧ op ≤ 0x2F) ∨ (0x34 ≤ op ∧ op ≤ 0x3F)
    ∨ (0x46 ≤ op ∧ op ≤ 0xFF)

/-- The immediate bits of a command word that R102 says must be 0, by opcode. -/
def mustBeZero (op : Nat) : Word :=
  if op = 0x20 ∨ op = 0x21 ∨ op = 0x22 then 0xFFFFFC00
  else if op = 0x33 then 0xFFFFF000
  else if op = 0x44 ∨ op = 0x45 then 0xFFFFFE00
  else 0xFFFFFF00

/-- A word R103 refuses with `ILLEGAL_COMMAND`. -/
def illegalWord (w : Word) : Prop :=
  reservedOpcode (w.toNat % 256) ∨ w &&& mustBeZero (w.toNat % 256) ≠ 0

/-- The defined bits of a read-write register (R21, R31, R36 to R38, R40, R41); none for the others. -/
def definedBits : HostReg → Option Word
  | .cmd => none
  | .cmdstat => none
  | .gstat => none
  | .fcount => none
  | .a0 => some 0xFFFFFFFF
  | .a1 => some 0xFFFFFFFF
  | .a2 => some 0xFFFFFFFF
  | .a3 => some 0xFFFFFFFF
  | .a4 => some 0xFFFFFFFF
  | .actCfg => none
  | .r0 => none
  | .r1 => none
  | .tBrp => some 0xFFFF
  | .tProp => some 0xFF
  | .tPs1 => some 0xFF
  | .tPs2 => some 0xFF
  | .tRjw => some 0xFF
  | .tFlags => some 0x7
  | .tRate => some 0xFFFFFFFF
  | .tClk => some 0xFFFFFFFF
  | .tDiv => some 0xFF
  | .tFactor => some 0xF
  | .tdProp => some 0xFF
  | .tdPs1 => some 0xFF
  | .tdPs2 => some 0xFF
  | .tdRjw => some 0xFF
  | .qCfg => some 0xFFFFFFFF
  | .fdCfg => some 0x0000FF03
  | .pinCfg => some 0x0000FFFF
  | .rxqStat => none
  | .rxqPeak => none
  | .txqStat => none
  | .txqPeak => none
  | .txfId => some 0x1FFFFFFF
  | .txfCtl => some 0x00FF7F07
  | .txfD _ => some 0xFFFFFFFF
  | .rxfId => none
  | .rxfCtl => none
  | .rxfD _ => none

/-- The number of a frame kind in `CTL.KIND` (R40). -/
def kindNumber : FrameKind → Nat
  | .data => 0
  | .remote => 1
  | .fdNoBrs => 2
  | .fdBrs => 3

/-- `w` is the `CTL` word of a frame register file (R40): each field in its place, 0 in every other bit. -/
def ShowsCtl (t : FrameFile) (w : Word) : Prop :=
  (w.getLsbD 0 = true ↔ t.ext = .ext) ∧ (w.extractLsb' 1 2).toNat = kindNumber t.kind ∧ w.extractLsb' 3 5 = 0
    ∧ w.extractLsb' 8 7 = t.len ∧ w.getLsbD 15 = false ∧ w.extractLsb' 16 8 = t.idx ∧ w.extractLsb' 24 8 = 0

/-- `w` is the word of register `r` in state `s`: each field of the spec's tables in its place, 0 in every bit without a
field (R21, R26 to R31, R36 to R41). -/
def ShowsFields (r : HostReg) (s : State) (w : Word) : Prop :=
  match r with
  | .cmd => w = 0
  | .cmdstat =>
    (w.extractLsb' 0 2).toNat = (match s.life with | .uninit => 0 | .configuring => 1 | .running => 2)
    ∧ (w.getLsbD 2 = true ↔ s.mode = .fd) ∧ w.getLsbD 3 = s.busy
    ∧ (w.extractLsb' 4 4).toNat
        = (match s.err with | .none => 0 | .illegalCommand => 1 | .badState => 2 | .badOperand => 3)
    ∧ (w.extractLsb' 8 2).toNat
        = (match s.waitpt with | .none => 0 | .beginFrozen => 1 | .beginUnfrozen => 2 | .endFrozen => 3)
    ∧ w.extractLsb' 10 22 = 0
  | .gstat => w.extractLsb' 0 4 = s.gstat ∧ w.extractLsb' 4 28 = 0
  | .fcount =>
    w.extractLsb' 0 8 = s.np ∧ w.extractLsb' 8 8 = s.ns ∧ w.extractLsb' 16 8 = s.nf ∧ w.extractLsb' 24 8 = 0
  | .a0 => w = s.a0
  | .a1 => w = s.a1
  | .a2 => w = s.a2
  | .a3 => w = s.a3
  | .a4 => w = s.a4
  | .actCfg =>
    w.extractLsb' 0 8 = s.act.np ∧ w.extractLsb' 8 8 = s.act.ns ∧ w.extractLsb' 16 8 = s.act.nf
    ∧ w.extractLsb' 24 2 = s.act.payload ∧ w.extractLsb' 26 6 = s.act.rxmb
  | .r0 => w = s.r0
  | .r1 => w = s.r1
  | .tBrp => w.toNat = s.timing.brp.toNat
  | .tProp => w.toNat = s.timing.prop.toNat
  | .tPs1 => w.toNat = s.timing.ps1.toNat
  | .tPs2 => w.toNat = s.timing.ps2.toNat
  | .tRjw => w.toNat = s.timing.rjw.toNat
  | .tFlags =>
    w.getLsbD 0 = s.timing.triple ∧ w.getLsbD 1 = s.timing.bitok ∧ w.getLsbD 2 = s.timing.fd
    ∧ w.extractLsb' 3 29 = 0
  | .tRate => w = s.timing.rate
  | .tClk => w = s.timing.clk
  | .tDiv => w.toNat = s.timing.div.toNat
  | .tFactor => w.toNat = s.timing.factor.toNat
  | .tdProp => w.toNat = s.timing.dprop.toNat
  | .tdPs1 => w.toNat = s.timing.dps1.toNat
  | .tdPs2 => w.toNat = s.timing.dps2.toNat
  | .tdRjw => w.toNat = s.timing.drjw.toNat
  | .qCfg => w.extractLsb' 0 16 = s.rxcap ∧ w.extractLsb' 16 16 = s.txcap
  | .fdCfg =>
    w.extractLsb' 0 2 = s.fdPayload ∧ w.extractLsb' 2 6 = 0 ∧ w.extractLsb' 8 8 = s.fdRxmb
    ∧ w.extractLsb' 16 16 = 0
  | .pinCfg => w.extractLsb' 0 8 = s.txpin ∧ w.extractLsb' 8 8 = s.rxpin ∧ w.extractLsb' 16 16 = 0
  | .rxqStat => w.extractLsb' 0 16 = s.rxq.cnt ∧ w.extractLsb' 16 16 = s.rxq.cap
  | .rxqPeak => w.toNat = s.rxq.peak.toNat
  | .txqStat => w.extractLsb' 0 16 = s.txq.cnt ∧ w.extractLsb' 16 16 = s.txq.cap
  | .txqPeak => w.toNat = s.txq.peak.toNat
  | .txfId => w.toNat = s.txf.id.toNat
  | .txfCtl => ShowsCtl s.txf w
  | .txfD k => w = s.txf.d[k]
  | .rxfId => w.toNat = s.rxf.id.toNat
  | .rxfCtl => ShowsCtl s.rxf w
  | .rxfD k => w = s.rxf.d[k]

/-- Payload byte `j` of a frame register file (R41). -/
def payloadByte (t : FrameFile) (j : Fin 64) : Byte := (t.d[j.val / 4]?.getD 0).extractLsb' (8 * (j.val % 4)) 8

/-- Byte `j` of a payload lies at or beyond the payload length, which is 0 for a remote frame (R43). -/
def beyondPayload (kind : FrameKind) (len : BitVec 7) (j : Fin 64) : Prop := kind = .remote ∨ len.toNat ≤ j.val

/-- `f` is the frame `TXF` submits: its fields and its bytes, 0 at and beyond the payload length, with index 0 (R41, R43,
R44). -/
def Submitted (t : FrameFile) (f : Frame) : Prop :=
  f.id = t.id ∧ f.ext = t.ext ∧ f.kind = t.kind ∧ f.len = t.len ∧ f.idx = 0
    ∧ ∀ j : Fin 64, (beyondPayload t.kind t.len j → f.data[j] = 0)
        ∧ (¬ beyondPayload t.kind t.len j → f.data[j] = payloadByte t j)

/-- The length of each length code (R74). -/
def lengthOfCode : List Nat := [0, 1, 2, 3, 4, 5, 6, 7, 8, 12, 16, 20, 24, 32, 48, 64]

/-- Bit `n` of the control word of the image of `f`, but for the length code in bits 19:16 (R72). -/
def controlBit (f : Frame) (n : Nat) : Prop :=
  match n with
  | 31 => f.kind = .fdNoBrs ∨ f.kind = .fdBrs
  | 30 => f.kind = .fdBrs
  | 27 => True
  | 26 => True
  | 22 => f.ext = .ext
  | 21 => f.ext = .ext
  | 20 => f.kind = .remote
  | _ => False

/-- The frame in `TXF` is ill-formed for SEND (R192). -/
def illFormedClassic (t : FrameFile) : Prop :=
  (t.ext = .std ∧ 0x7FF < t.id.toNat) ∨ t.kind = .fdNoBrs ∨ t.kind = .fdBrs ∨ 8 < t.len.toNat

/-- The frame in `TXF` is ill-formed for SENDFD (R192). -/
def illFormedFd (t : FrameFile) : Prop :=
  (t.ext = .std ∧ 0x7FF < t.id.toNat)
    ∨ t.len.toNat ∉ [0, 1, 2, 3, 4, 5, 6, 7, 8, 12, 16, 20, 24, 32, 48, 64]
    ∨ ((t.kind = .data ∨ t.kind = .remote) ∧ 8 < t.len.toNat)

/-- The operands SOLVE refuses (R130). -/
def badSolveOperands (s : State) : Prop := s.a0 = 0 ∨ s.a1 = 0 ∨ s.a2 = 0 ∨ 255 < s.a2.toNat

/-- `c` is the refusal code the table of R232 gives command `i` in state `s`, in the order of R234. -/
def refusalCode (i : Instr) (s : State) (c : ErrCode) : Prop :=
  match i with
  | .solve => (badSolveOperands s ∧ c = .badOperand) ∨ (¬ badSolveOperands s ∧ c = .none)
  | .solveFd =>
    ((badSolveOperands s ∨ s.a4 = 0 ∨ 8 < s.a4.toNat) ∧ c = .badOperand)
      ∨ (¬ (badSolveOperands s ∨ s.a4 = 0 ∨ 8 < s.a4.toNat) ∧ c = .none)
  | .actual =>
    ((s.timing.div = 0 ∨ s.timing.brp = 0) ∧ c = .badOperand)
      ∨ (¬ (s.timing.div = 0 ∨ s.timing.brp = 0) ∧ c = .none)
  | .ppm =>
    ((s.timing.rate = 0 ∨ s.timing.brp = 0 ∨ s.timing.div = 0) ∧ c = .badOperand)
      ∨ (¬ (s.timing.rate = 0 ∨ s.timing.brp = 0 ∨ s.timing.div = 0) ∧ c = .none)
  | .dactual =>
    ((s.timing.fd = false ∨ s.timing.div = 0 ∨ s.timing.brp = 0) ∧ c = .badOperand)
      ∨ (¬ (s.timing.fd = false ∨ s.timing.div = 0 ∨ s.timing.brp = 0) ∧ c = .none)
  | .dexact => (s.timing.fd = false ∧ c = .badOperand) ∨ (s.timing.fd = true ∧ c = .none)
  | .dsample => (s.timing.fd = false ∧ c = .badOperand) ∨ (s.timing.fd = true ∧ c = .none)
  | .beginCmd =>
    (s.life ≠ .uninit ∧ c = .badState) ∨ (s.life = .uninit ∧ s.timing.fd = true ∧ c = .badOperand)
      ∨ (s.life = .uninit ∧ s.timing.fd = false ∧ c = .none)
  | .beginFd =>
    (s.life ≠ .uninit ∧ c = .badState) ∨ (s.life = .uninit ∧ s.timing.fd = false ∧ c = .badOperand)
      ∨ (s.life = .uninit ∧ s.timing.fd = true ∧ c = .none)
  | .endCmd => (s.life ≠ .running ∧ c = .badState) ∨ (s.life = .running ∧ c = .none)
  | .send => (illFormedClassic s.txf ∧ c = .badOperand) ∨ (¬ illFormedClassic s.txf ∧ c = .none)
  | .sendFd => (illFormedFd s.txf ∧ c = .badOperand) ∨ (¬ illFormedFd s.txf ∧ c = .none)
  | .nop => c = .none
  | .check => c = .none
  | .exact => c = .none
  | .sample => c = .none
  | .encp _ _ => c = .none
  | .encs _ _ => c = .none
  | .encf _ _ => c = .none
  | .encany => c = .none
  | .fpushp => c = .none
  | .fpushs => c = .none
  | .fpushf => c = .none
  | .fclear => c = .none
  | .gsclr _ => c = .none
  | .recv => c = .none
  | .recvFd => c = .none
  | .dispatch _ => c = .none
  | .dispatchFd _ => c = .none
  | .isrc => c = s.err
  | .isrFd => c = s.err

/-- The condition of bit `n` of the classic consistency word (R133). -/
def classicBit (t : Timing) (n : Nat) : Prop :=
  match n with
  | 0 => t.brp = 0
  | 1 => 256 < t.brp.toNat
  | 2 => t.prop = 0
  | 3 => 8 < t.prop.toNat
  | 4 => t.ps1 = 0
  | 5 => 8 < t.ps1.toNat
  | 6 => t.ps2 = 0
  | 7 => 8 < t.ps2.toNat
  | 8 => t.rjw = 0
  | 9 => 4 < t.rjw.toNat
  | 10 => t.ps2.toNat < t.rjw.toNat
  | 11 => t.ps1 = 1 ∧ t.triple = true
  | _ => False

/-- The condition of bit `n` of the FD consistency word (R134). -/
def fdBit (t : Timing) (n : Nat) : Prop :=
  match n with
  | 0 => t.brp = 0
  | 1 => 1024 < t.brp.toNat
  | 2 => t.prop = 0
  | 3 => 64 < t.prop.toNat
  | 4 => t.ps1 = 0
  | 5 => 32 < t.ps1.toNat
  | 6 => t.ps2 = 0
  | 7 => 32 < t.ps2.toNat
  | 8 => t.rjw = 0
  | 9 => 32 < t.rjw.toNat
  | 10 => t.ps2.toNat < t.rjw.toNat
  | 11 => t.ps1 = 1 ∧ t.triple = true
  | 12 => t.dprop = 0
  | 13 => 31 < t.dprop.toNat
  | 14 => t.dps1 = 0
  | 15 => 8 < t.dps1.toNat
  | 16 => t.dps2 = 0
  | 17 => 8 < t.dps2.toNat
  | 18 => t.drjw = 0
  | 19 => 8 < t.drjw.toNat
  | 20 => t.dps2.toNat < t.drjw.toNat
  | _ => False

/-- Some entry below `n` of a staging list has its soft error flag set (R173). -/
def someSoftError (m : Memory FilterEntry) (n : Nat) : Prop := ∃ i, i < n ∧ (readFilter m i).aw.getLsbD 0 = true

/-- The answers BEGIN and BEGINFD get to their two pin reads, TX first (R174), and the port after them. -/
def pinAnswers (s : State) : Bool × Bool × Port :=
  let tx := portPinValid .tx s.txpin s.port
  let rx := portPinValid .rx s.rxpin tx.2
  (tx.1, rx.1, rx.2)

/-- The condition of bit `n` of the configuration error word of BEGIN (R173, R174, R178). -/
def beginBit (s : State) (n : Nat) : Prop :=
  match n with
  | 25 => s.timing.bitok = false
  | 26 => (pinAnswers s).2.1 = false
  | 27 => (pinAnswers s).1 = false
  | 28 => someSoftError s.ss (min s.ns.toNat s.par.nSecondaryMax)
  | 29 => s.par.nSecondaryMax < s.ns.toNat
  | 30 => someSoftError s.sp (min s.np.toNat s.par.nPrimaryMax)
  | 31 => s.par.nPrimaryMax < s.np.toNat
  | n => classicBit s.timing n

/-- The condition of bit `n` of the configuration error word of BEGINFD (R173, R174, R178). -/
def beginFdBit (s : State) (n : Nat) : Prop :=
  match n with
  | 21 => someSoftError s.sf (min s.nf.toNat 64)
  | 22 => s.fdRxmb.toNat < s.nf.toNat
  | 23 => fdMbTotal s.par s.fdPayload - 2 < s.fdRxmb.toNat
  | 24 => s.par.fdCapable = false
  | 25 => s.timing.bitok = false
  | 26 => (pinAnswers s).2.1 = false
  | 27 => (pinAnswers s).1 = false
  | n => fdBit s.timing n

/-- `1` or `0` as a register value. -/
def oneIf (b : Bool) : Word := if b then 1 else 0

/-- Bit `n` of an identifier field placed in a filter word (R151 to R153): the low 11 bits of `x` at offset `sh` for the
standard format, its low 29 bits at offset 1 for the extended one. -/
def fieldBit (fmt : Format) (sh : Nat) (x : Word) (n : Nat) : Bool :=
  match fmt with
  | .std => decide (sh ≤ n ∧ n < sh + 11) && x.getLsbD (n - sh)
  | .ext => decide (1 ≤ n ∧ n ≤ 29) && x.getLsbD (n - 1)

/-- The largest identifier of a format (R154). -/
def widestId (fmt : Format) : Nat :=
  match fmt with
  | .std => 0x7FF
  | .ext => 0x1FFFFFFF

/-- `p` is the pair R151, R153 and R154 give for a filter specification, bit by bit. -/
def EncodedPair (kind : FilterKind) (fmt : Format) (m a : Word) (sh : Nat) (p : FilterPair) : Prop :=
  (∀ n, n < 32 →
    p.mw.getLsbD n = if n = 31 then true else if n = 30 then true else fieldBit fmt sh m n)
  ∧ (∀ n, 0 < n → n < 32 →
    p.aw.getLsbD n =
      if n = 31 then decide (kind = .remote) else if n = 30 then decide (fmt = .ext) else fieldBit fmt sh a n)
  ∧ (p.aw.getLsbD 0 = true ↔ widestId fmt < a.toNat ∨ widestId fmt < m.toNat ∨ m &&& a ≠ a)

/-- What a push to a staging list of capacity `limit` does (R160 to R162): the counter `n` becomes `n'`, saturating at
255, and entry `n` of the list `m` becomes `e` in `m'` when there is room. -/
def PushEffect (limit : Nat) (e : FilterEntry) (n n' : Byte) (m m' : Memory FilterEntry) : Prop :=
  n'.toNat = min 255 (n.toNat + 1)
  ∧ (n.toNat < limit → m'.read? n.toNat = some e)
  ∧ (limit ≤ n.toNat → m' = m)
  ∧ (∀ i, i ≠ n.toNat → m'.read? i = m.read? i)
  ∧ (m.wf → m'.wf)

/-- `q'` is `q` with `f` enqueued: stored at the write position, every other entry as it was (R65, R66). -/
def Enqueued (q q' : Ring) (f : Frame) : Prop :=
  RingWf q' ∧ queued q' = queued q ++ [f] ∧ q'.cap = q.cap ∧ q'.rd = q.rd
    ∧ q'.cnt.toNat = q.cnt.toNat + 1 ∧ q'.peak.toNat = max q.peak.toNat (q.cnt.toNat + 1)
    ∧ q'.mem.read? ((q.rd.toNat + q.cnt.toNat) % q.cap.toNat) = some f
    ∧ ∀ i, i ≠ (q.rd.toNat + q.cnt.toNat) % q.cap.toNat → q'.mem.read? i = q.mem.read? i

/-- `q'` is `q` with its oldest frame dequeued; no entry is written (R65, R67). -/
def Dequeued (q q' : Ring) : Prop :=
  RingWf q' ∧ queued q' = (queued q).tail ∧ q'.cap = q.cap ∧ q'.peak = q.peak ∧ q'.mem = q.mem
    ∧ q'.rd.toNat = (q.rd.toNat + 1) % q.cap.toNat ∧ q'.cnt.toNat + 1 = q.cnt.toNat

/-- The actions of `TxWrite(i, f)` (R206, R207). -/
def txActions (m : Mode) (payload : BitVec 2) (i : Nat) (f : Frame) : List Action :=
  match m with
  | .classic => [.mbWriteTx i (packCs f) (packIdw f) [portWord f 0, portWord f 1]]
  | .fd =>
    [.mbWriteTx i (packCs f) (packIdw f) ((List.range (payloadBytes payload / 4)).map (portWord f)),
     .mbSetInactive 0, .mbSetInactive 0]

/-- The first claimable mailbox of a scan and the port after the codes read, each mailbox up to the claimed one read
once (R194). -/
def scanMailboxes : List Nat → Port → Option Nat × Port
  | [], p => (none, p)
  | i :: rest, p =>
    let c := portMbCode i p
    if c.1 = .txpend then scanMailboxes rest c.2 else (some i, c.2)

/-- What a running send does in mode `m` (R193, R194) with frame `f`, the scan range of a remote frame and the dedicated
mailbox `mb`. -/
def SendEffect (m : Mode) (payload : BitVec 2) (f : Frame) (scan : List Nat) (mb : Nat) (s : State)
    (r : Host.Outcome State Fault Refusal) : Prop :=
  (f.kind = .remote →
    match scanMailboxes scan s.port with
    | (some i, p) =>
      r = .next { s with err := .none, r0 := 0, port := p, out := s.out ++ txActions m payload i f }
    | (none, p) => r = .next { s with err := .none, r0 := 0x02, port := p })
  ∧ (f.kind ≠ .remote →
    ((portMbCode mb s.port).1 = .inactive ∧ s.txq.cnt = 0 →
      r = .next { s with
        err := .none, r0 := 0, port := (portMbCode mb s.port).2, out := s.out ++ txActions m payload mb f })
    ∧ (¬ ((portMbCode mb s.port).1 = .inactive ∧ s.txq.cnt = 0) →
      (s.txq.cnt = s.txq.cap → r = .next { s with err := .none, r0 := 0x01, port := (portMbCode mb s.port).2 })
      ∧ (s.txq.cnt ≠ s.txq.cap → RingWf s.txq →
        ∃ q, r = .next { s with err := .none, r0 := 0, port := (portMbCode mb s.port).2, txq := q }
          ∧ Enqueued s.txq q f)))

/-- A frame register file holds the frame `f` (R40, R41). -/
def Holds (t : FrameFile) (f : Frame) : Prop :=
  t.id = f.id ∧ t.ext = f.ext ∧ t.kind = f.kind ∧ t.len = f.len ∧ t.idx = f.idx
    ∧ ∀ j : Fin 64, payloadByte t j = f.data[j]

/-- What RECV or RECVFD of mode `m` answers (R200, R201). -/
def RecvEffect (m : Mode) (s : State) (r : Host.Outcome State Fault Refusal) : Prop :=
  ((s.life ≠ .running ∨ s.mode ≠ m) → r = .next { s with err := .none, r0 := 0 })
  ∧ (s.life = .running → s.mode = m → RingWf s.rxq →
    match queued s.rxq with
    | [] => r = .next { s with err := .none, r0 := 0 }
    | f :: _ => ∃ q x, r = .next { s with err := .none, r0 := 1, rxq := q, rxf := x } ∧ Dequeued s.rxq q ∧ Holds x f)

/-- The callback of a frame (R204). -/
def callbackFor (s : State) (f : Frame) : Word := if f.idx.toNat < s.ncb then readCallback s.cbt f.idx.toNat else 0

/-- What DISPATCH or DISPATCHFD of mode `m` answers (R202, R203). -/
def DispatchEffect (m : Mode) (notify : Bool) (s : State) (r : Host.Outcome State Fault Refusal) : Prop :=
  ((s.life ≠ .running ∨ s.mode ≠ m) → r = .next { s with err := .none, r0 := 0, r1 := 0 })
  ∧ (s.life = .running → s.mode = m → RingWf s.rxq →
    match queued s.rxq with
    | [] => r = .next { s with err := .none, r0 := 0, r1 := 0 }
    | f :: _ =>
      ∃ q x, r = .next { s with
          err := .none, r0 := 1, r1 := callbackFor s f, rxq := q, rxf := x
          out := s.out ++ (if notify then [.matchNotify f.idx] else [])
            ++ (if callbackFor s f = 0 then [] else [.callbackInvoke (callbackFor s f) f]) }
        ∧ Dequeued s.rxq q ∧ Holds x f)

/-- What the transmit drain on mailbox `mb` emits (R216). -/
def drainActions (s : State) (mb : Nat) : List Action :=
  match queued s.txq with
  | [] => [.mbSetInactive mb]
  | g :: _ => txActions s.mode s.act.payload mb g

/-- The transmit ring after a drain (R216). -/
def Drained (q q' : Ring) : Prop := (q.cnt = 0 ∧ q' = q) ∨ (q.cnt ≠ 0 ∧ Dequeued q q')

/-- The frames ISRFD reads from the receive mailboxes of a list, in that order, each with its index, and the port after
the reads (R218). -/
def readMailboxes (payload : BitVec 2) : List Nat → Port → List Frame × Port
  | [], p => ([], p)
  | i :: rest, p =>
    let a := portMbFrame i p
    let f := unpack .fd a.1.cs a.1.idw (a.1.dw.toList.take (payloadBytes payload / 4))
    let r := readMailboxes payload rest a.2
    ({ f with idx := BitVec.ofNat 8 (i - 1) } :: r.1, r.2)

/-- Push frames one after the other; `none` when one of them finds the ring full (R66). -/
def pushAll : Ring → List Frame → Option Ring
  | q, [] => some q
  | q, f :: rest =>
    match qPush q f with
    | none => none
    | some q' => pushAll q' rest

/-- Pop `n` frames, oldest first; `none` when the ring is empty before that (R67). -/
def popAll : Nat → Ring → Option (List Frame × Ring)
  | 0, q => some ([], q)
  | n + 1, q =>
    match qPop q with
    | none => none
    | some (f, q') =>
      match popAll n q' with
      | none => none
      | some (fs, q'') => some (f :: fs, q'')

/-- The pair in slot `k` after a classic configuration (R177). -/
def classicSlot (s : State) (k : Nat) : FilterPair :=
  let pair (e : FilterEntry) : FilterPair := { mw := e.mw, aw := e.aw }
  let fill : FilterPair :=
    if 0 < s.np.toNat then pair (readFilter s.sp 0)
    else if 0 < s.ns.toNat then pair (readFilter s.ss 0)
    else { mw := 0, aw := 0 }
  if k < s.par.nPrimaryMax then (if k < s.np.toNat then pair (readFilter s.sp k) else fill)
  else if k - s.par.nPrimaryMax < s.ns.toNat then pair (readFilter s.ss (k - s.par.nPrimaryMax))
  else fill

/-- Callback reference `i` after a classic configuration (R177). -/
def classicCallback (s : State) (i : Nat) : Word :=
  if i < s.np.toNat then (readFilter s.sp i).cb else (readFilter s.ss (i - s.np.toNat)).cb

/-- The pair in slot `k` after an FD configuration (R177). -/
def fdSlot (s : State) (k : Nat) : FilterPair :=
  let pair (e : FilterEntry) : FilterPair := { mw := e.mw, aw := e.aw }
  if k < s.nf.toNat then pair (readFilter s.sf k)
  else if 0 < s.nf.toNat then pair (readFilter s.sf 0)
  else { mw := 0, aw := 0 }

/-- A ring just created with capacity `cap` (R69). -/
def FreshRing (q : Ring) (cap : BitVec 16) : Prop := q.cap = cap ∧ q.rd = 0 ∧ q.cnt = 0 ∧ q.peak = 0

end Sys2Proof.Machine

section Slice0

open Sys2Proof Sys2Proof.Machine

/-! ## Encoding and issue -/

/-- R100 to R103: the words the decoder reads as an operation are exactly the words that encode it, whatever the operands;
every command has a word and the two handler operations have none. -/
def Obligations.DecodeInvertsEncode : Prop :=
  (∀ (w : Word) (i : Instr), decode w = .ok i ↔ encode i = some w)
  ∧ ∀ i : Instr, (encode i).isSome = i.isCommand

/-- R104 for the reserved opcodes, R102 and R103 step (2) for the must-be-zero immediate bits: a word with either is
refused and changes nothing else of the block; every other word is a command. The step also takes the write from the
moves still to come, which is the model's (log entry 1). -/
def Obligations.IllegalWordsRefused : Prop :=
  (∀ w : Word, (∃ i, decode w = .ok i) ↔ ¬ illegalWord w)
  ∧ ∀ (s : State) (w : Word) (rest : List Input),
      illegalWord w → s.busy = false → s.inputs = commandWrite s.par w :: rest →
        step s = .next { s with inputs := rest, err := .illegalCommand }

/-- R101, R102, R156, R182, R202: some command words and what they stand for. -/
def Obligations.CommandWordSamples : Prop :=
  decode 0x00000000 = .ok .nop ∧ decode 0x00000010 = .ok .solve ∧ decode 0x00000019 = .ok .dsample
  ∧ decode 0x00000020 = .ok (.encp .data .std) ∧ decode 0x00000120 = .ok (.encp .remote .std)
  ∧ decode 0x00000220 = .ok (.encp .data .ext) ∧ decode 0x00000320 = .ok (.encp .remote .ext)
  ∧ decode 0x00000023 = .ok .encany ∧ decode 0x00000030 = .ok .beginCmd
  ∧ decode 0x00000E33 = .ok (.gsclr 0xE) ∧ decode 0x00000833 = .ok (.gsclr 0x8)
  ∧ decode 0x00000041 = .ok .sendFd ∧ decode 0x00000044 = .ok (.dispatch false)
  ∧ decode 0x00000144 = .ok (.dispatch true)

/-- R26, R103: a command word written to `CMD` while `BUSY = 0` runs the command it encodes; the step around it only takes
the write from the moves still to come (log entry 1). `CMD` holds no value: it reads 0 in every state. -/
def Obligations.StepIssuesCommand : Prop :=
  (∀ (s : State) (w : Word) (i : Instr) (rest : List Input),
    s.busy = false → s.inputs = commandWrite s.par w :: rest → decode w = .ok i →
      step s = exec i { s with inputs := rest })
  ∧ ∀ s : State, readReg .cmd s = 0

/-- R208, R212, R243: a turn of the interrupt agent while `RUNNING` is one handler run, chosen by `MODE`. Outside
`RUNNING` the agent has no step: that its turn then passes without effect is the model's choice (log entry 4). -/
def Obligations.StepRunsHandler : Prop :=
  ∀ (s : State) (rest : List Input), s.inputs = .irq :: rest →
    (s.life = .running → s.mode = .classic → step s = exec .isrc { s with inputs := rest })
    ∧ (s.life = .running → s.mode = .fd → step s = exec .isrFd { s with inputs := rest })
    ∧ (s.life ≠ .running → step s = .next { s with inputs := rest })

/-- R63, R103, R171, R278: while `BUSY = 1` every host write, at any address and of any size, is ignored. -/
def Obligations.BusyIgnoresHostWrites : Prop :=
  ∀ (s : State) (addr size : Nat) (v : Word) (rest : List Input),
    s.busy = true → s.inputs = .busWrite addr size v :: rest → step s = .next { s with inputs := rest }

/-! ## Host registers -/

/-- R61: the register map. An access reaches a register exactly when it is a 4-byte access at that register's offset from
`SEA_BASE`; the offsets are aligned, inside the 0x200 bytes, and those of the table. -/
def Obligations.RegisterMap : Prop :=
  (∀ (p : Params) (addr size : Nat) (r : HostReg),
    busReg p addr size = some r ↔ size = 4 ∧ addr = p.seaBase + regOffset r)
  ∧ (∀ r : HostReg, regOffset r % 4 = 0 ∧ regOffset r < 0x200)
  ∧ [HostReg.cmd, .cmdstat, .gstat, .fcount, .a0, .a1, .a2, .a3, .a4, .actCfg, .r0, .r1].map regOffset
      = [0x000, 0x004, 0x008, 0x00C, 0x010, 0x014, 0x018, 0x01C, 0x020, 0x024, 0x028, 0x02C]
  ∧ [HostReg.tBrp, .tProp, .tPs1, .tPs2, .tRjw, .tFlags, .tRate, .tClk, .tDiv, .tFactor].map regOffset
      = [0x030, 0x034, 0x038, 0x03C, 0x040, 0x044, 0x048, 0x04C, 0x050, 0x054]
  ∧ [HostReg.tdProp, .tdPs1, .tdPs2, .tdRjw, .qCfg, .fdCfg, .pinCfg].map regOffset
      = [0x058, 0x05C, 0x060, 0x064, 0x070, 0x074, 0x078]
  ∧ [HostReg.rxqStat, .rxqPeak, .txqStat, .txqPeak, .txfId, .txfCtl, .rxfId, .rxfCtl].map regOffset
      = [0x080, 0x084, 0x088, 0x08C, 0x100, 0x104, 0x180, 0x184]
  ∧ ∀ k : Fin 16, regOffset (.txfD k) = 0x108 + 4 * k.val ∧ regOffset (.rxfD k) = 0x188 + 4 * k.val

/-- R63: a host write while `BUSY = 0` to a register other than `CMD` stores the value cut to the register's defined bits
if it is read-write, each field taking the bits the register's table gives it, and is ignored otherwise; every other
register reads as before, and nothing that is not a read-write register changes. -/
def Obligations.RegisterWriteReadBack : Prop :=
  ∀ (s : State) (r : HostReg) (v : Word) (rest : List Input),
    s.busy = false → r ≠ .cmd → s.inputs = .busWrite (s.par.seaBase + regOffset r) 4 v :: rest →
      ∃ t, step s = .next t
        ∧ (match definedBits r with
           | some m => readReg r t = v &&& m ∧ ShowsFields r t (v &&& m)
           | none => t = { s with inputs := rest })
        ∧ (∀ r', r' ≠ r → readReg r' t = readReg r' s)
        ∧ t = { s with
            inputs := rest, a0 := t.a0, a1 := t.a1, a2 := t.a2, a3 := t.a3, a4 := t.a4, timing := t.timing
            rxcap := t.rxcap, txcap := t.txcap, fdPayload := t.fdPayload, fdRxmb := t.fdRxmb
            txpin := t.txpin, rxpin := t.rxpin, txf := t.txf }

/-- R62, R63: a host read returns the register's word and changes nothing of the block, in every state; the word has each
field where the register's table puts it and 0 in every other bit (R26 to R31, R36 to R41); an access that is not a
4-byte access at a listed offset changes nothing and reads 0 (of the two readings R62 allows, the one the model takes,
log entry 6). -/
def Obligations.HostReadsAndBadAccesses : Prop :=
  (∀ (s : State) (r : HostReg) (rest : List Input),
    s.inputs = .busRead (s.par.seaBase + regOffset r) 4 :: rest →
      step s = .next { s with inputs := rest, busData := readReg r s })
  ∧ (∀ (s : State) (r : HostReg), ShowsFields r s (readReg r s))
  ∧ ∀ (s : State) (addr size : Nat) (v : Word) (rest : List Input),
      (∀ r : HostReg, ¬ (size = 4 ∧ addr = s.par.seaBase + regOffset r)) →
        (s.inputs = .busWrite addr size v :: rest → step s = .next { s with inputs := rest })
        ∧ (s.inputs = .busRead addr size :: rest → step s = .next { s with inputs := rest, busData := 0 })

/-! ## Reset and the whole machine -/

/-- R51, R261: after reset every register reads 0, the rings have no capacity and no entries, the staging lists, the
active tables and `OUT` are empty; CHECK answers `0x155`, and BEGIN straight after reset fails with bit 25 among
others. -/
def Obligations.ResetValues : Prop :=
  ∀ p : Params,
    (∀ r : HostReg, readReg r (State.resetWith p) = 0)
    ∧ (State.resetWith p).rxq.rd = 0 ∧ (State.resetWith p).txq.rd = 0
    ∧ (State.resetWith p).rxq.mem = [] ∧ (State.resetWith p).txq.mem = []
    ∧ (State.resetWith p).sp = [] ∧ (State.resetWith p).ss = [] ∧ (State.resetWith p).sf = []
    ∧ (State.resetWith p).nslot = 0 ∧ (State.resetWith p).slot = []
    ∧ (State.resetWith p).ncb = 0 ∧ (State.resetWith p).cbt = [] ∧ (State.resetWith p).out = []
    ∧ (∃ t, exec .check (State.resetWith p) = .next t ∧ t.r0 = 0x155)
    ∧ ∃ t, exec .beginCmd (State.resetWith p) = .next t ∧ t.r0.getLsbD 25 = true ∧ t.life = .uninit

/-- R260 to R262: the platform's reset in any state leaves the reset state and emits nothing. That the parameters, the
moves still to come and the port answers stay is the model's choice (log entry 11). -/
def Obligations.PlatformReset : Prop :=
  ∀ (s : State) (rest : List Input), s.inputs = .reset :: rest →
    step s = .next { State.resetWith s.par with inputs := rest, port := s.port }

/-- R43, R45, R47, R48, R171, R179: the reset state of an instance with legal parameters is a good state. -/
def Obligations.ResetMeetsInv : Prop := ∀ p : Params, p.wf = true → Inv (State.resetWith p)

/-- R28, R43, R45, R47, R48, R171, R179, R220: every step of the block, whatever move the outside makes and whatever the
port answers, takes a good state to a good state: rings within their capacity, frames in normal form, `BUSY` exactly
while `CONFIGURING`, no init error while `RUNNING`, no active configuration in `UNINIT`, tables complete and without
soft errors while one is active. -/
def Obligations.StepKeepsInv : Prop := ∀ s t : State, Inv s → step s = .next t → Inv t

/-- The same of every state a run reaches, with any inputs and port answers put in before each step: it is good, and a
set `INIT_ERROR` excludes `RUNNING` (R28). -/
def Obligations.ReachableStatesAreGood : Prop :=
  ∀ s : State, Reachable s → Inv s ∧ (s.gstat.getLsbD 0 = true → s.life ≠ .running)

/-- R96, R244 and file 60: nothing traps; every step of the block answers a next state, no fault and no refusal. -/
def Obligations.StepAlwaysAnswers : Prop := ∀ s : State, ∃ t, step s = .next t

/-- R230, R232, R234: every command ends with the refusal code the table gives it, and a refused one has changed nothing
but `CMDSTAT.ERR`. The handler operations have no refusal and leave `ERR` as it is. -/
def Obligations.RefusalTable : Prop :=
  ∀ (i : Instr) (s : State), ∃ t, exec i s = .next t ∧ refusalCode i s t.err
    ∧ (i.isCommand = true → t.err ≠ .none → t = { s with err := t.err })

/-- R21, R25, R31, R46 to R48, R98, R211: which operation may change which state. No operation writes an argument
register, `TXF`, a configuration register, the active tables or `ACT_CFG`; only SOLVE and SOLVEFD write timing
registers, only FPUSHP, FPUSHS, FPUSHF and FCLEAR the staging lists, only RECV, RECVFD, DISPATCH, DISPATCHFD the
register file `RXF`, only BEGIN, BEGINFD and END the life cycle; the handler operations touch only the rings, `GSTAT`
bits 1 to 3 and `OUT`. -/
def Obligations.WritersOfEachState : Prop :=
  ∀ (i : Instr) (s t : State), exec i s = .next t →
    (t.a0 = s.a0 ∧ t.a1 = s.a1 ∧ t.a2 = s.a2 ∧ t.a3 = s.a3 ∧ t.a4 = s.a4 ∧ t.txf = s.txf
      ∧ t.rxcap = s.rxcap ∧ t.txcap = s.txcap ∧ t.fdPayload = s.fdPayload ∧ t.fdRxmb = s.fdRxmb
      ∧ t.txpin = s.txpin ∧ t.rxpin = s.rxpin ∧ t.nslot = s.nslot ∧ t.slot = s.slot ∧ t.ncb = s.ncb
      ∧ t.cbt = s.cbt ∧ t.act = s.act ∧ t.par = s.par ∧ t.inputs = s.inputs ∧ t.busData = s.busData)
    ∧ (i ≠ .solve → i ≠ .solveFd → t.timing = s.timing)
    ∧ (i ≠ .fpushp → i ≠ .fclear → t.np = s.np ∧ t.sp = s.sp)
    ∧ (i ≠ .fpushs → i ≠ .fclear → t.ns = s.ns ∧ t.ss = s.ss)
    ∧ (i ≠ .fpushf → i ≠ .fclear → t.nf = s.nf ∧ t.sf = s.sf)
    ∧ ((∀ n, i ≠ .dispatch n) → (∀ n, i ≠ .dispatchFd n) → i ≠ .recv → i ≠ .recvFd → t.rxf = s.rxf)
    ∧ (i ≠ .beginCmd → i ≠ .beginFd → i ≠ .endCmd →
        t.life = s.life ∧ t.mode = s.mode ∧ t.busy = s.busy ∧ t.waitpt = s.waitpt
          ∧ t.gstat.getLsbD 0 = s.gstat.getLsbD 0)
    ∧ (i.isCommand = false →
        t = { s with gstat := t.gstat, rxq := t.rxq, txq := t.txq, out := t.out, port := t.port })

/-- R77: nothing is ever removed from `OUT` or reordered, except by reset, which empties it (R261). -/
def Obligations.OutOnlyGrows : Prop :=
  ∀ (s t : State) (e : Input) (rest : List Input),
    s.inputs = e :: rest → e ≠ .reset → step s = .next t → ∃ l, t.out = s.out ++ l

/-- R171: the life cycle moves only as the table says, or by reset. -/
def Obligations.LifeTransitions : Prop :=
  ∀ (s t : State) (e : Input) (rest : List Input),
    LifeInv s → s.inputs = e :: rest → step s = .next t →
      (t.life = s.life ∧ t.waitpt = s.waitpt)
      ∨ ((e = commandWrite s.par 0x30 ∨ e = commandWrite s.par 0x31) ∧ s.life = .uninit ∧ t.r0 = 0
          ∧ t.life = .configuring ∧ t.waitpt = .beginFrozen)
      ∨ (e = .ack .frozen ∧ s.life = .configuring ∧ s.waitpt = .beginFrozen
          ∧ t.life = .configuring ∧ t.waitpt = .beginUnfrozen)
      ∨ (e = .ack .unfrozen ∧ s.life = .configuring ∧ s.waitpt = .beginUnfrozen
          ∧ t.life = .running ∧ t.waitpt = .none)
      ∨ (e = commandWrite s.par 0x32 ∧ s.life = .running ∧ t.life = .configuring ∧ t.waitpt = .endFrozen)
      ∨ (e = .ack .frozen ∧ s.life = .configuring ∧ s.waitpt = .endFrozen ∧ t.life = .uninit ∧ t.waitpt = .none)
      ∨ (e = .reset ∧ t.life = .uninit ∧ t.waitpt = .none)

/-- R171: an acknowledgement that `WAITPT` does not expect is ignored. -/
def Obligations.UnexpectedAckIgnored : Prop :=
  ∀ (s : State) (rest : List Input),
    (s.inputs = .ack .frozen :: rest → s.waitpt ≠ .beginFrozen → s.waitpt ≠ .endFrozen →
      step s = .next { s with inputs := rest })
    ∧ (s.inputs = .ack .unfrozen :: rest → s.waitpt ≠ .beginUnfrozen → step s = .next { s with inputs := rest })

/-- R2, R99, R250: a step of one instance of a system is that instance's own step and leaves the other two as they
are. -/
def Obligations.InstancesIndependent : Prop :=
  ∀ (k : Fin Config.nInstances) (sys : System), ∃ sys', systemStep k sys = .next sys'
    ∧ step sys[k] = .next sys'[k] ∧ ∀ j : Fin Config.nInstances, j ≠ k → sys'[j] = sys[j]

/-! ## The bit-timing solver -/

/-- R121: the pair `Search` returns has the least error of all pairs in range, and among pairs of that error the largest
time-quantum count and for it the smallest prescaler, unless the wished rate is below the slowest the clock can
give. -/
def Obligations.SearchLeastError : Prop :=
  ∀ b f d tqMax pMax : Nat, 1 ≤ b → 1 ≤ f → 1 ≤ d → 5 ≤ tqMax → 1 ≤ pMax → f / (b * tqMax * d) ≤ pMax →
    ∀ p tq : Nat, 1 ≤ p → p ≤ pMax → 5 ≤ tq → tq ≤ tqMax →
      let r := search b f d tqMax pMax
      let best := ((f : Int) - (b * r.2 * r.1 * d : Nat)).natAbs
      let e := ((f : Int) - (b * tq * p * d : Nat)).natAbs
      best < e ∨ (best = e ∧ (tq < r.2 ∨ (tq = r.2 ∧ r.1 ≤ p)))

/-- R122: (a) the result is in range; (b) no count has a candidate exactly when the slowest setting is still too fast, and
then the result is that setting; (c) once a prescaler is too large for a count it is for every smaller one, and the
loop may stop there; (d) an exact pair with the largest count wins; (e) a rate too fast for every count gives
`(1, 5)`. -/
def Obligations.SearchProperties : Prop :=
  ∀ b f d tqMax pMax : Nat, 1 ≤ b → 1 ≤ f → 1 ≤ d → 5 ≤ tqMax → 1 ≤ pMax →
    (1 ≤ (search b f d tqMax pMax).1 ∧ (search b f d tqMax pMax).1 ≤ pMax
      ∧ 5 ≤ (search b f d tqMax pMax).2 ∧ (search b f d tqMax pMax).2 ≤ tqMax)
    ∧ ((∀ tq, 5 ≤ tq → tq ≤ tqMax → pMax < f / (b * tq * d)) ↔ pMax < f / (b * tqMax * d))
    ∧ (pMax < f / (b * tqMax * d) → search b f d tqMax pMax = (pMax, tqMax))
    ∧ (∀ tq, 5 ≤ tq → tq ≤ tqMax → pMax < f / (b * tq * d) →
        (∀ tq', 1 ≤ tq' → tq' ≤ tq → pMax < f / (b * tq' * d))
        ∧ ∀ best, searchDown b f d pMax (tq + 1 - 5) best = best)
    ∧ (∀ p tq, 1 ≤ p → p ≤ pMax → 5 ≤ tq → tq ≤ tqMax → b * tq * p * d = f →
        b * (search b f d tqMax pMax).2 * (search b f d tqMax pMax).1 * d = f
          ∧ tq ≤ (search b f d tqMax pMax).2)
    ∧ (f < b * 5 * d → search b f d tqMax pMax = (1, 5))

/-- R123: the three fractions; the segments add up to the bit; and they stay within the bounds of R131 for every count the
solver can pass, in classic mode and in both phases of FD mode. -/
def Obligations.ApportionLaw : Prop :=
  ∀ tq : Nat, 5 ≤ tq →
    let c := apportion tq 8 8
    let a := apportion tq 32 32
    (∀ ps2Max ps1Max : Nat,
      let g := apportion tq ps2Max ps1Max
      g.2.2 = min ps2Max (1 + 2 * tq / 7) ∧ g.2.1 = min ps1Max ((tq - 1 - g.2.2) / 2)
        ∧ 1 + g.1 + g.2.1 + g.2.2 = tq)
    ∧ (tq ≤ 48 → 1 + c.1 + c.2.1 + c.2.2 = tq ∧ 1 ≤ c.1 ∧ c.1 ≤ 31 ∧ 1 ≤ c.2.1 ∧ c.2.1 ≤ 8 ∧ 2 ≤ c.2.2 ∧ c.2.2 ≤ 8)
    ∧ (tq ≤ 25 → c.1 ≤ 8)
    ∧ (tq ≤ 129 → 1 + a.1 + a.2.1 + a.2.2 = tq ∧ 1 ≤ a.1 ∧ a.1 ≤ 64 ∧ 1 ≤ a.2.1 ∧ a.2.1 ≤ 32
        ∧ 2 ≤ a.2.2 ∧ a.2.2 ≤ 32)

/-- R120, with R124, R125, R127, R130: SOLVE refuses the operands of R130 and on others writes the timing registers of the
search's pair, the classic flags and the pass flag in `R0`, and nothing else. -/
def Obligations.SolveResult : Prop :=
  decode 0x00000010 = .ok .solve
  ∧ (∀ s : State, badSolveOperands s → exec .solve s = .next { s with err := .badOperand })
  ∧ ∀ s : State, ¬ badSolveOperands s →
    ∃ t, exec .solve s = .next { s with err := .none, r0 := oneIf t.bitok, timing := t }
      ∧ let r := search s.a0.toNat s.a1.toNat s.a2.toNat 25 256
        let g := apportion r.2 8 8
        let w := s.a0.toNat * r.2 * r.1 * s.a2.toNat
        t.brp.toNat = r.1 ∧ t.prop.toNat = g.1 ∧ t.ps1.toNat = g.2.1 ∧ t.ps2.toNat = g.2.2
        ∧ t.rjw.toNat = min g.2.2 4 ∧ t.rate = s.a0 ∧ t.clk = s.a1 ∧ t.div.toNat = s.a2.toNat ∧ t.factor = 1
        ∧ t.dprop = 0 ∧ t.dps1 = 0 ∧ t.dps2 = 0 ∧ t.drjw = 0 ∧ t.fd = false
        ∧ (t.triple = true ↔ s.a1.toNat / (s.a2.toNat * r.1 * r.2) ≤ 125000 ∧ 2 ≤ g.2.1)
        ∧ (t.bitok = true ↔ ((s.a1.toNat : Int) - (w : Nat)).natAbs * 1000000 ≤ w * s.a3.toNat)

/-- R126, with R124, R125, R127, R128, R130: SOLVEFD refuses the operands of R130 and on others searches the data-phase
rate, apportions both phases, and writes the timing registers, the FD flags and the pass flag in `R0`, and nothing
else. -/
def Obligations.SolveFdResult : Prop :=
  decode 0x00000011 = .ok .solveFd
  ∧ (∀ s : State, badSolveOperands s ∨ s.a4 = 0 ∨ 8 < s.a4.toNat →
      exec .solveFd s = .next { s with err := .badOperand })
  ∧ ∀ s : State, ¬ (badSolveOperands s ∨ s.a4 = 0 ∨ 8 < s.a4.toNat) →
    ∃ t, exec .solveFd s = .next { s with err := .none, r0 := oneIf t.bitok, timing := t }
      ∧ let k := s.a4.toNat
        let r := search (s.a0.toNat * k) s.a1.toNat s.a2.toNat (min 48 (129 / k)) 1024
        let gd := apportion r.2 8 8
        let ga := apportion (r.2 * k) 32 32
        let w := s.a0.toNat * k * r.2 * r.1 * s.a2.toNat
        t.brp.toNat = r.1
        ∧ t.prop.toNat = ga.1 ∧ t.ps1.toNat = ga.2.1 ∧ t.ps2.toNat = ga.2.2 ∧ t.rjw.toNat = min ga.2.2 32
        ∧ t.dprop.toNat = gd.1 ∧ t.dps1.toNat = gd.2.1 ∧ t.dps2.toNat = gd.2.2 ∧ t.drjw.toNat = min gd.2.2 8
        ∧ t.rate = s.a0 ∧ t.clk = s.a1 ∧ t.div.toNat = s.a2.toNat ∧ t.factor.toNat = k ∧ t.fd = true
        ∧ (t.triple = true ↔ s.a1.toNat / (s.a2.toNat * r.1 * (r.2 * k)) ≤ 125000 ∧ 2 ≤ ga.2.1)
        ∧ (t.bitok = true ↔ ((s.a1.toNat : Int) - (w : Nat)).natAbs * 1000000 ≤ w * s.a3.toNat)

/-- R129 (a) to (e): after an accepted SOLVE or SOLVEFD the prescaler is in range, `1 <= RJW <= PS2` holds in each phase,
triple sampling implies `PS1 >= 2`, and a CHECK issued directly after answers 0: every segment is within the bounds
of R131. -/
def Obligations.SolveThenCheckIsZero : Prop :=
  (∀ s t : State, ¬ badSolveOperands s → exec .solve s = .next t →
    1 ≤ t.timing.brp.toNat ∧ t.timing.brp.toNat ≤ 256
    ∧ 1 ≤ t.timing.rjw.toNat ∧ t.timing.rjw.toNat ≤ t.timing.ps2.toNat
    ∧ (t.timing.triple = true → 2 ≤ t.timing.ps1.toNat)
    ∧ exec .check t = .next { t with r0 := 0 })
  ∧ ∀ s t : State, ¬ (badSolveOperands s ∨ s.a4 = 0 ∨ 8 < s.a4.toNat) → exec .solveFd s = .next t →
    1 ≤ t.timing.brp.toNat ∧ t.timing.brp.toNat ≤ 1024
    ∧ 1 ≤ t.timing.rjw.toNat ∧ t.timing.rjw.toNat ≤ t.timing.ps2.toNat
    ∧ 1 ≤ t.timing.drjw.toNat ∧ t.timing.drjw.toNat ≤ t.timing.dps2.toNat
    ∧ (t.timing.triple = true → 2 ≤ t.timing.ps1.toNat)
    ∧ exec .check t = .next { t with r0 := 0 }

/-- R127, R137: directly after an accepted SOLVE or SOLVEFD, PPM is accepted; `BITOK = 1` implies that it returns a value at
most the tolerance, and a value below the tolerance implies `BITOK = 1`. At the tolerance itself `BITOK` can be 0, since
R137 rounds down and R127 does not: the last clause gives such a SOLVE. There R129 (f) and R142, which say "exactly
when", do not follow from the two rules (log entry 24). -/
def Obligations.ToleranceLaw : Prop :=
  (∀ s t : State,
    ((¬ badSolveOperands s ∧ exec .solve s = .next t)
      ∨ (¬ (badSolveOperands s ∨ s.a4 = 0 ∨ 8 < s.a4.toNat) ∧ exec .solveFd s = .next t)) →
      ∃ v, exec .ppm t = .next { t with r0 := v }
        ∧ (t.timing.bitok = true → v.toNat ≤ s.a3.toNat) ∧ (v.toNat < s.a3.toNat → t.timing.bitok = true))
  ∧ ∃ s t : State, ¬ badSolveOperands s ∧ exec .solve s = .next t ∧ t.timing.bitok = false
      ∧ ∃ u, exec .ppm t = .next u ∧ u.r0 = s.a3

/-- R132 to R134: CHECK puts the consistency word of the configuration's kind in `R0`, each bit set exactly on its
condition, and changes nothing else. -/
def Obligations.CheckResult : Prop :=
  decode 0x00000012 = .ok .check
  ∧ ∀ s : State, ∃ v, exec .check s = .next { s with err := .none, r0 := v }
    ∧ (s.timing.fd = false → ∀ n, v.getLsbD n = true ↔ classicBit s.timing n)
    ∧ (s.timing.fd = true → ∀ n, v.getLsbD n = true ↔ fdBit s.timing n)

/-- R135 to R138: what ACTUAL, EXACT, PPM and SAMPLE put in `R0`, and when ACTUAL and PPM are refused. -/
def Obligations.QueryResults : Prop :=
  (decode 0x00000013 = .ok .actual ∧ decode 0x00000014 = .ok .exact ∧ decode 0x00000015 = .ok .ppm
    ∧ decode 0x00000016 = .ok .sample)
  ∧ ∀ s : State,
    let t := s.timing
    let tq := 1 + t.prop.toNat + t.ps1.toNat + t.ps2.toNat
    let w := t.rate.toNat * tq * t.brp.toNat * t.div.toNat
    (t.div = 0 ∨ t.brp = 0 → exec .actual s = .next { s with err := .badOperand })
    ∧ (t.div ≠ 0 → t.brp ≠ 0 → ∃ v, exec .actual s = .next { s with err := .none, r0 := v }
        ∧ v.toNat = t.clk.toNat / (t.div.toNat * t.brp.toNat * tq))
    ∧ exec .exact s = .next { s with err := .none, r0 := oneIf (decide (t.clk.toNat = w)) }
    ∧ (w = 0 → exec .ppm s = .next { s with err := .badOperand })
    ∧ (w ≠ 0 → ∃ v, exec .ppm s = .next { s with err := .none, r0 := v }
        ∧ v.toNat = min (((t.clk.toNat : Int) - (w : Nat)).natAbs * 1000000 / w) 0xFFFFFFFF)
    ∧ ∃ v, exec .sample s = .next { s with err := .none, r0 := v }
        ∧ v.toNat = 100 * (1 + t.prop.toNat + t.ps1.toNat - (if t.triple then 1 else 0)) / tq

/-- R139 to R141: what DACTUAL, DEXACT and DSAMPLE put in `R0`, and when they are refused. -/
def Obligations.DataQueryResults : Prop :=
  (decode 0x00000017 = .ok .dactual ∧ decode 0x00000018 = .ok .dexact ∧ decode 0x00000019 = .ok .dsample)
  ∧ ∀ s : State,
    let t := s.timing
    let tq := 1 + t.dprop.toNat + t.dps1.toNat + t.dps2.toNat
    (t.fd = false ∨ t.div = 0 ∨ t.brp = 0 → exec .dactual s = .next { s with err := .badOperand })
    ∧ (t.fd = true → t.div ≠ 0 → t.brp ≠ 0 → ∃ v, exec .dactual s = .next { s with err := .none, r0 := v }
        ∧ v.toNat = t.clk.toNat / (t.div.toNat * t.brp.toNat * tq))
    ∧ (t.fd = false → exec .dexact s = .next { s with err := .badOperand }
        ∧ exec .dsample s = .next { s with err := .badOperand })
    ∧ (t.fd = true →
        exec .dexact s = .next { s with
          err := .none
          r0 := oneIf (decide
            (t.clk.toNat = t.rate.toNat * t.factor.toNat * tq * t.brp.toNat * t.div.toNat)) })
    ∧ (t.fd = true → ∃ v, exec .dsample s = .next { s with err := .none, r0 := v }
        ∧ v.toNat = 100 * (1 + t.dprop.toNat + t.dps1.toNat) / tq)

/-! ## The filter-mask encoder -/

/-- R151 to R158: ENCP, ENCS and ENCF put the mask word and the acceptance word of the specification in `A0` and `A1` in
`R0` and `R1`, bit by bit as the tables say, and change nothing else. -/
def Obligations.EncodeResult : Prop :=
  (∀ (kind : FilterKind) (fmt : Format),
    let imm : Word := bitAt (kind == .remote) 8 ||| bitAt (fmt == .ext) 9
    decode (0x20 ||| imm) = .ok (.encp kind fmt) ∧ decode (0x21 ||| imm) = .ok (.encs kind fmt)
      ∧ decode (0x22 ||| imm) = .ok (.encf kind fmt))
  ∧ ∀ (s : State) (kind : FilterKind) (fmt : Format),
    (∃ p, exec (.encp kind fmt) s = .next { s with err := .none, r0 := p.mw, r1 := p.aw }
      ∧ exec (.encs kind fmt) s = .next { s with err := .none, r0 := p.mw, r1 := p.aw }
      ∧ EncodedPair kind fmt s.a0 s.a1 19 p)
    ∧ (1 ≤ s.par.fdShiftStd → s.par.fdShiftStd ≤ 19 →
      ∃ p, exec (.encf kind fmt) s = .next { s with err := .none, r0 := p.mw, r1 := p.aw }
        ∧ EncodedPair kind fmt s.a0 s.a1 s.par.fdShiftStd p)

/-- R164: an encoded pair has its acceptance bits inside its mask bits exactly when its soft error flag is 0. -/
def Obligations.EncodedSubset : Prop :=
  ∀ (kind : FilterKind) (fmt : Format) (m a : Word) (sh : Nat), 1 ≤ sh → sh ≤ 19 →
    let p := encFilter kind fmt m a sh
    p.mw &&& p.aw = p.aw ↔ p.aw.getLsbD 0 = false

/-- R165: what an encoded filter without soft error accepts. -/
def Obligations.EncodedAccepts : Prop :=
  ∀ (kind : FilterKind) (fmt : Format) (m a : Word) (sh : Nat) (f : Frame), 1 ≤ sh → sh ≤ 19 →
    (encFilter kind fmt m a sh).aw.getLsbD 0 = false → idOk f = true →
      (filterMatch sh (encFilter kind fmt m a sh) f = true ↔
        (f.kind = .remote ↔ kind = .remote) ∧ f.ext = fmt ∧ f.id.setWidth 32 &&& m = a)

/-- R159: ENCANY puts the permissive pair in `R0` and `R1` and changes nothing else; every frame matches that pair. -/
def Obligations.EncanyResult : Prop :=
  decode 0x00000023 = .ok .encany
  ∧ (∀ s : State, exec .encany s = .next { s with err := .none, r0 := 0, r1 := 0 })
  ∧ ∀ (sh : Nat) (f : Frame), filterMatch sh { mw := 0, aw := 0 } f = true

/-- R29, R160 to R162: FPUSHP, FPUSHS and FPUSHF store the pair in `R0`, `R1` with the callback reference in `A2` at the
end of their list, count it, count and do not store it beyond the list's capacity, and change nothing else. -/
def Obligations.FpushResult : Prop :=
  (decode 0x00000024 = .ok .fpushp ∧ decode 0x00000025 = .ok .fpushs ∧ decode 0x00000026 = .ok .fpushf)
  ∧ ∀ s : State,
    let e : FilterEntry := { mw := s.r0, aw := s.r1, cb := s.a2 }
    (∃ n m, exec .fpushp s = .next { s with err := .none, np := n, sp := m }
      ∧ PushEffect s.par.nPrimaryMax e s.np n s.sp m)
    ∧ (∃ n m, exec .fpushs s = .next { s with err := .none, ns := n, ss := m }
      ∧ PushEffect s.par.nSecondaryMax e s.ns n s.ss m)
    ∧ ∃ n m, exec .fpushf s = .next { s with err := .none, nf := n, sf := m }
      ∧ PushEffect 64 e s.nf n s.sf m

/-- R163, R170: NOP changes nothing but the refusal code; FCLEAR sets the three staging counters to 0 and erases no
entry. -/
def Obligations.NopFclearResult : Prop :=
  (decode 0x00000000 = .ok .nop ∧ decode 0x00000027 = .ok .fclear)
  ∧ ∀ s : State, exec .nop s = .next { s with err := .none }
    ∧ exec .fclear s = .next { s with err := .none, np := 0, ns := 0, nf := 0 }

/-! ## The life cycle -/

/-- R182: GSCLR clears the selected flags but `INIT_ERROR`, and changes nothing else. -/
def Obligations.GsclrResult : Prop :=
  (∀ clr : BitVec 4, decode (0x33 ||| clr.setWidth 32 <<< 8) = .ok (.gsclr clr))
  ∧ ∀ (s : State) (clr : BitVec 4), ∃ g, exec (.gsclr clr) s = .next { s with err := .none, gstat := g }
    ∧ g.getLsbD 0 = s.gstat.getLsbD 0
    ∧ ∀ n, 1 ≤ n → n < 4 → g.getLsbD n = (s.gstat.getLsbD n && !clr.getLsbD n)

/-- R173, R174, R178: every bit of the configuration error word BEGIN or BEGINFD leaves in `R0`, and that both pins are
asked once, TX first. -/
def Obligations.ConfigErrorWord : Prop :=
  ∀ s : State, s.life = .uninit →
    (s.timing.fd = false → ∃ t, exec .beginCmd s = .next t ∧ t.port = (pinAnswers s).2.2
      ∧ ∀ n, n < 32 → (t.r0.getLsbD n = true ↔ beginBit s n))
    ∧ (s.timing.fd = true → ∃ t, exec .beginFd s = .next t ∧ t.port = (pinAnswers s).2.2
      ∧ ∀ n, n < 32 → (t.r0.getLsbD n = true ↔ beginFdBit s n))

/-- R175, R180, phase A: with a zero error word BEGIN and BEGINFD enter `CONFIGURING`, wait for `Frozen` and emit
`FreezeEnter`; with a non-zero one they record it in `R0`, set `INIT_ERROR` and do nothing else. -/
def Obligations.BeginPhaseA : Prop :=
  ∀ s : State, s.life = .uninit →
    (s.timing.fd = false →
      ((∀ n, n < 32 → ¬ beginBit s n) →
        exec .beginCmd s = .next { s with
          err := .none, r0 := 0, port := (pinAnswers s).2.2, mode := .classic, life := .configuring
          busy := true, waitpt := .beginFrozen, out := s.out ++ [.freezeEnter] })
      ∧ ((∃ n, n < 32 ∧ beginBit s n) →
        ∃ e, e ≠ 0 ∧ exec .beginCmd s = .next { s with
          err := .none, r0 := e, port := (pinAnswers s).2.2, gstat := s.gstat ||| 1 }))
    ∧ (s.timing.fd = true →
      ((∀ n, n < 32 → ¬ beginFdBit s n) →
        exec .beginFd s = .next { s with
          err := .none, r0 := 0, port := (pinAnswers s).2.2, mode := .fd, life := .configuring
          busy := true, waitpt := .beginFrozen, out := s.out ++ [.freezeEnter] })
      ∧ ((∃ n, n < 32 ∧ beginFdBit s n) →
        ∃ e, e ≠ 0 ∧ exec .beginFd s = .next { s with
          err := .none, r0 := e, port := (pinAnswers s).2.2, gstat := s.gstat ||| 1 }))

/-- R175 to R177, R183: a BEGIN whose validation finds nothing, followed by the two acknowledgements, leaves the instance
`RUNNING` in classic mode, with the rings created, the tables filled, `ACT_CFG` latched, `GSTAT` cleared, the actions
emitted in the order of the rule, and nothing else changed. -/
def Obligations.BeginRun : Prop :=
  ∀ (s : State) (rest : List Input),
    s.life = .uninit → s.busy = false → s.timing.fd = false → (∀ n, n < 32 → ¬ beginBit s n) →
    s.inputs = commandWrite s.par 0x30 :: .ack .frozen :: .ack .unfrozen :: rest →
      ∃ u v t, step s = .next u ∧ step u = .next v ∧ step v = .next t
        ∧ t = { s with
            err := .none, r0 := 0, port := (pinAnswers s).2.2, mode := .classic, life := .running, gstat := 0
            inputs := rest, rxq := t.rxq, txq := t.txq
            act := { np := s.np, ns := s.ns, nf := 0, payload := 0, rxmb := 0 }
            nslot := s.par.nPrimaryMax + s.par.nSecondaryMax, slot := t.slot
            ncb := s.np.toNat + s.ns.toNat, cbt := t.cbt, waitpt := .none
            out := s.out ++ [.freezeEnter, .configWrite (.classic
                { brp := s.timing.brp, prop := s.timing.prop, ps1 := s.timing.ps1, ps2 := s.timing.ps2
                  rjw := s.timing.rjw, triple := s.timing.triple
                  slots := (List.range (s.par.nPrimaryMax + s.par.nSecondaryMax)).map (classicSlot s)
                  txpin := s.txpin, rxpin := s.rxpin })]
              ++ (List.range' s.par.mbTxRemoteFirst (s.par.nMb - s.par.mbTxRemoteFirst)).map .mbSetInactive
              ++ [.irqInstall, .freezeExit, .irqEnable] }
        ∧ FreshRing t.rxq s.rxcap ∧ FreshRing t.txq s.txcap
        ∧ (∀ k, k < s.par.nPrimaryMax + s.par.nSecondaryMax → t.slot.read? k = some (classicSlot s k))
        ∧ ∀ i, i < s.np.toNat + s.ns.toNat → t.cbt.read? i = some (classicCallback s i)

/-- R176, R177, R180, R183: the same of BEGINFD, which reserves mailbox 0, arms the receive mailboxes with their filters
and marks the others inactive. -/
def Obligations.BeginFdRun : Prop :=
  ∀ (s : State) (rest : List Input),
    s.life = .uninit → s.busy = false → s.timing.fd = true → (∀ n, n < 32 → ¬ beginFdBit s n) → s.par.wf = true →
    s.inputs = commandWrite s.par 0x31 :: .ack .frozen :: .ack .unfrozen :: rest →
      ∃ u v t, step s = .next u ∧ step u = .next v ∧ step v = .next t
        ∧ t = { s with
            err := .none, r0 := 0, port := (pinAnswers s).2.2, mode := .fd, life := .running, gstat := 0
            inputs := rest, rxq := t.rxq, txq := t.txq, act := t.act
            nslot := s.fdRxmb.toNat, slot := t.slot, ncb := s.nf.toNat, cbt := t.cbt, waitpt := .none
            out := s.out ++ [.freezeEnter, .configWrite (.fd
                { brp := s.timing.brp, prop := s.timing.prop, ps1 := s.timing.ps1, ps2 := s.timing.ps2
                  rjw := s.timing.rjw, triple := s.timing.triple
                  slots := (List.range s.fdRxmb.toNat).map (fdSlot s)
                  txpin := s.txpin, rxpin := s.rxpin }
                { dprop := s.timing.dprop, dps1 := s.timing.dps1, dps2 := s.timing.dps2, drjw := s.timing.drjw
                  payload := s.fdPayload, rxmb := s.fdRxmb }), .mbSetInactive 0]
              ++ (List.range s.fdRxmb.toNat).map (fun k => .mbRearm (k + 1) (fdSlot s k).aw)
              ++ (List.range' (s.fdRxmb.toNat + 1)
                  (fdMbTotal s.par s.fdPayload - (s.fdRxmb.toNat + 1))).map .mbSetInactive
              ++ [.irqInstall, .freezeExit, .irqEnable] }
        ∧ t.act.np = 0 ∧ t.act.ns = 0 ∧ t.act.nf = s.nf ∧ t.act.payload = s.fdPayload
        ∧ t.act.rxmb.toNat = s.fdRxmb.toNat
        ∧ FreshRing t.rxq s.rxcap ∧ FreshRing t.txq s.txcap
        ∧ (∀ k, k < s.fdRxmb.toNat → t.slot.read? k = some (fdSlot s k))
        ∧ ∀ i, i < s.nf.toNat → t.cbt.read? i = some (readFilter s.sf i).cb

/-- R181: END outside `RUNNING` is refused; in `RUNNING` it disables the interrupt and freezes the controller; the acknowledgement destroys the rings,
empties the tables and returns to `UNINIT`; everything else, `GSTAT` and `MODE` included, keeps its value. -/
def Obligations.EndRun : Prop :=
  decode 0x00000032 = .ok .endCmd
  ∧ (∀ s : State, s.life ≠ .running → exec .endCmd s = .next { s with err := .badState })
  ∧ ∀ s : State, s.life = .running →
    exec .endCmd s = .next { s with
      err := .none, life := .configuring, busy := true, waitpt := .endFrozen
      out := s.out ++ [.irqDisable, .freezeEnter] }
    ∧ ∀ rest, s.busy = false → s.inputs = commandWrite s.par 0x32 :: .ack .frozen :: rest →
        ∃ u t, step s = .next u ∧ step u = .next t
          ∧ t = { s with
              err := .none, life := .uninit, waitpt := .none, inputs := rest
              out := s.out ++ [.irqDisable, .freezeEnter], rxq := t.rxq, txq := t.txq
              nslot := 0, slot := [], ncb := 0, cbt := []
              act := { np := 0, ns := 0, nf := 0, payload := 0, rxmb := 0 } }
          ∧ FreshRing t.rxq 0 ∧ FreshRing t.txq 0 ∧ t.rxq.mem = [] ∧ t.txq.mem = []

/-! ## The software FIFO arbiter -/

/-- R190 to R194, R199, R207: SEND refuses an ill-formed frame, answers its status outside `RUNNING` and in FD mode, and
otherwise takes the remote or the data path with the frame `TXF` holds, its bytes at and beyond the payload length 0
(R41, R43, R44); it changes nothing else. -/
def Obligations.SendResult : Prop :=
  decode 0x00000040 = .ok .send
  ∧ ∀ s : State,
    (illFormedClassic s.txf → exec .send s = .next { s with err := .badOperand })
    ∧ (¬ illFormedClassic s.txf → s.life ≠ .running → exec .send s = .next { s with err := .none, r0 := 0x10 })
    ∧ (¬ illFormedClassic s.txf → s.life = .running → s.mode = .fd →
        exec .send s = .next { s with err := .none, r0 := 0x08 })
    ∧ (¬ illFormedClassic s.txf → s.life = .running → s.mode = .classic →
        ∃ f, Submitted s.txf f
          ∧ SendEffect .classic 0 f
              (List.range' s.par.mbTxRemoteFirst (s.par.mbTxData - s.par.mbTxRemoteFirst)) s.par.mbTxData s
              (exec .send s))

/-- R191 to R194, R197 to R199, R206, R207: the same of SENDFD, with the payload-class check and, after every mailbox
write, the errata workaround. -/
def Obligations.SendFdResult : Prop :=
  decode 0x00000041 = .ok .sendFd
  ∧ ∀ s : State,
    (illFormedFd s.txf → exec .sendFd s = .next { s with err := .badOperand })
    ∧ (¬ illFormedFd s.txf → s.life ≠ .running → exec .sendFd s = .next { s with err := .none, r0 := 0x10 })
    ∧ (¬ illFormedFd s.txf → s.life = .running → s.mode = .classic →
        exec .sendFd s = .next { s with err := .none, r0 := 0x08 })
    ∧ (¬ illFormedFd s.txf → s.life = .running → s.mode = .fd → 8 * 2 ^ s.act.payload.toNat < s.txf.len.toNat →
        exec .sendFd s = .next { s with err := .none, r0 := 0x04 })
    ∧ (¬ illFormedFd s.txf → s.life = .running → s.mode = .fd → s.txf.len.toNat ≤ 8 * 2 ^ s.act.payload.toNat →
        ∃ f, Submitted s.txf f
          ∧ SendEffect .fd s.act.payload f
              (List.range' (s.act.rxmb.toNat + 1)
                (fdMbTotal s.par s.act.payload - 1 - (s.act.rxmb.toNat + 1)))
              (fdMbTotal s.par s.act.payload - 1) s (exec .sendFd s))

/-- R205: outside `RUNNING` the six send and receive commands change nothing but `R0`, `R1` and `ERR`, whatever their
operands. -/
def Obligations.NotRunningNoOp : Prop :=
  ∀ (s : State) (i : Instr), s.life ≠ .running →
    (i = .send ∨ i = .sendFd ∨ i = .recv ∨ i = .recvFd ∨ (∃ n, i = .dispatch n) ∨ ∃ n, i = .dispatchFd n) →
      ∃ t, exec i s = .next t ∧ t = { s with r0 := t.r0, r1 := t.r1, err := t.err }

/-- R200, R201: RECV and RECVFD deliver the oldest frame of the receive ring to `RXF` and answer 1, or answer 0 and leave
`RXF` and the ring alone; nothing else changes. -/
def Obligations.RecvResult : Prop :=
  (decode 0x00000042 = .ok .recv ∧ decode 0x00000043 = .ok .recvFd)
  ∧ ∀ s : State, RecvEffect .classic s (exec .recv s) ∧ RecvEffect .fd s (exec .recvFd s)

/-- R202 to R204: DISPATCH and DISPATCHFD deliver the oldest frame, notify the match when asked to, invoke the callback of
its index when there is one, and answer 1 and the reference; or answer 0; nothing else changes. -/
def Obligations.DispatchResult : Prop :=
  (decode 0x00000044 = .ok (.dispatch false) ∧ decode 0x00000144 = .ok (.dispatch true)
    ∧ decode 0x00000045 = .ok (.dispatchFd false) ∧ decode 0x00000145 = .ok (.dispatchFd true))
  ∧ ∀ (s : State) (notify : Bool),
    DispatchEffect .classic notify s (exec (.dispatch notify) s)
    ∧ DispatchEffect .fd notify s (exec (.dispatchFd notify) s)

/-- R213 to R217: what one ISRC run does with its sample `w`: the receive part with the matched index, the drop with its
flag, the latched warnings, the transmit drain, the clear, and nothing else. -/
def Obligations.IsrcResult : Prop :=
  ∀ s : State, s.life = .running → s.mode = .classic → RingWf s.rxq → RingWf s.txq →
    let w := (portFlags s.port).1
    let p := (portFlags s.port).2
    let a := (portFifoFrame p).1
    let hit := a.hit.toNat
    let f := unpack .classic a.cs a.idw [a.dw0, a.dw1]
    let idx := if hit < s.par.nPrimaryMax then hit else hit - s.par.nPrimaryMax + s.act.np.toNat
    ∃ t, exec .isrc s = .next t
      ∧ t = { s with gstat := t.gstat, rxq := t.rxq, txq := t.txq, out := t.out, port := t.port }
      ∧ t.port = (if w.getLsbD 0 then (portFifoFrame p).2 else p)
      ∧ (w.getLsbD 0 = true → s.rxq.cnt ≠ s.rxq.cap → Enqueued s.rxq t.rxq { f with idx := BitVec.ofNat 8 idx })
      ∧ ((w.getLsbD 0 = false ∨ s.rxq.cnt = s.rxq.cap) → t.rxq = s.rxq)
      ∧ t.gstat.getLsbD 0 = s.gstat.getLsbD 0
      ∧ t.gstat.getLsbD 1 = (s.gstat.getLsbD 1 || w.getLsbD 1)
      ∧ t.gstat.getLsbD 2 = (s.gstat.getLsbD 2 || w.getLsbD 2)
      ∧ t.gstat.getLsbD 3 = (s.gstat.getLsbD 3 || (w.getLsbD 0 && decide (s.rxq.cnt = s.rxq.cap)))
      ∧ (w.getLsbD 3 = false → t.txq = s.txq)
      ∧ (w.getLsbD 3 = true → Drained s.txq t.txq)
      ∧ t.out = s.out ++ (if w.getLsbD 3 then drainActions s s.par.mbTxData else []) ++ [.flagsClear w]

/-- R206, R215, R216, R218 to R220: what one ISRFD run does with its sample `F`: the flagged receive mailboxes in
ascending order, each frame queued while there is room and its mailbox re-armed all the same, the transmit drain on
mailbox `M - 1`, the timer read, the clear, and nothing else. -/
def Obligations.IsrFdResult : Prop :=
  ∀ s : State, s.life = .running → s.mode = .fd → RingWf s.rxq → RingWf s.txq →
    s.act.rxmb.toNat + 2 ≤ fdMbTotal s.par s.act.payload →
    let lo := portFlagsLo s.port
    let hi := portFlagsHi lo.2
    let fl : BitVec 64 := hi.1 ++ lo.1
    let mb := fdMbTotal s.par s.act.payload - 1
    let flagged := (List.range 64).filter fun i => fl.getLsbD i
    let isRx : Nat → Bool := fun i => decide (1 ≤ i ∧ i ≤ s.act.rxmb.toNat)
    let rd := readMailboxes s.act.payload (flagged.filter isRx) hi.2
    let room := s.rxq.cap.toNat - s.rxq.cnt.toNat
    ∃ t, exec .isrFd s = .next t
      ∧ t = { s with gstat := t.gstat, rxq := t.rxq, txq := t.txq, out := t.out, port := (portTimer rd.2).2 }
      ∧ RingWf t.rxq ∧ queued t.rxq = queued s.rxq ++ rd.1.take room
      ∧ t.rxq.cap = s.rxq.cap ∧ t.rxq.rd = s.rxq.rd
      ∧ (∀ i, (∀ j, j < min room rd.1.length → i ≠ (s.rxq.rd.toNat + (s.rxq.cnt.toNat + j)) % s.rxq.cap.toNat) →
          t.rxq.mem.read? i = s.rxq.mem.read? i)
      ∧ t.rxq.peak.toNat = max s.rxq.peak.toNat (s.rxq.cnt.toNat + min room rd.1.length)
      ∧ (∀ n, n < 3 → t.gstat.getLsbD n = s.gstat.getLsbD n)
      ∧ t.gstat.getLsbD 3 = (s.gstat.getLsbD 3 || decide (room < rd.1.length))
      ∧ (fl.getLsbD mb = false → t.txq = s.txq)
      ∧ (fl.getLsbD mb = true → Drained s.txq t.txq)
      ∧ t.out = s.out
          ++ (flagged.flatMap fun i =>
                if isRx i then [.mbRearm i (readSlot s.slot (i - 1)).aw]
                else if i = mb then drainActions s mb
                else [])
          ++ [.flagsClearFd fl]

/-- R66 to R68: frames pushed to a ring come out behind those it held, in the order of the pushes, and a push that finds
the ring full answers so. -/
def Obligations.RingFifo : Prop :=
  ∀ (q : Ring) (fs : List Frame), RingWf q →
    (∀ q', pushAll q fs = some q' →
      ∃ q'', popAll (queued q ++ fs).length q' = some (queued q ++ fs, q'') ∧ q''.cnt = 0 ∧ q''.cap = q.cap)
    ∧ (pushAll q fs = none ↔ q.cap.toNat < q.cnt.toNat + fs.length)

/-- R72 to R74: a frame in normal form that the mode can send comes back from its image unchanged. -/
def Obligations.PackUnpackRoundTrip : Prop :=
  ∀ (m : Mode) (payload : BitVec 2) (f : Frame), norm f = f → f.idx = 0 →
    (m = .classic → classicOk f = true) →
    (m = .fd → fdOk f = true ∧ f.len.toNat ≤ payloadBytes payload) →
      unpack m (packCs f) (packIdw f) (packDw (imageWords m payload) f) = f

/-- R40, R41, R43, R44, R70: the frame a register file holds, the register file a frame is written to, and the normal form,
field by field and byte by byte. -/
def Obligations.RegisterFileFrames : Prop :=
  (∀ t : FrameFile, (readFile t).id = t.id ∧ (readFile t).ext = t.ext ∧ (readFile t).kind = t.kind
    ∧ (readFile t).len = t.len ∧ (readFile t).idx = 0 ∧ ∀ j : Fin 64, (readFile t).data[j] = payloadByte t j)
  ∧ (∀ (f : Frame) (s : State), ∃ x, writeRxf f s = { s with rxf := x } ∧ Holds x f)
  ∧ (∀ f : Frame, (norm f).id = f.id ∧ (norm f).ext = f.ext ∧ (norm f).kind = f.kind ∧ (norm f).len = f.len
    ∧ (norm f).idx = f.idx
    ∧ ∀ j : Fin 64, (beyondPayload f.kind f.len j → (norm f).data[j] = 0)
        ∧ (¬ beyondPayload f.kind f.len j → (norm f).data[j] = f.data[j]))
  ∧ ∀ f : Frame, norm f = f ↔ ∀ j : Fin 64, beyondPayload f.kind f.len j → f.data[j] = 0

/-- R71 to R74, on transmit: the image of a frame bit by bit. The control word has the code 0xC, `SRR` and `IDE` at the
format, `EDL`, `BRS` and `RTR` by the kind, the code of the length, and 0 elsewhere; the identifier word has a standard
identifier in bits 28:18 and an extended one in bits 28:0; a data word has its first byte most significant, the reverse
of the host's word. -/
def Obligations.FrameImageLayout : Prop :=
  (∀ (f : Frame) (n : Nat), n < 32 → (n < 16 ∨ 20 ≤ n) → ((packCs f).getLsbD n = true ↔ controlBit f n))
  ∧ (∀ f : Frame, f.len.toNat ∈ lengthOfCode →
      lengthOfCode[((packCs f).extractLsb' 16 4).toNat]? = some f.len.toNat)
  ∧ (∀ f : Frame, f.ext = .ext → (packIdw f).toNat = f.id.toNat)
  ∧ (∀ f : Frame, f.ext = .std → f.id.toNat ≤ 0x7FF → (packIdw f).toNat = f.id.toNat * 2 ^ 18)
  ∧ (∀ (f : Frame) (j : Fin 64),
      (portWord f (j.val / 4)).extractLsb' (24 - 8 * (j.val % 4)) 8 = f.data[j]
      ∧ (hostWord f (j.val / 4)).extractLsb' (8 * (j.val % 4)) 8 = f.data[j])
  ∧ (∀ (f : Frame) (k : Nat), portWord f k = bswap (hostWord f k))
  ∧ (∀ w : Word, bswap (bswap w) = w)
  ∧ (∀ (n : Nat) (f : Frame), packDw n f = (List.range n).map (portWord f))
  ∧ ∀ payload : BitVec 2, imageWords .classic payload = 2 ∧ imageWords .fd payload = 2 * 2 ^ payload.toNat

/-- R72 to R74, on receive: the frame read from any image, those `Pack` never makes among them. The format is `IDE`; `EDL`
and `BRS` count in FD mode only; a remote frame is one that is not an FD frame and has `RTR`; a code above 8 in a frame
that is no FD frame reads as 8 bytes; the other bits of the control word and the unused bits of the identifier word
are ignored; bytes at and beyond the payload length, and of words the image does not have, read 0. -/
def Obligations.UnpackReadsImage : Prop :=
  ∀ (m : Mode) (cs idw : Word) (dw : List Word),
    let f := unpack m cs idw dw
    let isFd : Prop := m = .fd ∧ cs.getLsbD 31 = true
    let code := (cs.extractLsb' 16 4).toNat
    (f.ext = .ext ↔ cs.getLsbD 21 = true)
    ∧ f.id.toNat = (if cs.getLsbD 21 = true then idw.toNat % 2 ^ 29 else idw.toNat / 2 ^ 18 % 2 ^ 11)
    ∧ (f.kind = .fdBrs ↔ isFd ∧ cs.getLsbD 30 = true)
    ∧ (f.kind = .fdNoBrs ↔ isFd ∧ cs.getLsbD 30 = false)
    ∧ (f.kind = .remote ↔ ¬ isFd ∧ cs.getLsbD 20 = true)
    ∧ (f.kind = .data ↔ ¬ isFd ∧ cs.getLsbD 20 = false)
    ∧ (isFd → lengthOfCode[code]? = some f.len.toNat)
    ∧ (¬ isFd → f.len.toNat = min code 8)
    ∧ f.idx = 0
    ∧ ∀ j : Fin 64, (beyondPayload f.kind f.len j → f.data[j] = 0)
        ∧ (¬ beyondPayload f.kind f.len j → f.data[j]
            = match dw[j.val / 4]? with
              | some w => w.extractLsb' (24 - 8 * (j.val % 4)) 8
              | none => 0)

end Slice0
end

