-- ==== Sys2Proof/Laws/Frames.lean ====
section
/-! SUPPORT. Frame records: bytes and words (R41, R70, R71), normal form (R43), register files (R44), length codes and
unpacked frames (R74). -/

namespace Sys2Proof.Machine

/-! ## Bytes and words -/

theorem extract_append3 (a b c d : Byte) : (a ++ b ++ c ++ d : Word).extractLsb' 24 8 = a := by
  apply BitVec.eq_of_getLsbD_eq
  intro i hi
  simp only [BitVec.getLsbD_extractLsb', BitVec.getLsbD_append, hi, decide_true, Bool.true_and]
  rw [if_neg (by omega), if_neg (by omega), if_neg (by omega)]
  congr 1
  omega

theorem extract_append2 (a b c d : Byte) : (a ++ b ++ c ++ d : Word).extractLsb' 16 8 = b := by
  apply BitVec.eq_of_getLsbD_eq
  intro i hi
  simp only [BitVec.getLsbD_extractLsb', BitVec.getLsbD_append, hi, decide_true, Bool.true_and]
  rw [if_neg (by omega), if_neg (by omega), if_pos (by omega)]
  congr 1
  omega

theorem extract_append1 (a b c d : Byte) : (a ++ b ++ c ++ d : Word).extractLsb' 8 8 = c := by
  apply BitVec.eq_of_getLsbD_eq
  intro i hi
  simp only [BitVec.getLsbD_extractLsb', BitVec.getLsbD_append, hi, decide_true, Bool.true_and]
  rw [if_neg (by omega), if_pos (by omega)]
  congr 1
  omega

theorem extract_append0 (a b c d : Byte) : (a ++ b ++ c ++ d : Word).extractLsb' 0 8 = d := by
  apply BitVec.eq_of_getLsbD_eq
  intro i hi
  simp only [BitVec.getLsbD_extractLsb', BitVec.getLsbD_append, hi, decide_true, Bool.true_and]
  rw [if_pos (by omega)]
  congr 1
  omega

theorem mod_four_cases (j : Nat) : j % 4 = 0 ∨ j % 4 = 1 ∨ j % 4 = 2 ∨ j % 4 = 3 := by omega

/-- A port word carries the payload bytes, byte `4k` most significant (R71). -/
theorem portByte_portWord (f : Frame) (j : Nat) : portByte (portWord f (j / 4)) j = frameByte f j := by
  have hj : 4 * (j / 4) + j % 4 = j := Nat.div_add_mod j 4
  conv_rhs => rw [← hj]
  simp only [portByte, portWord]
  rcases mod_four_cases j with h | h | h | h <;> rw [h]
  · exact extract_append3 _ _ _ _
  · exact extract_append2 _ _ _ _
  · exact extract_append1 _ _ _ _
  · exact extract_append0 _ _ _ _

/-- A host word carries the payload bytes, byte `4k` least significant (R41, R70). -/
theorem hostByte_hostWord (f : Frame) (j : Nat) : hostByte (hostWord f (j / 4)) j = frameByte f j := by
  have hj : 4 * (j / 4) + j % 4 = j := Nat.div_add_mod j 4
  conv_rhs => rw [← hj]
  simp only [hostByte, hostWord]
  rcases mod_four_cases j with h | h | h | h <;> rw [h]
  · exact extract_append0 _ _ _ _
  · exact extract_append1 _ _ _ _
  · exact extract_append2 _ _ _ _
  · exact extract_append3 _ _ _ _

/-- A byte swap of a word of bytes reverses them. -/
theorem bswap_append (a b c d : Byte) : bswap (a ++ b ++ c ++ d) = d ++ c ++ b ++ a := by
  simp only [bswap]
  rw [extract_append0, extract_append1, extract_append2, extract_append3]

theorem bswap_hostWord (f : Frame) (k : Nat) : bswap (hostWord f k) = portWord f k := bswap_append _ _ _ _

/-! ## Normal form (R43) -/

theorem Frame.eq_of_fields {f g : Frame} (h1 : f.id = g.id) (h2 : f.ext = g.ext) (h3 : f.kind = g.kind) (h4 : f.len = g.len)
    (h5 : f.data = g.data) (h6 : f.idx = g.idx) : f = g := by
  cases f
  cases g
  simp_all

@[simp] theorem norm_id (f : Frame) : (norm f).id = f.id := by simp only [norm]
@[simp] theorem norm_ext (f : Frame) : (norm f).ext = f.ext := by simp only [norm]
@[simp] theorem norm_kind (f : Frame) : (norm f).kind = f.kind := by simp only [norm]
@[simp] theorem norm_len (f : Frame) : (norm f).len = f.len := by simp only [norm]
@[simp] theorem norm_idx (f : Frame) : (norm f).idx = f.idx := by simp only [norm]
@[simp] theorem payLen_norm (f : Frame) : payLen (norm f) = payLen f := by
  simp only [payLen, norm_kind, norm_len]
@[simp] theorem idOk_norm (f : Frame) : idOk (norm f) = idOk f := by simp only [idOk, norm_ext, norm_id]
@[simp] theorem classicOk_norm (f : Frame) : classicOk (norm f) = classicOk f := by
  simp only [classicOk, idOk_norm, norm_kind, norm_len]
@[simp] theorem fdOk_norm (f : Frame) : fdOk (norm f) = fdOk f := by
  simp only [fdOk, idOk_norm, norm_kind, norm_len]

theorem norm_data (f : Frame) (j : Fin 64) : (norm f).data[j] = if j.val < payLen f then f.data[j] else 0 := by
  simp [norm]

/-- Normal form is idempotent. -/
theorem norm_norm (f : Frame) : norm (norm f) = norm f := by
  have h : (norm (norm f)).data = (norm f).data := by
    refine Vector.ext fun j hj => ?_
    have h1 := norm_data (norm f) ⟨j, hj⟩
    have h2 := norm_data f ⟨j, hj⟩
    simp only [Fin.getElem_fin, payLen_norm] at h1 h2
    rw [h1]
    split
    · rfl
    · rw [h2]; simp [*]
  exact Frame.eq_of_fields (by simp) (by simp) (by simp) (by simp) h (by simp)

/-- A frame is in normal form when its bytes at or beyond the payload length are 0. -/
theorem norm_eq_self {f : Frame} (h : ∀ j : Fin 64, payLen f ≤ j.val → f.data[j] = 0) : norm f = f := by
  have h : (norm f).data = f.data := by
    refine Vector.ext fun j hj => ?_
    have h1 := norm_data f ⟨j, hj⟩
    simp only [Fin.getElem_fin] at h1
    rw [h1]
    split
    · rfl
    · exact (h ⟨j, hj⟩ (by simp only []; omega)).symm
  exact Frame.eq_of_fields (by simp) (by simp) (by simp) (by simp) h (by simp)

theorem norm_idx_update (f : Frame) (i : Byte) : norm { f with idx := i } = { norm f with idx := i } := by
  refine Frame.eq_of_fields (by simp only [norm]) (by simp only [norm]) (by simp only [norm]) (by simp only [norm]) ?_
    (by simp only [norm])
  refine Vector.ext fun j hj => ?_
  simp only [norm, payLen, Vector.getElem_ofFn]
  rfl

theorem fdOk_idx_update (f : Frame) (i : Byte) : fdOk { f with idx := i } = fdOk f := by simp only [fdOk, idOk]

/-- A classic frame is an FD-mode frame too (R42). -/
theorem fdOk_of_classicOk {f : Frame} (h : classicOk f = true) : fdOk f = true := by
  simp only [classicOk, Bool.and_eq_true, decide_eq_true_eq] at h
  obtain ⟨⟨h1, h2⟩, h3⟩ := h
  have hl : lenSet.contains f.len.toNat = true := by
    simp only [Config.lenMaxC] at h3
    generalize f.len.toNat = n at h3
    interval_cases n <;> decide
  rw [fdOk, h1, hl, h2]
  simp [h3]

/-! ## The frame predicates as propositions (R42) -/

theorem idOk_iff (f : Frame) : idOk f = true ↔ (f.ext = .std → f.id.toNat ≤ 0x7FF) := by
  have := f.id.isLt
  cases h : f.ext
  · simp only [idOk, h, decide_eq_true_eq, forall_const]
    exact Iff.rfl
  · simp only [idOk, h, decide_eq_true_eq, reduceCtorEq, false_implies, iff_true]
    show f.id.toNat ≤ 0x1FFFFFFF
    omega

theorem classicOk_iff (f : Frame) :
    classicOk f = true ↔ idOk f = true ∧ classicKind f.kind = true ∧ f.len.toNat ≤ 8 := by
  simp only [classicOk, Bool.and_eq_true, and_assoc]
  exact and_congr_right fun _ => and_congr_right fun _ => decide_eq_true_iff

theorem fdOk_iff (f : Frame) : fdOk f = true ↔
    idOk f = true ∧ lenSet.contains f.len.toNat = true ∧ (classicKind f.kind = true → f.len.toNat ≤ 8) := by
  simp only [fdOk, Bool.and_eq_true, and_assoc, Bool.or_eq_true, Bool.not_eq_true']
  refine and_congr_right fun _ => and_congr_right fun _ => ?_
  cases classicKind f.kind
  · simp
  · simp only [Bool.true_eq_false, false_or, forall_const]
    exact decide_eq_true_iff

/-- The normal form depends on the payload below the payload length only. -/
theorem norm_congr {f g : Frame} (h1 : f.id = g.id) (h2 : f.ext = g.ext) (h3 : f.kind = g.kind) (h4 : f.len = g.len)
    (h5 : f.idx = g.idx) (h : ∀ j : Fin 64, j.val < payLen f → f.data[j] = g.data[j]) : norm f = norm g := by
  have hp : payLen f = payLen g := by simp only [payLen, h3, h4]
  refine Frame.eq_of_fields (by simp only [norm_id, h1]) (by simp only [norm_ext, h2]) (by simp only [norm_kind, h3])
    (by simp only [norm_len, h4]) ?_ (by simp only [norm_idx, h5])
  refine Vector.ext fun j hj => ?_
  have a := norm_data f ⟨j, hj⟩
  have b := norm_data g ⟨j, hj⟩
  simp only [Fin.getElem_fin] at a b
  rw [a, b, hp]
  split
  · exact h ⟨j, hj⟩ (by rw [hp]; assumption)
  · rfl

/-! ## Register files (R44) -/

theorem frameByte_of_lt (f : Frame) {j : Nat} (h : j < 64) : frameByte f j = f.data[j] := by
  simp [frameByte, h]

/-- Payload byte `j` of the frame a register file holds (R41). -/
theorem readFile_data (t : FrameFile) (j : Fin 64) :
    (readFile t).data[j] = hostByte (t.d[j.val / 4]?.getD 0) j.val := by simp [readFile]

/-- Reading back what `WriteRXF` stored gives the frame, without its index. -/
theorem readFile_fileOf (f : Frame) : readFile (fileOf f) = { f with idx := 0 } := by
  have h : (readFile (fileOf f)).data = f.data := by
    refine Vector.ext fun j hj => ?_
    have hj4 : j / 4 < 16 := by omega
    simp only [readFile, fileOf, Vector.getElem_ofFn]
    rw [← frameByte_of_lt f hj, ← hostByte_hostWord f j]
    simp [hj4]
  exact Frame.eq_of_fields rfl rfl rfl rfl h rfl

theorem norm_readFile_fileOf {f : Frame} (h : norm f = f) : norm (readFile (fileOf f)) = readFile (fileOf f) := by
  rw [readFile_fileOf, norm_idx_update, h]

/-! ## Length codes and unpacked frames (R74) -/

/-- `LenOfCode` undoes `CodeOfLen` on `LENSET`. -/
theorem lenOfCode_codeOfLen {l : BitVec 7} (h : lenSet.contains l.toNat = true) : lenOfCode (codeOfLen l) = l := by
  have hl : l = BitVec.ofNat 7 l.toNat := by simp
  rw [hl]
  generalize l.toNat = n at h
  simp only [lenSet, List.contains_eq_mem, List.mem_cons, List.not_mem_nil, or_false, decide_eq_true_eq] at h
  rcases h with rfl | rfl | rfl | rfl | rfl | rfl | rfl | rfl | rfl | rfl | rfl | rfl | rfl | rfl | rfl | rfl <;> rfl

/-- The length of a code is the entry of `LENSET` at that index. -/
theorem lenSet_getElem : ∀ c : BitVec 4, lenSet[c.toNat]? = some (lenOfCode c).toNat := by decide

/-- Every length code stands for a length of `LENSET`. -/
theorem lenSet_lenOfCode : ∀ c : BitVec 4, lenSet.contains (lenOfCode c).toNat = true := by decide

theorem lenOfCode_le : ∀ c : BitVec 4, (lenOfCode c).toNat ≤ 64 := by decide

theorem lenSet_min8 : ∀ c : BitVec 4, lenSet.contains (BitVec.ofNat 7 (min c.toNat 8)).toNat = true := by decide

theorem min8_le : ∀ c : BitVec 4, (BitVec.ofNat 7 (min c.toNat 8)).toNat ≤ 8 := by decide

/-- An unpacked frame is in normal form. -/
theorem norm_unpack (m : Mode) (cs idw : Word) (dw : List Word) : norm (unpack m cs idw dw) = unpack m cs idw dw :=
  norm_norm _

@[simp] theorem unpack_ext (m : Mode) (cs idw : Word) (dw : List Word) :
    (unpack m cs idw dw).ext = formatOfBit (cs.getLsbD 21) := rfl
@[simp] theorem unpack_kind (m : Mode) (cs idw : Word) (dw : List Word) :
    (unpack m cs idw dw).kind = unpackKind m cs := rfl
@[simp] theorem unpack_len (m : Mode) (cs idw : Word) (dw : List Word) :
    (unpack m cs idw dw).len = unpackLen m cs := rfl

/-- An unpacked frame has an identifier of its format's width. -/
theorem idOk_unpack (m : Mode) (cs idw : Word) (dw : List Word) : idOk (unpack m cs idw dw) = true := by
  simp only [idOk, unpack_ext]
  cases h : cs.getLsbD 21 with
  | false =>
    have : (unpack m cs idw dw).id = (idw.extractLsb' 18 11).setWidth 29 := by
      simp only [unpack, norm_id, h, Bool.false_eq_true, if_false]
    have hlt := (idw.extractLsb' 18 11).isLt
    simp only [formatOfBit, Bool.false_eq_true, if_false, this, BitVec.toNat_setWidth, decide_eq_true_eq]
    simp only [Config.idMaxStd]
    omega
  | true =>
    have hlt := (unpack m cs idw dw).id.isLt
    simp only [formatOfBit, if_true, decide_eq_true_eq]
    simp only [Config.idMaxExt]
    omega

/-- Every unpacked frame is well formed (R42). -/
theorem fdOk_unpack (m : Mode) (cs idw : Word) (dw : List Word) : fdOk (unpack m cs idw dw) = true := by
  simp only [fdOk, idOk_unpack, unpack_kind, unpack_len, Bool.true_and, Bool.and_eq_true]
  by_cases h : (m = .fd && cs.getLsbD 31) = true
  · have h' := h
    simp only [Bool.and_eq_true, decide_eq_true_eq] at h'
    refine ⟨by simp only [unpackLen, h, if_true]; exact lenSet_lenOfCode _, ?_⟩
    simp only [unpackKind, h'.1, h'.2]
    cases cs.getLsbD 30 <;> simp [classicKind]
  · refine ⟨by simp only [unpackLen, h]; exact lenSet_min8 _, ?_⟩
    simp only [unpackLen, h]
    have := min8_le (cs.extractLsb' 16 4)
    simp only [Bool.or_eq_true, decide_eq_true_eq]
    right
    simpa [Config.lenMaxC] using this

end Sys2Proof.Machine
end

