-- ==== Sys2Proof/Laws/Memory.lean ====
section
/-! SUPPORT. The internal memories (R64): a read after a write, the canonical form, tables written whole. -/

namespace Sys2Proof.Machine

variable {α : Type}

theorem read?_write_same (m : Memory α) (i : Nat) (v : α) : (m.write i v).read? i = some v := by
  induction m with
  | nil => simp [Memory.write, Memory.read?]
  | cons e m ih =>
    obtain ⟨k, w⟩ := e
    simp only [Memory.write]
    split
    · simp [Memory.read?]
    · split
      · simp [Memory.read?]
      · rename_i h1 h2
        simp [Memory.read?, Ne.symm h2, ih]

theorem read?_write_other (m : Memory α) {i j : Nat} (v : α) (h : j ≠ i) :
    (m.write i v).read? j = m.read? j := by
  induction m with
  | nil => simp [Memory.write, Memory.read?, Ne.symm h]
  | cons e m ih =>
    obtain ⟨k, w⟩ := e
    simp only [Memory.write]
    split
    · simp [Memory.read?, Ne.symm h]
    · split
      · rename_i h1 h2
        subst h2
        simp [Memory.read?, Ne.symm h]
      · simp [Memory.read?, ih]

/-- What a write leaves behind: the written entry, or an entry that was there before under another index. -/
theorem mem_write {m : Memory α} {i : Nat} {v : α} {e : Nat × α} (h : e ∈ m.write i v) : e = (i, v) ∨ e ∈ m := by
  induction m with
  | nil => simpa [Memory.write] using h
  | cons e' m ih =>
    obtain ⟨k, w⟩ := e'
    simp only [Memory.write] at h
    split at h
    · simpa using h
    · split at h
      · rcases List.mem_cons.1 h with h | h
        · exact .inl h
        · exact .inr (List.mem_cons_of_mem _ h)
      · rcases List.mem_cons.1 h with h | h
        · exact .inr (by simp [h])
        · exact (ih h).imp_right (List.mem_cons_of_mem _)

theorem write_wf {m : Memory α} (i : Nat) (v : α) (h : m.wf) : (m.write i v).wf := by
  induction m with
  | nil => simp [Memory.write, Memory.wf]
  | cons e m ih =>
    obtain ⟨k, w⟩ := e
    have h' := List.pairwise_cons.1 h
    simp only [Memory.write]
    split
    · rename_i hik
      refine List.pairwise_cons.2 ⟨?_, h⟩
      intro b hb
      rcases List.mem_cons.1 hb with rfl | hb
      · exact hik
      · exact Nat.lt_trans hik (h'.1 b hb)
    · split
      · rename_i _ hik
        subst hik
        exact List.pairwise_cons.2 ⟨h'.1, h'.2⟩
      · rename_i h1 h2
        refine List.pairwise_cons.2 ⟨?_, ih h'.2⟩
        intro b hb
        rcases mem_write hb with rfl | hb
        · show k < i
          omega
        · exact h'.1 b hb

/-- A read finds an entry of the memory. -/
theorem mem_of_read? {m : Memory α} {i : Nat} {v : α} (h : m.read? i = some v) : (i, v) ∈ m := by
  induction m with
  | nil => simp [Memory.read?] at h
  | cons e m ih =>
    obtain ⟨k, w⟩ := e
    simp only [Memory.read?] at h
    split at h
    · rename_i hk
      simp_all
    · exact List.mem_cons_of_mem _ (ih h)

theorem read?_isSome_of_write {m : Memory α} {i j : Nat} {v : α} (h : (m.read? j).isSome = true) :
    ((m.write i v).read? j).isSome = true := by
  by_cases hj : j = i
  · subst hj; simp [read?_write_same]
  · simpa [read?_write_other m v hj] using h

theorem read?_append (m m' : Memory α) (i : Nat) :
    Memory.read? (m ++ m') i = (m.read? i).or (m'.read? i) := by
  induction m with
  | nil => simp [Memory.read?]
  | cons e m ih =>
    obtain ⟨k, w⟩ := e
    simp only [List.cons_append, Memory.read?]
    split <;> simp [ih]

theorem table_succ (n : Nat) (f : Nat → α) : Memory.table (n + 1) f = Memory.table n f ++ [(n, f n)] := by
  simp [Memory.table, List.range_succ]

theorem read?_table_ge (f : Nat → α) {n i : Nat} (h : n ≤ i) : (Memory.table n f).read? i = none := by
  induction n with
  | zero => rfl
  | succ n ih => simp [table_succ, read?_append, ih (by omega), Memory.read?, show n ≠ i by omega]

/-- A table written whole holds what it was written from. -/
theorem read?_table (f : Nat → α) {n i : Nat} (h : i < n) : (Memory.table n f).read? i = some (f i) := by
  induction n with
  | zero => omega
  | succ n ih =>
    by_cases hi : i < n
    · simp [table_succ, read?_append, ih hi]
    · obtain rfl : i = n := by omega
      simp [table_succ, read?_append, read?_table_ge f (Nat.le_refl i), Memory.read?]

theorem table_wf (n : Nat) (f : Nat → α) : (Memory.table n f).wf := by
  simp only [Memory.wf, Memory.table, List.pairwise_map]
  exact List.pairwise_lt_range

theorem listed_table (n : Nat) (f : Nat → α) : Listed (Memory.table n f) n := by
  intro i hi
  simp [read?_table f hi]

theorem readSlot_table (f : Nat → FilterPair) {n i : Nat} (h : i < n) : readSlot (Memory.table n f) i = f i := by
  simp [readSlot, read?_table f h]

theorem readCallback_table (f : Nat → Word) {n i : Nat} (h : i < n) : readCallback (Memory.table n f) i = f i := by
  simp [readCallback, read?_table f h]

end Sys2Proof.Machine
end

