-- ==== Sys2Proof/Laws/Ring.lean ====
section
/-! SUPPORT. The rings (R65 to R69): what a push and a pop do, once, and that they keep the ring invariant. -/

namespace Sys2Proof.Machine

/-- The ring a push that found room leaves (R66). -/
def pushed (q : Ring) (f : Frame) : Ring :=
  { q with
    mem := q.mem.write (ringIndex q q.cnt.toNat) f
    cnt := BitVec.ofNat 16 (q.cnt.toNat + 1)
    peak := if q.peak.toNat < q.cnt.toNat + 1 then BitVec.ofNat 16 (q.cnt.toNat + 1) else q.peak }

/-- The ring a pop that found a frame leaves (R67). -/
def popped (q : Ring) : Ring :=
  { q with rd := BitVec.ofNat 16 (ringIndex q 1), cnt := BitVec.ofNat 16 (q.cnt.toNat - 1) }

@[simp] theorem pushed_cap (q : Ring) (f : Frame) : (pushed q f).cap = q.cap := rfl
@[simp] theorem pushed_rd (q : Ring) (f : Frame) : (pushed q f).rd = q.rd := rfl
@[simp] theorem popped_cap (q : Ring) : (popped q).cap = q.cap := rfl
@[simp] theorem popped_peak (q : Ring) : (popped q).peak = q.peak := rfl
@[simp] theorem popped_mem (q : Ring) : (popped q).mem = q.mem := rfl

/-- A push answers `FULL` exactly when the ring is full (R66). -/
theorem qPush_eq_none {q : Ring} {f : Frame} : qPush q f = none ↔ q.cnt = q.cap := by
  simp [qPush]

/-- All a push that answers `OK` can do (R66). -/
theorem qPush_eq_some {q q' : Ring} {f : Frame} : qPush q f = some q' ↔ q.cnt ≠ q.cap ∧ q' = pushed q f := by
  simp only [qPush, pushed]
  split
  · simp_all
  · rename_i h
    simp [h, eq_comm]

/-- A pop answers `NONE` exactly when the ring is empty (R67). -/
theorem qPop_eq_none {q : Ring} : qPop q = none ↔ q.cnt = 0 := by
  simp [qPop]

/-- All a pop that answers a frame can do (R67). -/
theorem qPop_eq_some {q q' : Ring} {f : Frame} :
    qPop q = some (f, q') ↔ q.cnt ≠ 0 ∧ f = readFrame q.mem q.rd.toNat ∧ q' = popped q := by
  simp only [qPop, popped]
  split
  · rename_i h
    exact ⟨fun h' => (by cases h'), fun h' => absurd h h'.1⟩
  · rename_i h
    constructor
    · intro h'
      cases h'
      exact ⟨h, rfl, rfl⟩
    · rintro ⟨-, rfl, rfl⟩
      rfl

theorem ringIndex_lt {q : Ring} (h : 0 < q.cap.toNat) (k : Nat) : ringIndex q k < q.cap.toNat := Nat.mod_lt _ h

/-- Two positions of one ring less than a capacity apart have different indices. -/
theorem ringIndex_inj {q : Ring} {j k : Nat} (hjk : j < k) (hk : k < j + q.cap.toNat) :
    ringIndex q j ≠ ringIndex q k := by
  simp only [ringIndex]
  intro h
  have h1 : (q.rd.toNat + k - (q.rd.toNat + j)) % q.cap.toNat = 0 := Nat.sub_mod_eq_zero_of_mod_eq h.symm
  have h2 : q.rd.toNat + k - (q.rd.toNat + j) = k - j := by omega
  rw [h2, Nat.mod_eq_of_lt (by omega)] at h1
  omega

theorem RingWf.cnt_le {q : Ring} (h : RingWf q) : q.cnt.toNat ≤ q.cap.toNat := le_trans h.cnt_le_peak h.peak_le_cap

/-- A ring that is not full has room in its count. -/
theorem RingWf.cnt_lt {q : Ring} (h : RingWf q) (hf : q.cnt ≠ q.cap) : q.cnt.toNat < q.cap.toNat := by
  rcases Nat.lt_or_eq_of_le h.cnt_le with h | h
  · exact h
  · exact absurd (BitVec.eq_of_toNat_eq h) hf

/-- A ring that is not empty holds a frame. -/
theorem cnt_pos {q : Ring} (h : q.cnt ≠ 0) : 0 < q.cnt.toNat := by
  rcases Nat.eq_zero_or_pos q.cnt.toNat with h' | h'
  · exact absurd (BitVec.eq_of_toNat_eq h') h
  · exact h'

theorem pushed_cnt {q : Ring} (f : Frame) (h : q.cnt.toNat < q.cap.toNat) :
    (pushed q f).cnt.toNat = q.cnt.toNat + 1 := by
  have := q.cap.isLt
  simp only [pushed, BitVec.toNat_ofNat]
  omega

theorem pushed_peak {q : Ring} (f : Frame) (h : q.cnt.toNat < q.cap.toNat) :
    (pushed q f).peak.toNat = max q.peak.toNat (q.cnt.toNat + 1) := by
  have := q.cap.isLt
  simp only [pushed]
  split
  · simp only [BitVec.toNat_ofNat]; omega
  · omega

theorem ringIndex_pushed (q : Ring) (f : Frame) (k : Nat) : ringIndex (pushed q f) k = ringIndex q k := rfl

theorem popped_cnt {q : Ring} : (popped q).cnt.toNat = q.cnt.toNat - 1 := by
  have := q.cnt.isLt
  simp only [popped, BitVec.toNat_ofNat]
  omega

theorem popped_rd {q : Ring} (h : 0 < q.cap.toNat) : (popped q).rd.toNat = ringIndex q 1 := by
  have := q.cap.isLt
  have := ringIndex_lt h 1
  simp only [popped, BitVec.toNat_ofNat]
  omega

theorem ringIndex_popped {q : Ring} (h : 0 < q.cap.toNat) (k : Nat) :
    ringIndex (popped q) k = ringIndex q (k + 1) := by
  simp only [ringIndex, popped_cap, popped_rd h]
  rw [Nat.mod_add_mod]
  congr 1
  omega

/-- The oldest frame stands at the read index. -/
theorem ringIndex_zero {q : Ring} (h : RingWf q) (hc : 0 < q.cap.toNat) : ringIndex q 0 = q.rd.toNat := by
  rcases h.rd_lt with h' | h'
  · simp [ringIndex, Nat.mod_eq_of_lt h']
  · simp [h'.1] at hc

theorem ringWf_pushed {q : Ring} (f : Frame) (h : RingWf q) (hf : q.cnt ≠ q.cap) : RingWf (pushed q f) := by
  have hlt := h.cnt_lt hf
  have hc := pushed_cnt f hlt
  have hp := pushed_peak f hlt
  have := h.peak_le_cap
  have := h.cnt_le_peak
  constructor
  · exact h.rd_lt
  · omega
  · simp only [pushed_cap]; omega
  · exact write_wf _ _ h.mem_wf
  · intro e he
    rcases mem_write he with rfl | he
    · exact ringIndex_lt (by omega) _
    · exact h.mem_lt e he
  · intro k hk
    rw [hc] at hk
    rw [ringIndex_pushed]
    show ((q.mem.write (ringIndex q q.cnt.toNat) f).read? (ringIndex q k)).isSome = true
    rcases Nat.lt_or_eq_of_le (Nat.le_of_lt_succ hk) with hk' | rfl
    · exact read?_isSome_of_write (h.live k hk')
    · simp [read?_write_same]

theorem ringWf_popped {q : Ring} (h : RingWf q) (he : q.cnt ≠ 0) : RingWf (popped q) := by
  have hpos := cnt_pos he
  have hle := h.cnt_le
  have hcap : 0 < q.cap.toNat := by omega
  have := h.cnt_le_peak
  constructor
  · left; rw [popped_rd hcap]; exact ringIndex_lt hcap 1
  · rw [popped_cnt, popped_peak]; omega
  · exact h.peak_le_cap
  · exact h.mem_wf
  · exact h.mem_lt
  · intro k hk
    rw [popped_cnt] at hk
    rw [ringIndex_popped hcap]
    exact h.live (k + 1) (by omega)

theorem ringWf_qCreate (cap : BitVec 16) : RingWf (qCreate cap) := by
  constructor
  · by_cases h : cap = 0
    · right; exact ⟨h, rfl⟩
    · left
      show 0 < cap.toNat
      rcases Nat.eq_zero_or_pos cap.toNat with h' | h'
      · exact absurd (BitVec.eq_of_toNat_eq h') h
      · exact h'
  · simp [qCreate]
  · simp [qCreate]
  · simp [qCreate, Memory.wf]
  · simp [qCreate]
  · simp [qCreate]

theorem qDestroy_eq : qDestroy = Ring.zero := rfl

/-- A ring holds no frame exactly when its count is 0. -/
theorem queued_nil {q : Ring} : queued q = [] ↔ q.cnt = 0 := by
  simp only [queued, List.map_eq_nil_iff, List.range_eq_nil]
  exact ⟨fun h => BitVec.eq_of_toNat_eq h, fun h => by rw [h]; rfl⟩

/-- A push appends its frame to the live frames. -/
theorem queued_pushed {q : Ring} (f : Frame) (h : RingWf q) (hf : q.cnt ≠ q.cap) :
    queued (pushed q f) = queued q ++ [f] := by
  have hlt := h.cnt_lt hf
  simp only [queued, pushed_cnt f hlt, List.range_succ, List.map_append, List.map_cons, List.map_nil]
  congr 1
  · refine List.map_congr_left fun k hk => ?_
    have hk : k < q.cnt.toNat := List.mem_range.1 hk
    rw [ringIndex_pushed]
    show readFrame (q.mem.write (ringIndex q q.cnt.toNat) f) (ringIndex q k) = _
    rw [readFrame, readFrame, read?_write_other _ _ (ringIndex_inj hk (by omega))]
  · rw [ringIndex_pushed]
    show [readFrame (q.mem.write (ringIndex q q.cnt.toNat) f) (ringIndex q q.cnt.toNat)] = _
    simp [readFrame, read?_write_same]

/-- A pop takes the head of the live frames. -/
theorem queued_popped {q : Ring} (h : RingWf q) (he : q.cnt ≠ 0) :
    queued q = readFrame q.mem q.rd.toNat :: queued (popped q) := by
  have hpos := cnt_pos he
  have hle := h.cnt_le
  have hcap : 0 < q.cap.toNat := by omega
  obtain ⟨n, hn⟩ : ∃ n, q.cnt.toNat = n + 1 := ⟨q.cnt.toNat - 1, by omega⟩
  simp only [queued, popped_cnt, hn, List.range_succ_eq_map, List.map_cons, List.map_map, ringIndex_zero h hcap,
    popped_mem, Nat.add_sub_cancel]
  congr 1
  refine List.map_congr_left fun k _ => ?_
  simp [ringIndex_popped hcap]

end Sys2Proof.Machine
end

