-- ==== Sys2Proof/Laws/State.lean ====
section
/-! SUPPORT. What each named register update does to each field of the state: one lemma per field per update. -/

namespace Sys2Proof.Machine

/-! ## `setR0` -/

@[simp] theorem setR0_a0 (v : Word) (s : State) : (setR0 v s).a0 = s.a0 := rfl
@[simp] theorem setR0_a1 (v : Word) (s : State) : (setR0 v s).a1 = s.a1 := rfl
@[simp] theorem setR0_a2 (v : Word) (s : State) : (setR0 v s).a2 = s.a2 := rfl
@[simp] theorem setR0_a3 (v : Word) (s : State) : (setR0 v s).a3 = s.a3 := rfl
@[simp] theorem setR0_a4 (v : Word) (s : State) : (setR0 v s).a4 = s.a4 := rfl
@[simp] theorem setR0_r0 (v : Word) (s : State) : (setR0 v s).r0 = v := rfl
@[simp] theorem setR0_r1 (v : Word) (s : State) : (setR0 v s).r1 = s.r1 := rfl
@[simp] theorem setR0_life (v : Word) (s : State) : (setR0 v s).life = s.life := rfl
@[simp] theorem setR0_mode (v : Word) (s : State) : (setR0 v s).mode = s.mode := rfl
@[simp] theorem setR0_busy (v : Word) (s : State) : (setR0 v s).busy = s.busy := rfl
@[simp] theorem setR0_err (v : Word) (s : State) : (setR0 v s).err = s.err := rfl
@[simp] theorem setR0_waitpt (v : Word) (s : State) : (setR0 v s).waitpt = s.waitpt := rfl
@[simp] theorem setR0_gstat (v : Word) (s : State) : (setR0 v s).gstat = s.gstat := rfl
@[simp] theorem setR0_np (v : Word) (s : State) : (setR0 v s).np = s.np := rfl
@[simp] theorem setR0_ns (v : Word) (s : State) : (setR0 v s).ns = s.ns := rfl
@[simp] theorem setR0_nf (v : Word) (s : State) : (setR0 v s).nf = s.nf := rfl
@[simp] theorem setR0_act (v : Word) (s : State) : (setR0 v s).act = s.act := rfl
@[simp] theorem setR0_timing (v : Word) (s : State) : (setR0 v s).timing = s.timing := rfl
@[simp] theorem setR0_rxcap (v : Word) (s : State) : (setR0 v s).rxcap = s.rxcap := rfl
@[simp] theorem setR0_txcap (v : Word) (s : State) : (setR0 v s).txcap = s.txcap := rfl
@[simp] theorem setR0_fdPayload (v : Word) (s : State) : (setR0 v s).fdPayload = s.fdPayload := rfl
@[simp] theorem setR0_fdRxmb (v : Word) (s : State) : (setR0 v s).fdRxmb = s.fdRxmb := rfl
@[simp] theorem setR0_txpin (v : Word) (s : State) : (setR0 v s).txpin = s.txpin := rfl
@[simp] theorem setR0_rxpin (v : Word) (s : State) : (setR0 v s).rxpin = s.rxpin := rfl
@[simp] theorem setR0_txf (v : Word) (s : State) : (setR0 v s).txf = s.txf := rfl
@[simp] theorem setR0_rxf (v : Word) (s : State) : (setR0 v s).rxf = s.rxf := rfl
@[simp] theorem setR0_rxq (v : Word) (s : State) : (setR0 v s).rxq = s.rxq := rfl
@[simp] theorem setR0_txq (v : Word) (s : State) : (setR0 v s).txq = s.txq := rfl
@[simp] theorem setR0_sp (v : Word) (s : State) : (setR0 v s).sp = s.sp := rfl
@[simp] theorem setR0_ss (v : Word) (s : State) : (setR0 v s).ss = s.ss := rfl
@[simp] theorem setR0_sf (v : Word) (s : State) : (setR0 v s).sf = s.sf := rfl
@[simp] theorem setR0_nslot (v : Word) (s : State) : (setR0 v s).nslot = s.nslot := rfl
@[simp] theorem setR0_slot (v : Word) (s : State) : (setR0 v s).slot = s.slot := rfl
@[simp] theorem setR0_ncb (v : Word) (s : State) : (setR0 v s).ncb = s.ncb := rfl
@[simp] theorem setR0_cbt (v : Word) (s : State) : (setR0 v s).cbt = s.cbt := rfl
@[simp] theorem setR0_out (v : Word) (s : State) : (setR0 v s).out = s.out := rfl
@[simp] theorem setR0_par (v : Word) (s : State) : (setR0 v s).par = s.par := rfl
@[simp] theorem setR0_inputs (v : Word) (s : State) : (setR0 v s).inputs = s.inputs := rfl
@[simp] theorem setR0_port (v : Word) (s : State) : (setR0 v s).port = s.port := rfl
@[simp] theorem setR0_busData (v : Word) (s : State) : (setR0 v s).busData = s.busData := rfl

/-! ## `setPort` -/

@[simp] theorem setPort_a0 (p : Port) (s : State) : (setPort p s).a0 = s.a0 := rfl
@[simp] theorem setPort_a1 (p : Port) (s : State) : (setPort p s).a1 = s.a1 := rfl
@[simp] theorem setPort_a2 (p : Port) (s : State) : (setPort p s).a2 = s.a2 := rfl
@[simp] theorem setPort_a3 (p : Port) (s : State) : (setPort p s).a3 = s.a3 := rfl
@[simp] theorem setPort_a4 (p : Port) (s : State) : (setPort p s).a4 = s.a4 := rfl
@[simp] theorem setPort_r0 (p : Port) (s : State) : (setPort p s).r0 = s.r0 := rfl
@[simp] theorem setPort_r1 (p : Port) (s : State) : (setPort p s).r1 = s.r1 := rfl
@[simp] theorem setPort_life (p : Port) (s : State) : (setPort p s).life = s.life := rfl
@[simp] theorem setPort_mode (p : Port) (s : State) : (setPort p s).mode = s.mode := rfl
@[simp] theorem setPort_busy (p : Port) (s : State) : (setPort p s).busy = s.busy := rfl
@[simp] theorem setPort_err (p : Port) (s : State) : (setPort p s).err = s.err := rfl
@[simp] theorem setPort_waitpt (p : Port) (s : State) : (setPort p s).waitpt = s.waitpt := rfl
@[simp] theorem setPort_gstat (p : Port) (s : State) : (setPort p s).gstat = s.gstat := rfl
@[simp] theorem setPort_np (p : Port) (s : State) : (setPort p s).np = s.np := rfl
@[simp] theorem setPort_ns (p : Port) (s : State) : (setPort p s).ns = s.ns := rfl
@[simp] theorem setPort_nf (p : Port) (s : State) : (setPort p s).nf = s.nf := rfl
@[simp] theorem setPort_act (p : Port) (s : State) : (setPort p s).act = s.act := rfl
@[simp] theorem setPort_timing (p : Port) (s : State) : (setPort p s).timing = s.timing := rfl
@[simp] theorem setPort_rxcap (p : Port) (s : State) : (setPort p s).rxcap = s.rxcap := rfl
@[simp] theorem setPort_txcap (p : Port) (s : State) : (setPort p s).txcap = s.txcap := rfl
@[simp] theorem setPort_fdPayload (p : Port) (s : State) : (setPort p s).fdPayload = s.fdPayload := rfl
@[simp] theorem setPort_fdRxmb (p : Port) (s : State) : (setPort p s).fdRxmb = s.fdRxmb := rfl
@[simp] theorem setPort_txpin (p : Port) (s : State) : (setPort p s).txpin = s.txpin := rfl
@[simp] theorem setPort_rxpin (p : Port) (s : State) : (setPort p s).rxpin = s.rxpin := rfl
@[simp] theorem setPort_txf (p : Port) (s : State) : (setPort p s).txf = s.txf := rfl
@[simp] theorem setPort_rxf (p : Port) (s : State) : (setPort p s).rxf = s.rxf := rfl
@[simp] theorem setPort_rxq (p : Port) (s : State) : (setPort p s).rxq = s.rxq := rfl
@[simp] theorem setPort_txq (p : Port) (s : State) : (setPort p s).txq = s.txq := rfl
@[simp] theorem setPort_sp (p : Port) (s : State) : (setPort p s).sp = s.sp := rfl
@[simp] theorem setPort_ss (p : Port) (s : State) : (setPort p s).ss = s.ss := rfl
@[simp] theorem setPort_sf (p : Port) (s : State) : (setPort p s).sf = s.sf := rfl
@[simp] theorem setPort_nslot (p : Port) (s : State) : (setPort p s).nslot = s.nslot := rfl
@[simp] theorem setPort_slot (p : Port) (s : State) : (setPort p s).slot = s.slot := rfl
@[simp] theorem setPort_ncb (p : Port) (s : State) : (setPort p s).ncb = s.ncb := rfl
@[simp] theorem setPort_cbt (p : Port) (s : State) : (setPort p s).cbt = s.cbt := rfl
@[simp] theorem setPort_out (p : Port) (s : State) : (setPort p s).out = s.out := rfl
@[simp] theorem setPort_par (p : Port) (s : State) : (setPort p s).par = s.par := rfl
@[simp] theorem setPort_inputs (p : Port) (s : State) : (setPort p s).inputs = s.inputs := rfl
@[simp] theorem setPort_port (p : Port) (s : State) : (setPort p s).port = p := rfl
@[simp] theorem setPort_busData (p : Port) (s : State) : (setPort p s).busData = s.busData := rfl

/-! ## `setRxq` -/

@[simp] theorem setRxq_a0 (q : Ring) (s : State) : (setRxq q s).a0 = s.a0 := rfl
@[simp] theorem setRxq_a1 (q : Ring) (s : State) : (setRxq q s).a1 = s.a1 := rfl
@[simp] theorem setRxq_a2 (q : Ring) (s : State) : (setRxq q s).a2 = s.a2 := rfl
@[simp] theorem setRxq_a3 (q : Ring) (s : State) : (setRxq q s).a3 = s.a3 := rfl
@[simp] theorem setRxq_a4 (q : Ring) (s : State) : (setRxq q s).a4 = s.a4 := rfl
@[simp] theorem setRxq_r0 (q : Ring) (s : State) : (setRxq q s).r0 = s.r0 := rfl
@[simp] theorem setRxq_r1 (q : Ring) (s : State) : (setRxq q s).r1 = s.r1 := rfl
@[simp] theorem setRxq_life (q : Ring) (s : State) : (setRxq q s).life = s.life := rfl
@[simp] theorem setRxq_mode (q : Ring) (s : State) : (setRxq q s).mode = s.mode := rfl
@[simp] theorem setRxq_busy (q : Ring) (s : State) : (setRxq q s).busy = s.busy := rfl
@[simp] theorem setRxq_err (q : Ring) (s : State) : (setRxq q s).err = s.err := rfl
@[simp] theorem setRxq_waitpt (q : Ring) (s : State) : (setRxq q s).waitpt = s.waitpt := rfl
@[simp] theorem setRxq_gstat (q : Ring) (s : State) : (setRxq q s).gstat = s.gstat := rfl
@[simp] theorem setRxq_np (q : Ring) (s : State) : (setRxq q s).np = s.np := rfl
@[simp] theorem setRxq_ns (q : Ring) (s : State) : (setRxq q s).ns = s.ns := rfl
@[simp] theorem setRxq_nf (q : Ring) (s : State) : (setRxq q s).nf = s.nf := rfl
@[simp] theorem setRxq_act (q : Ring) (s : State) : (setRxq q s).act = s.act := rfl
@[simp] theorem setRxq_timing (q : Ring) (s : State) : (setRxq q s).timing = s.timing := rfl
@[simp] theorem setRxq_rxcap (q : Ring) (s : State) : (setRxq q s).rxcap = s.rxcap := rfl
@[simp] theorem setRxq_txcap (q : Ring) (s : State) : (setRxq q s).txcap = s.txcap := rfl
@[simp] theorem setRxq_fdPayload (q : Ring) (s : State) : (setRxq q s).fdPayload = s.fdPayload := rfl
@[simp] theorem setRxq_fdRxmb (q : Ring) (s : State) : (setRxq q s).fdRxmb = s.fdRxmb := rfl
@[simp] theorem setRxq_txpin (q : Ring) (s : State) : (setRxq q s).txpin = s.txpin := rfl
@[simp] theorem setRxq_rxpin (q : Ring) (s : State) : (setRxq q s).rxpin = s.rxpin := rfl
@[simp] theorem setRxq_txf (q : Ring) (s : State) : (setRxq q s).txf = s.txf := rfl
@[simp] theorem setRxq_rxf (q : Ring) (s : State) : (setRxq q s).rxf = s.rxf := rfl
@[simp] theorem setRxq_rxq (q : Ring) (s : State) : (setRxq q s).rxq = q := rfl
@[simp] theorem setRxq_txq (q : Ring) (s : State) : (setRxq q s).txq = s.txq := rfl
@[simp] theorem setRxq_sp (q : Ring) (s : State) : (setRxq q s).sp = s.sp := rfl
@[simp] theorem setRxq_ss (q : Ring) (s : State) : (setRxq q s).ss = s.ss := rfl
@[simp] theorem setRxq_sf (q : Ring) (s : State) : (setRxq q s).sf = s.sf := rfl
@[simp] theorem setRxq_nslot (q : Ring) (s : State) : (setRxq q s).nslot = s.nslot := rfl
@[simp] theorem setRxq_slot (q : Ring) (s : State) : (setRxq q s).slot = s.slot := rfl
@[simp] theorem setRxq_ncb (q : Ring) (s : State) : (setRxq q s).ncb = s.ncb := rfl
@[simp] theorem setRxq_cbt (q : Ring) (s : State) : (setRxq q s).cbt = s.cbt := rfl
@[simp] theorem setRxq_out (q : Ring) (s : State) : (setRxq q s).out = s.out := rfl
@[simp] theorem setRxq_par (q : Ring) (s : State) : (setRxq q s).par = s.par := rfl
@[simp] theorem setRxq_inputs (q : Ring) (s : State) : (setRxq q s).inputs = s.inputs := rfl
@[simp] theorem setRxq_port (q : Ring) (s : State) : (setRxq q s).port = s.port := rfl
@[simp] theorem setRxq_busData (q : Ring) (s : State) : (setRxq q s).busData = s.busData := rfl

/-! ## `setTxq` -/

@[simp] theorem setTxq_a0 (q : Ring) (s : State) : (setTxq q s).a0 = s.a0 := rfl
@[simp] theorem setTxq_a1 (q : Ring) (s : State) : (setTxq q s).a1 = s.a1 := rfl
@[simp] theorem setTxq_a2 (q : Ring) (s : State) : (setTxq q s).a2 = s.a2 := rfl
@[simp] theorem setTxq_a3 (q : Ring) (s : State) : (setTxq q s).a3 = s.a3 := rfl
@[simp] theorem setTxq_a4 (q : Ring) (s : State) : (setTxq q s).a4 = s.a4 := rfl
@[simp] theorem setTxq_r0 (q : Ring) (s : State) : (setTxq q s).r0 = s.r0 := rfl
@[simp] theorem setTxq_r1 (q : Ring) (s : State) : (setTxq q s).r1 = s.r1 := rfl
@[simp] theorem setTxq_life (q : Ring) (s : State) : (setTxq q s).life = s.life := rfl
@[simp] theorem setTxq_mode (q : Ring) (s : State) : (setTxq q s).mode = s.mode := rfl
@[simp] theorem setTxq_busy (q : Ring) (s : State) : (setTxq q s).busy = s.busy := rfl
@[simp] theorem setTxq_err (q : Ring) (s : State) : (setTxq q s).err = s.err := rfl
@[simp] theorem setTxq_waitpt (q : Ring) (s : State) : (setTxq q s).waitpt = s.waitpt := rfl
@[simp] theorem setTxq_gstat (q : Ring) (s : State) : (setTxq q s).gstat = s.gstat := rfl
@[simp] theorem setTxq_np (q : Ring) (s : State) : (setTxq q s).np = s.np := rfl
@[simp] theorem setTxq_ns (q : Ring) (s : State) : (setTxq q s).ns = s.ns := rfl
@[simp] theorem setTxq_nf (q : Ring) (s : State) : (setTxq q s).nf = s.nf := rfl
@[simp] theorem setTxq_act (q : Ring) (s : State) : (setTxq q s).act = s.act := rfl
@[simp] theorem setTxq_timing (q : Ring) (s : State) : (setTxq q s).timing = s.timing := rfl
@[simp] theorem setTxq_rxcap (q : Ring) (s : State) : (setTxq q s).rxcap = s.rxcap := rfl
@[simp] theorem setTxq_txcap (q : Ring) (s : State) : (setTxq q s).txcap = s.txcap := rfl
@[simp] theorem setTxq_fdPayload (q : Ring) (s : State) : (setTxq q s).fdPayload = s.fdPayload := rfl
@[simp] theorem setTxq_fdRxmb (q : Ring) (s : State) : (setTxq q s).fdRxmb = s.fdRxmb := rfl
@[simp] theorem setTxq_txpin (q : Ring) (s : State) : (setTxq q s).txpin = s.txpin := rfl
@[simp] theorem setTxq_rxpin (q : Ring) (s : State) : (setTxq q s).rxpin = s.rxpin := rfl
@[simp] theorem setTxq_txf (q : Ring) (s : State) : (setTxq q s).txf = s.txf := rfl
@[simp] theorem setTxq_rxf (q : Ring) (s : State) : (setTxq q s).rxf = s.rxf := rfl
@[simp] theorem setTxq_rxq (q : Ring) (s : State) : (setTxq q s).rxq = s.rxq := rfl
@[simp] theorem setTxq_txq (q : Ring) (s : State) : (setTxq q s).txq = q := rfl
@[simp] theorem setTxq_sp (q : Ring) (s : State) : (setTxq q s).sp = s.sp := rfl
@[simp] theorem setTxq_ss (q : Ring) (s : State) : (setTxq q s).ss = s.ss := rfl
@[simp] theorem setTxq_sf (q : Ring) (s : State) : (setTxq q s).sf = s.sf := rfl
@[simp] theorem setTxq_nslot (q : Ring) (s : State) : (setTxq q s).nslot = s.nslot := rfl
@[simp] theorem setTxq_slot (q : Ring) (s : State) : (setTxq q s).slot = s.slot := rfl
@[simp] theorem setTxq_ncb (q : Ring) (s : State) : (setTxq q s).ncb = s.ncb := rfl
@[simp] theorem setTxq_cbt (q : Ring) (s : State) : (setTxq q s).cbt = s.cbt := rfl
@[simp] theorem setTxq_out (q : Ring) (s : State) : (setTxq q s).out = s.out := rfl
@[simp] theorem setTxq_par (q : Ring) (s : State) : (setTxq q s).par = s.par := rfl
@[simp] theorem setTxq_inputs (q : Ring) (s : State) : (setTxq q s).inputs = s.inputs := rfl
@[simp] theorem setTxq_port (q : Ring) (s : State) : (setTxq q s).port = s.port := rfl
@[simp] theorem setTxq_busData (q : Ring) (s : State) : (setTxq q s).busData = s.busData := rfl

/-! ## `setLife` -/

@[simp] theorem setLife_a0 (l : Life) (b : Bool) (w : WaitPt) (s : State) : (setLife l b w s).a0 = s.a0 := rfl
@[simp] theorem setLife_a1 (l : Life) (b : Bool) (w : WaitPt) (s : State) : (setLife l b w s).a1 = s.a1 := rfl
@[simp] theorem setLife_a2 (l : Life) (b : Bool) (w : WaitPt) (s : State) : (setLife l b w s).a2 = s.a2 := rfl
@[simp] theorem setLife_a3 (l : Life) (b : Bool) (w : WaitPt) (s : State) : (setLife l b w s).a3 = s.a3 := rfl
@[simp] theorem setLife_a4 (l : Life) (b : Bool) (w : WaitPt) (s : State) : (setLife l b w s).a4 = s.a4 := rfl
@[simp] theorem setLife_r0 (l : Life) (b : Bool) (w : WaitPt) (s : State) : (setLife l b w s).r0 = s.r0 := rfl
@[simp] theorem setLife_r1 (l : Life) (b : Bool) (w : WaitPt) (s : State) : (setLife l b w s).r1 = s.r1 := rfl
@[simp] theorem setLife_life (l : Life) (b : Bool) (w : WaitPt) (s : State) : (setLife l b w s).life = l := rfl
@[simp] theorem setLife_mode (l : Life) (b : Bool) (w : WaitPt) (s : State) : (setLife l b w s).mode = s.mode := rfl
@[simp] theorem setLife_busy (l : Life) (b : Bool) (w : WaitPt) (s : State) : (setLife l b w s).busy = b := rfl
@[simp] theorem setLife_err (l : Life) (b : Bool) (w : WaitPt) (s : State) : (setLife l b w s).err = s.err := rfl
@[simp] theorem setLife_waitpt (l : Life) (b : Bool) (w : WaitPt) (s : State) : (setLife l b w s).waitpt = w := rfl
@[simp] theorem setLife_gstat (l : Life) (b : Bool) (w : WaitPt) (s : State) :
    (setLife l b w s).gstat = s.gstat := rfl
@[simp] theorem setLife_np (l : Life) (b : Bool) (w : WaitPt) (s : State) : (setLife l b w s).np = s.np := rfl
@[simp] theorem setLife_ns (l : Life) (b : Bool) (w : WaitPt) (s : State) : (setLife l b w s).ns = s.ns := rfl
@[simp] theorem setLife_nf (l : Life) (b : Bool) (w : WaitPt) (s : State) : (setLife l b w s).nf = s.nf := rfl
@[simp] theorem setLife_act (l : Life) (b : Bool) (w : WaitPt) (s : State) : (setLife l b w s).act = s.act := rfl
@[simp] theorem setLife_timing (l : Life) (b : Bool) (w : WaitPt) (s : State) :
    (setLife l b w s).timing = s.timing := rfl
@[simp] theorem setLife_rxcap (l : Life) (b : Bool) (w : WaitPt) (s : State) :
    (setLife l b w s).rxcap = s.rxcap := rfl
@[simp] theorem setLife_txcap (l : Life) (b : Bool) (w : WaitPt) (s : State) :
    (setLife l b w s).txcap = s.txcap := rfl
@[simp] theorem setLife_fdPayload (l : Life) (b : Bool) (w : WaitPt) (s : State) :
    (setLife l b w s).fdPayload = s.fdPayload := rfl
@[simp] theorem setLife_fdRxmb (l : Life) (b : Bool) (w : WaitPt) (s : State) :
    (setLife l b w s).fdRxmb = s.fdRxmb := rfl
@[simp] theorem setLife_txpin (l : Life) (b : Bool) (w : WaitPt) (s : State) :
    (setLife l b w s).txpin = s.txpin := rfl
@[simp] theorem setLife_rxpin (l : Life) (b : Bool) (w : WaitPt) (s : State) :
    (setLife l b w s).rxpin = s.rxpin := rfl
@[simp] theorem setLife_txf (l : Life) (b : Bool) (w : WaitPt) (s : State) : (setLife l b w s).txf = s.txf := rfl
@[simp] theorem setLife_rxf (l : Life) (b : Bool) (w : WaitPt) (s : State) : (setLife l b w s).rxf = s.rxf := rfl
@[simp] theorem setLife_rxq (l : Life) (b : Bool) (w : WaitPt) (s : State) : (setLife l b w s).rxq = s.rxq := rfl
@[simp] theorem setLife_txq (l : Life) (b : Bool) (w : WaitPt) (s : State) : (setLife l b w s).txq = s.txq := rfl
@[simp] theorem setLife_sp (l : Life) (b : Bool) (w : WaitPt) (s : State) : (setLife l b w s).sp = s.sp := rfl
@[simp] theorem setLife_ss (l : Life) (b : Bool) (w : WaitPt) (s : State) : (setLife l b w s).ss = s.ss := rfl
@[simp] theorem setLife_sf (l : Life) (b : Bool) (w : WaitPt) (s : State) : (setLife l b w s).sf = s.sf := rfl
@[simp] theorem setLife_nslot (l : Life) (b : Bool) (w : WaitPt) (s : State) :
    (setLife l b w s).nslot = s.nslot := rfl
@[simp] theorem setLife_slot (l : Life) (b : Bool) (w : WaitPt) (s : State) : (setLife l b w s).slot = s.slot := rfl
@[simp] theorem setLife_ncb (l : Life) (b : Bool) (w : WaitPt) (s : State) : (setLife l b w s).ncb = s.ncb := rfl
@[simp] theorem setLife_cbt (l : Life) (b : Bool) (w : WaitPt) (s : State) : (setLife l b w s).cbt = s.cbt := rfl
@[simp] theorem setLife_out (l : Life) (b : Bool) (w : WaitPt) (s : State) : (setLife l b w s).out = s.out := rfl
@[simp] theorem setLife_par (l : Life) (b : Bool) (w : WaitPt) (s : State) : (setLife l b w s).par = s.par := rfl
@[simp] theorem setLife_inputs (l : Life) (b : Bool) (w : WaitPt) (s : State) :
    (setLife l b w s).inputs = s.inputs := rfl
@[simp] theorem setLife_port (l : Life) (b : Bool) (w : WaitPt) (s : State) : (setLife l b w s).port = s.port := rfl
@[simp] theorem setLife_busData (l : Life) (b : Bool) (w : WaitPt) (s : State) :
    (setLife l b w s).busData = s.busData := rfl

/-! ## `setMode` -/

@[simp] theorem setMode_a0 (m : Mode) (s : State) : (setMode m s).a0 = s.a0 := rfl
@[simp] theorem setMode_a1 (m : Mode) (s : State) : (setMode m s).a1 = s.a1 := rfl
@[simp] theorem setMode_a2 (m : Mode) (s : State) : (setMode m s).a2 = s.a2 := rfl
@[simp] theorem setMode_a3 (m : Mode) (s : State) : (setMode m s).a3 = s.a3 := rfl
@[simp] theorem setMode_a4 (m : Mode) (s : State) : (setMode m s).a4 = s.a4 := rfl
@[simp] theorem setMode_r0 (m : Mode) (s : State) : (setMode m s).r0 = s.r0 := rfl
@[simp] theorem setMode_r1 (m : Mode) (s : State) : (setMode m s).r1 = s.r1 := rfl
@[simp] theorem setMode_life (m : Mode) (s : State) : (setMode m s).life = s.life := rfl
@[simp] theorem setMode_mode (m : Mode) (s : State) : (setMode m s).mode = m := rfl
@[simp] theorem setMode_busy (m : Mode) (s : State) : (setMode m s).busy = s.busy := rfl
@[simp] theorem setMode_err (m : Mode) (s : State) : (setMode m s).err = s.err := rfl
@[simp] theorem setMode_waitpt (m : Mode) (s : State) : (setMode m s).waitpt = s.waitpt := rfl
@[simp] theorem setMode_gstat (m : Mode) (s : State) : (setMode m s).gstat = s.gstat := rfl
@[simp] theorem setMode_np (m : Mode) (s : State) : (setMode m s).np = s.np := rfl
@[simp] theorem setMode_ns (m : Mode) (s : State) : (setMode m s).ns = s.ns := rfl
@[simp] theorem setMode_nf (m : Mode) (s : State) : (setMode m s).nf = s.nf := rfl
@[simp] theorem setMode_act (m : Mode) (s : State) : (setMode m s).act = s.act := rfl
@[simp] theorem setMode_timing (m : Mode) (s : State) : (setMode m s).timing = s.timing := rfl
@[simp] theorem setMode_rxcap (m : Mode) (s : State) : (setMode m s).rxcap = s.rxcap := rfl
@[simp] theorem setMode_txcap (m : Mode) (s : State) : (setMode m s).txcap = s.txcap := rfl
@[simp] theorem setMode_fdPayload (m : Mode) (s : State) : (setMode m s).fdPayload = s.fdPayload := rfl
@[simp] theorem setMode_fdRxmb (m : Mode) (s : State) : (setMode m s).fdRxmb = s.fdRxmb := rfl
@[simp] theorem setMode_txpin (m : Mode) (s : State) : (setMode m s).txpin = s.txpin := rfl
@[simp] theorem setMode_rxpin (m : Mode) (s : State) : (setMode m s).rxpin = s.rxpin := rfl
@[simp] theorem setMode_txf (m : Mode) (s : State) : (setMode m s).txf = s.txf := rfl
@[simp] theorem setMode_rxf (m : Mode) (s : State) : (setMode m s).rxf = s.rxf := rfl
@[simp] theorem setMode_rxq (m : Mode) (s : State) : (setMode m s).rxq = s.rxq := rfl
@[simp] theorem setMode_txq (m : Mode) (s : State) : (setMode m s).txq = s.txq := rfl
@[simp] theorem setMode_sp (m : Mode) (s : State) : (setMode m s).sp = s.sp := rfl
@[simp] theorem setMode_ss (m : Mode) (s : State) : (setMode m s).ss = s.ss := rfl
@[simp] theorem setMode_sf (m : Mode) (s : State) : (setMode m s).sf = s.sf := rfl
@[simp] theorem setMode_nslot (m : Mode) (s : State) : (setMode m s).nslot = s.nslot := rfl
@[simp] theorem setMode_slot (m : Mode) (s : State) : (setMode m s).slot = s.slot := rfl
@[simp] theorem setMode_ncb (m : Mode) (s : State) : (setMode m s).ncb = s.ncb := rfl
@[simp] theorem setMode_cbt (m : Mode) (s : State) : (setMode m s).cbt = s.cbt := rfl
@[simp] theorem setMode_out (m : Mode) (s : State) : (setMode m s).out = s.out := rfl
@[simp] theorem setMode_par (m : Mode) (s : State) : (setMode m s).par = s.par := rfl
@[simp] theorem setMode_inputs (m : Mode) (s : State) : (setMode m s).inputs = s.inputs := rfl
@[simp] theorem setMode_port (m : Mode) (s : State) : (setMode m s).port = s.port := rfl
@[simp] theorem setMode_busData (m : Mode) (s : State) : (setMode m s).busData = s.busData := rfl

/-! ## `setGstat` -/

@[simp] theorem setGstat_a0 (g : BitVec 4) (s : State) : (setGstat g s).a0 = s.a0 := rfl
@[simp] theorem setGstat_a1 (g : BitVec 4) (s : State) : (setGstat g s).a1 = s.a1 := rfl
@[simp] theorem setGstat_a2 (g : BitVec 4) (s : State) : (setGstat g s).a2 = s.a2 := rfl
@[simp] theorem setGstat_a3 (g : BitVec 4) (s : State) : (setGstat g s).a3 = s.a3 := rfl
@[simp] theorem setGstat_a4 (g : BitVec 4) (s : State) : (setGstat g s).a4 = s.a4 := rfl
@[simp] theorem setGstat_r0 (g : BitVec 4) (s : State) : (setGstat g s).r0 = s.r0 := rfl
@[simp] theorem setGstat_r1 (g : BitVec 4) (s : State) : (setGstat g s).r1 = s.r1 := rfl
@[simp] theorem setGstat_life (g : BitVec 4) (s : State) : (setGstat g s).life = s.life := rfl
@[simp] theorem setGstat_mode (g : BitVec 4) (s : State) : (setGstat g s).mode = s.mode := rfl
@[simp] theorem setGstat_busy (g : BitVec 4) (s : State) : (setGstat g s).busy = s.busy := rfl
@[simp] theorem setGstat_err (g : BitVec 4) (s : State) : (setGstat g s).err = s.err := rfl
@[simp] theorem setGstat_waitpt (g : BitVec 4) (s : State) : (setGstat g s).waitpt = s.waitpt := rfl
@[simp] theorem setGstat_gstat (g : BitVec 4) (s : State) : (setGstat g s).gstat = g := rfl
@[simp] theorem setGstat_np (g : BitVec 4) (s : State) : (setGstat g s).np = s.np := rfl
@[simp] theorem setGstat_ns (g : BitVec 4) (s : State) : (setGstat g s).ns = s.ns := rfl
@[simp] theorem setGstat_nf (g : BitVec 4) (s : State) : (setGstat g s).nf = s.nf := rfl
@[simp] theorem setGstat_act (g : BitVec 4) (s : State) : (setGstat g s).act = s.act := rfl
@[simp] theorem setGstat_timing (g : BitVec 4) (s : State) : (setGstat g s).timing = s.timing := rfl
@[simp] theorem setGstat_rxcap (g : BitVec 4) (s : State) : (setGstat g s).rxcap = s.rxcap := rfl
@[simp] theorem setGstat_txcap (g : BitVec 4) (s : State) : (setGstat g s).txcap = s.txcap := rfl
@[simp] theorem setGstat_fdPayload (g : BitVec 4) (s : State) : (setGstat g s).fdPayload = s.fdPayload := rfl
@[simp] theorem setGstat_fdRxmb (g : BitVec 4) (s : State) : (setGstat g s).fdRxmb = s.fdRxmb := rfl
@[simp] theorem setGstat_txpin (g : BitVec 4) (s : State) : (setGstat g s).txpin = s.txpin := rfl
@[simp] theorem setGstat_rxpin (g : BitVec 4) (s : State) : (setGstat g s).rxpin = s.rxpin := rfl
@[simp] theorem setGstat_txf (g : BitVec 4) (s : State) : (setGstat g s).txf = s.txf := rfl
@[simp] theorem setGstat_rxf (g : BitVec 4) (s : State) : (setGstat g s).rxf = s.rxf := rfl
@[simp] theorem setGstat_rxq (g : BitVec 4) (s : State) : (setGstat g s).rxq = s.rxq := rfl
@[simp] theorem setGstat_txq (g : BitVec 4) (s : State) : (setGstat g s).txq = s.txq := rfl
@[simp] theorem setGstat_sp (g : BitVec 4) (s : State) : (setGstat g s).sp = s.sp := rfl
@[simp] theorem setGstat_ss (g : BitVec 4) (s : State) : (setGstat g s).ss = s.ss := rfl
@[simp] theorem setGstat_sf (g : BitVec 4) (s : State) : (setGstat g s).sf = s.sf := rfl
@[simp] theorem setGstat_nslot (g : BitVec 4) (s : State) : (setGstat g s).nslot = s.nslot := rfl
@[simp] theorem setGstat_slot (g : BitVec 4) (s : State) : (setGstat g s).slot = s.slot := rfl
@[simp] theorem setGstat_ncb (g : BitVec 4) (s : State) : (setGstat g s).ncb = s.ncb := rfl
@[simp] theorem setGstat_cbt (g : BitVec 4) (s : State) : (setGstat g s).cbt = s.cbt := rfl
@[simp] theorem setGstat_out (g : BitVec 4) (s : State) : (setGstat g s).out = s.out := rfl
@[simp] theorem setGstat_par (g : BitVec 4) (s : State) : (setGstat g s).par = s.par := rfl
@[simp] theorem setGstat_inputs (g : BitVec 4) (s : State) : (setGstat g s).inputs = s.inputs := rfl
@[simp] theorem setGstat_port (g : BitVec 4) (s : State) : (setGstat g s).port = s.port := rfl
@[simp] theorem setGstat_busData (g : BitVec 4) (s : State) : (setGstat g s).busData = s.busData := rfl

/-! ## `setAct` -/

@[simp] theorem setAct_a0 (a : ActCfg) (s : State) : (setAct a s).a0 = s.a0 := rfl
@[simp] theorem setAct_a1 (a : ActCfg) (s : State) : (setAct a s).a1 = s.a1 := rfl
@[simp] theorem setAct_a2 (a : ActCfg) (s : State) : (setAct a s).a2 = s.a2 := rfl
@[simp] theorem setAct_a3 (a : ActCfg) (s : State) : (setAct a s).a3 = s.a3 := rfl
@[simp] theorem setAct_a4 (a : ActCfg) (s : State) : (setAct a s).a4 = s.a4 := rfl
@[simp] theorem setAct_r0 (a : ActCfg) (s : State) : (setAct a s).r0 = s.r0 := rfl
@[simp] theorem setAct_r1 (a : ActCfg) (s : State) : (setAct a s).r1 = s.r1 := rfl
@[simp] theorem setAct_life (a : ActCfg) (s : State) : (setAct a s).life = s.life := rfl
@[simp] theorem setAct_mode (a : ActCfg) (s : State) : (setAct a s).mode = s.mode := rfl
@[simp] theorem setAct_busy (a : ActCfg) (s : State) : (setAct a s).busy = s.busy := rfl
@[simp] theorem setAct_err (a : ActCfg) (s : State) : (setAct a s).err = s.err := rfl
@[simp] theorem setAct_waitpt (a : ActCfg) (s : State) : (setAct a s).waitpt = s.waitpt := rfl
@[simp] theorem setAct_gstat (a : ActCfg) (s : State) : (setAct a s).gstat = s.gstat := rfl
@[simp] theorem setAct_np (a : ActCfg) (s : State) : (setAct a s).np = s.np := rfl
@[simp] theorem setAct_ns (a : ActCfg) (s : State) : (setAct a s).ns = s.ns := rfl
@[simp] theorem setAct_nf (a : ActCfg) (s : State) : (setAct a s).nf = s.nf := rfl
@[simp] theorem setAct_act (a : ActCfg) (s : State) : (setAct a s).act = a := rfl
@[simp] theorem setAct_timing (a : ActCfg) (s : State) : (setAct a s).timing = s.timing := rfl
@[simp] theorem setAct_rxcap (a : ActCfg) (s : State) : (setAct a s).rxcap = s.rxcap := rfl
@[simp] theorem setAct_txcap (a : ActCfg) (s : State) : (setAct a s).txcap = s.txcap := rfl
@[simp] theorem setAct_fdPayload (a : ActCfg) (s : State) : (setAct a s).fdPayload = s.fdPayload := rfl
@[simp] theorem setAct_fdRxmb (a : ActCfg) (s : State) : (setAct a s).fdRxmb = s.fdRxmb := rfl
@[simp] theorem setAct_txpin (a : ActCfg) (s : State) : (setAct a s).txpin = s.txpin := rfl
@[simp] theorem setAct_rxpin (a : ActCfg) (s : State) : (setAct a s).rxpin = s.rxpin := rfl
@[simp] theorem setAct_txf (a : ActCfg) (s : State) : (setAct a s).txf = s.txf := rfl
@[simp] theorem setAct_rxf (a : ActCfg) (s : State) : (setAct a s).rxf = s.rxf := rfl
@[simp] theorem setAct_rxq (a : ActCfg) (s : State) : (setAct a s).rxq = s.rxq := rfl
@[simp] theorem setAct_txq (a : ActCfg) (s : State) : (setAct a s).txq = s.txq := rfl
@[simp] theorem setAct_sp (a : ActCfg) (s : State) : (setAct a s).sp = s.sp := rfl
@[simp] theorem setAct_ss (a : ActCfg) (s : State) : (setAct a s).ss = s.ss := rfl
@[simp] theorem setAct_sf (a : ActCfg) (s : State) : (setAct a s).sf = s.sf := rfl
@[simp] theorem setAct_nslot (a : ActCfg) (s : State) : (setAct a s).nslot = s.nslot := rfl
@[simp] theorem setAct_slot (a : ActCfg) (s : State) : (setAct a s).slot = s.slot := rfl
@[simp] theorem setAct_ncb (a : ActCfg) (s : State) : (setAct a s).ncb = s.ncb := rfl
@[simp] theorem setAct_cbt (a : ActCfg) (s : State) : (setAct a s).cbt = s.cbt := rfl
@[simp] theorem setAct_out (a : ActCfg) (s : State) : (setAct a s).out = s.out := rfl
@[simp] theorem setAct_par (a : ActCfg) (s : State) : (setAct a s).par = s.par := rfl
@[simp] theorem setAct_inputs (a : ActCfg) (s : State) : (setAct a s).inputs = s.inputs := rfl
@[simp] theorem setAct_port (a : ActCfg) (s : State) : (setAct a s).port = s.port := rfl
@[simp] theorem setAct_busData (a : ActCfg) (s : State) : (setAct a s).busData = s.busData := rfl

/-! ## `setTables` -/

@[simp] theorem setTables_a0 (n : Nat) (sl : Memory FilterPair) (k : Nat) (cb : Memory Word) (s : State) :
    (setTables n sl k cb s).a0 = s.a0 := rfl
@[simp] theorem setTables_a1 (n : Nat) (sl : Memory FilterPair) (k : Nat) (cb : Memory Word) (s : State) :
    (setTables n sl k cb s).a1 = s.a1 := rfl
@[simp] theorem setTables_a2 (n : Nat) (sl : Memory FilterPair) (k : Nat) (cb : Memory Word) (s : State) :
    (setTables n sl k cb s).a2 = s.a2 := rfl
@[simp] theorem setTables_a3 (n : Nat) (sl : Memory FilterPair) (k : Nat) (cb : Memory Word) (s : State) :
    (setTables n sl k cb s).a3 = s.a3 := rfl
@[simp] theorem setTables_a4 (n : Nat) (sl : Memory FilterPair) (k : Nat) (cb : Memory Word) (s : State) :
    (setTables n sl k cb s).a4 = s.a4 := rfl
@[simp] theorem setTables_r0 (n : Nat) (sl : Memory FilterPair) (k : Nat) (cb : Memory Word) (s : State) :
    (setTables n sl k cb s).r0 = s.r0 := rfl
@[simp] theorem setTables_r1 (n : Nat) (sl : Memory FilterPair) (k : Nat) (cb : Memory Word) (s : State) :
    (setTables n sl k cb s).r1 = s.r1 := rfl
@[simp] theorem setTables_life (n : Nat) (sl : Memory FilterPair) (k : Nat) (cb : Memory Word) (s : State) :
    (setTables n sl k cb s).life = s.life := rfl
@[simp] theorem setTables_mode (n : Nat) (sl : Memory FilterPair) (k : Nat) (cb : Memory Word) (s : State) :
    (setTables n sl k cb s).mode = s.mode := rfl
@[simp] theorem setTables_busy (n : Nat) (sl : Memory FilterPair) (k : Nat) (cb : Memory Word) (s : State) :
    (setTables n sl k cb s).busy = s.busy := rfl
@[simp] theorem setTables_err (n : Nat) (sl : Memory FilterPair) (k : Nat) (cb : Memory Word) (s : State) :
    (setTables n sl k cb s).err = s.err := rfl
@[simp] theorem setTables_waitpt (n : Nat) (sl : Memory FilterPair) (k : Nat) (cb : Memory Word) (s : State) :
    (setTables n sl k cb s).waitpt = s.waitpt := rfl
@[simp] theorem setTables_gstat (n : Nat) (sl : Memory FilterPair) (k : Nat) (cb : Memory Word) (s : State) :
    (setTables n sl k cb s).gstat = s.gstat := rfl
@[simp] theorem setTables_np (n : Nat) (sl : Memory FilterPair) (k : Nat) (cb : Memory Word) (s : State) :
    (setTables n sl k cb s).np = s.np := rfl
@[simp] theorem setTables_ns (n : Nat) (sl : Memory FilterPair) (k : Nat) (cb : Memory Word) (s : State) :
    (setTables n sl k cb s).ns = s.ns := rfl
@[simp] theorem setTables_nf (n : Nat) (sl : Memory FilterPair) (k : Nat) (cb : Memory Word) (s : State) :
    (setTables n sl k cb s).nf = s.nf := rfl
@[simp] theorem setTables_act (n : Nat) (sl : Memory FilterPair) (k : Nat) (cb : Memory Word) (s : State) :
    (setTables n sl k cb s).act = s.act := rfl
@[simp] theorem setTables_timing (n : Nat) (sl : Memory FilterPair) (k : Nat) (cb : Memory Word) (s : State) :
    (setTables n sl k cb s).timing = s.timing := rfl
@[simp] theorem setTables_rxcap (n : Nat) (sl : Memory FilterPair) (k : Nat) (cb : Memory Word) (s : State) :
    (setTables n sl k cb s).rxcap = s.rxcap := rfl
@[simp] theorem setTables_txcap (n : Nat) (sl : Memory FilterPair) (k : Nat) (cb : Memory Word) (s : State) :
    (setTables n sl k cb s).txcap = s.txcap := rfl
@[simp] theorem setTables_fdPayload (n : Nat) (sl : Memory FilterPair) (k : Nat) (cb : Memory Word) (s : State) :
    (setTables n sl k cb s).fdPayload = s.fdPayload := rfl
@[simp] theorem setTables_fdRxmb (n : Nat) (sl : Memory FilterPair) (k : Nat) (cb : Memory Word) (s : State) :
    (setTables n sl k cb s).fdRxmb = s.fdRxmb := rfl
@[simp] theorem setTables_txpin (n : Nat) (sl : Memory FilterPair) (k : Nat) (cb : Memory Word) (s : State) :
    (setTables n sl k cb s).txpin = s.txpin := rfl
@[simp] theorem setTables_rxpin (n : Nat) (sl : Memory FilterPair) (k : Nat) (cb : Memory Word) (s : State) :
    (setTables n sl k cb s).rxpin = s.rxpin := rfl
@[simp] theorem setTables_txf (n : Nat) (sl : Memory FilterPair) (k : Nat) (cb : Memory Word) (s : State) :
    (setTables n sl k cb s).txf = s.txf := rfl
@[simp] theorem setTables_rxf (n : Nat) (sl : Memory FilterPair) (k : Nat) (cb : Memory Word) (s : State) :
    (setTables n sl k cb s).rxf = s.rxf := rfl
@[simp] theorem setTables_rxq (n : Nat) (sl : Memory FilterPair) (k : Nat) (cb : Memory Word) (s : State) :
    (setTables n sl k cb s).rxq = s.rxq := rfl
@[simp] theorem setTables_txq (n : Nat) (sl : Memory FilterPair) (k : Nat) (cb : Memory Word) (s : State) :
    (setTables n sl k cb s).txq = s.txq := rfl
@[simp] theorem setTables_sp (n : Nat) (sl : Memory FilterPair) (k : Nat) (cb : Memory Word) (s : State) :
    (setTables n sl k cb s).sp = s.sp := rfl
@[simp] theorem setTables_ss (n : Nat) (sl : Memory FilterPair) (k : Nat) (cb : Memory Word) (s : State) :
    (setTables n sl k cb s).ss = s.ss := rfl
@[simp] theorem setTables_sf (n : Nat) (sl : Memory FilterPair) (k : Nat) (cb : Memory Word) (s : State) :
    (setTables n sl k cb s).sf = s.sf := rfl
@[simp] theorem setTables_nslot (n : Nat) (sl : Memory FilterPair) (k : Nat) (cb : Memory Word) (s : State) :
    (setTables n sl k cb s).nslot = n := rfl
@[simp] theorem setTables_slot (n : Nat) (sl : Memory FilterPair) (k : Nat) (cb : Memory Word) (s : State) :
    (setTables n sl k cb s).slot = sl := rfl
@[simp] theorem setTables_ncb (n : Nat) (sl : Memory FilterPair) (k : Nat) (cb : Memory Word) (s : State) :
    (setTables n sl k cb s).ncb = k := rfl
@[simp] theorem setTables_cbt (n : Nat) (sl : Memory FilterPair) (k : Nat) (cb : Memory Word) (s : State) :
    (setTables n sl k cb s).cbt = cb := rfl
@[simp] theorem setTables_out (n : Nat) (sl : Memory FilterPair) (k : Nat) (cb : Memory Word) (s : State) :
    (setTables n sl k cb s).out = s.out := rfl
@[simp] theorem setTables_par (n : Nat) (sl : Memory FilterPair) (k : Nat) (cb : Memory Word) (s : State) :
    (setTables n sl k cb s).par = s.par := rfl
@[simp] theorem setTables_inputs (n : Nat) (sl : Memory FilterPair) (k : Nat) (cb : Memory Word) (s : State) :
    (setTables n sl k cb s).inputs = s.inputs := rfl
@[simp] theorem setTables_port (n : Nat) (sl : Memory FilterPair) (k : Nat) (cb : Memory Word) (s : State) :
    (setTables n sl k cb s).port = s.port := rfl
@[simp] theorem setTables_busData (n : Nat) (sl : Memory FilterPair) (k : Nat) (cb : Memory Word) (s : State) :
    (setTables n sl k cb s).busData = s.busData := rfl

/-! ## `setTiming` -/

@[simp] theorem setTiming_a0 (t : Timing) (s : State) : (setTiming t s).a0 = s.a0 := rfl
@[simp] theorem setTiming_a1 (t : Timing) (s : State) : (setTiming t s).a1 = s.a1 := rfl
@[simp] theorem setTiming_a2 (t : Timing) (s : State) : (setTiming t s).a2 = s.a2 := rfl
@[simp] theorem setTiming_a3 (t : Timing) (s : State) : (setTiming t s).a3 = s.a3 := rfl
@[simp] theorem setTiming_a4 (t : Timing) (s : State) : (setTiming t s).a4 = s.a4 := rfl
@[simp] theorem setTiming_r0 (t : Timing) (s : State) : (setTiming t s).r0 = s.r0 := rfl
@[simp] theorem setTiming_r1 (t : Timing) (s : State) : (setTiming t s).r1 = s.r1 := rfl
@[simp] theorem setTiming_life (t : Timing) (s : State) : (setTiming t s).life = s.life := rfl
@[simp] theorem setTiming_mode (t : Timing) (s : State) : (setTiming t s).mode = s.mode := rfl
@[simp] theorem setTiming_busy (t : Timing) (s : State) : (setTiming t s).busy = s.busy := rfl
@[simp] theorem setTiming_err (t : Timing) (s : State) : (setTiming t s).err = s.err := rfl
@[simp] theorem setTiming_waitpt (t : Timing) (s : State) : (setTiming t s).waitpt = s.waitpt := rfl
@[simp] theorem setTiming_gstat (t : Timing) (s : State) : (setTiming t s).gstat = s.gstat := rfl
@[simp] theorem setTiming_np (t : Timing) (s : State) : (setTiming t s).np = s.np := rfl
@[simp] theorem setTiming_ns (t : Timing) (s : State) : (setTiming t s).ns = s.ns := rfl
@[simp] theorem setTiming_nf (t : Timing) (s : State) : (setTiming t s).nf = s.nf := rfl
@[simp] theorem setTiming_act (t : Timing) (s : State) : (setTiming t s).act = s.act := rfl
@[simp] theorem setTiming_timing (t : Timing) (s : State) : (setTiming t s).timing = t := rfl
@[simp] theorem setTiming_rxcap (t : Timing) (s : State) : (setTiming t s).rxcap = s.rxcap := rfl
@[simp] theorem setTiming_txcap (t : Timing) (s : State) : (setTiming t s).txcap = s.txcap := rfl
@[simp] theorem setTiming_fdPayload (t : Timing) (s : State) : (setTiming t s).fdPayload = s.fdPayload := rfl
@[simp] theorem setTiming_fdRxmb (t : Timing) (s : State) : (setTiming t s).fdRxmb = s.fdRxmb := rfl
@[simp] theorem setTiming_txpin (t : Timing) (s : State) : (setTiming t s).txpin = s.txpin := rfl
@[simp] theorem setTiming_rxpin (t : Timing) (s : State) : (setTiming t s).rxpin = s.rxpin := rfl
@[simp] theorem setTiming_txf (t : Timing) (s : State) : (setTiming t s).txf = s.txf := rfl
@[simp] theorem setTiming_rxf (t : Timing) (s : State) : (setTiming t s).rxf = s.rxf := rfl
@[simp] theorem setTiming_rxq (t : Timing) (s : State) : (setTiming t s).rxq = s.rxq := rfl
@[simp] theorem setTiming_txq (t : Timing) (s : State) : (setTiming t s).txq = s.txq := rfl
@[simp] theorem setTiming_sp (t : Timing) (s : State) : (setTiming t s).sp = s.sp := rfl
@[simp] theorem setTiming_ss (t : Timing) (s : State) : (setTiming t s).ss = s.ss := rfl
@[simp] theorem setTiming_sf (t : Timing) (s : State) : (setTiming t s).sf = s.sf := rfl
@[simp] theorem setTiming_nslot (t : Timing) (s : State) : (setTiming t s).nslot = s.nslot := rfl
@[simp] theorem setTiming_slot (t : Timing) (s : State) : (setTiming t s).slot = s.slot := rfl
@[simp] theorem setTiming_ncb (t : Timing) (s : State) : (setTiming t s).ncb = s.ncb := rfl
@[simp] theorem setTiming_cbt (t : Timing) (s : State) : (setTiming t s).cbt = s.cbt := rfl
@[simp] theorem setTiming_out (t : Timing) (s : State) : (setTiming t s).out = s.out := rfl
@[simp] theorem setTiming_par (t : Timing) (s : State) : (setTiming t s).par = s.par := rfl
@[simp] theorem setTiming_inputs (t : Timing) (s : State) : (setTiming t s).inputs = s.inputs := rfl
@[simp] theorem setTiming_port (t : Timing) (s : State) : (setTiming t s).port = s.port := rfl
@[simp] theorem setTiming_busData (t : Timing) (s : State) : (setTiming t s).busData = s.busData := rfl

/-! ## `setPrimary` -/

@[simp] theorem setPrimary_a0 (n : Byte) (m : Memory FilterEntry) (s : State) : (setPrimary n m s).a0 = s.a0 := rfl
@[simp] theorem setPrimary_a1 (n : Byte) (m : Memory FilterEntry) (s : State) : (setPrimary n m s).a1 = s.a1 := rfl
@[simp] theorem setPrimary_a2 (n : Byte) (m : Memory FilterEntry) (s : State) : (setPrimary n m s).a2 = s.a2 := rfl
@[simp] theorem setPrimary_a3 (n : Byte) (m : Memory FilterEntry) (s : State) : (setPrimary n m s).a3 = s.a3 := rfl
@[simp] theorem setPrimary_a4 (n : Byte) (m : Memory FilterEntry) (s : State) : (setPrimary n m s).a4 = s.a4 := rfl
@[simp] theorem setPrimary_r0 (n : Byte) (m : Memory FilterEntry) (s : State) : (setPrimary n m s).r0 = s.r0 := rfl
@[simp] theorem setPrimary_r1 (n : Byte) (m : Memory FilterEntry) (s : State) : (setPrimary n m s).r1 = s.r1 := rfl
@[simp] theorem setPrimary_life (n : Byte) (m : Memory FilterEntry) (s : State) :
    (setPrimary n m s).life = s.life := rfl
@[simp] theorem setPrimary_mode (n : Byte) (m : Memory FilterEntry) (s : State) :
    (setPrimary n m s).mode = s.mode := rfl
@[simp] theorem setPrimary_busy (n : Byte) (m : Memory FilterEntry) (s : State) :
    (setPrimary n m s).busy = s.busy := rfl
@[simp] theorem setPrimary_err (n : Byte) (m : Memory FilterEntry) (s : State) : (setPrimary n m s).err = s.err := rfl
@[simp] theorem setPrimary_waitpt (n : Byte) (m : Memory FilterEntry) (s : State) :
    (setPrimary n m s).waitpt = s.waitpt := rfl
@[simp] theorem setPrimary_gstat (n : Byte) (m : Memory FilterEntry) (s : State) :
    (setPrimary n m s).gstat = s.gstat := rfl
@[simp] theorem setPrimary_np (n : Byte) (m : Memory FilterEntry) (s : State) : (setPrimary n m s).np = n := rfl
@[simp] theorem setPrimary_ns (n : Byte) (m : Memory FilterEntry) (s : State) : (setPrimary n m s).ns = s.ns := rfl
@[simp] theorem setPrimary_nf (n : Byte) (m : Memory FilterEntry) (s : State) : (setPrimary n m s).nf = s.nf := rfl
@[simp] theorem setPrimary_act (n : Byte) (m : Memory FilterEntry) (s : State) : (setPrimary n m s).act = s.act := rfl
@[simp] theorem setPrimary_timing (n : Byte) (m : Memory FilterEntry) (s : State) :
    (setPrimary n m s).timing = s.timing := rfl
@[simp] theorem setPrimary_rxcap (n : Byte) (m : Memory FilterEntry) (s : State) :
    (setPrimary n m s).rxcap = s.rxcap := rfl
@[simp] theorem setPrimary_txcap (n : Byte) (m : Memory FilterEntry) (s : State) :
    (setPrimary n m s).txcap = s.txcap := rfl
@[simp] theorem setPrimary_fdPayload (n : Byte) (m : Memory FilterEntry) (s : State) :
    (setPrimary n m s).fdPayload = s.fdPayload := rfl
@[simp] theorem setPrimary_fdRxmb (n : Byte) (m : Memory FilterEntry) (s : State) :
    (setPrimary n m s).fdRxmb = s.fdRxmb := rfl
@[simp] theorem setPrimary_txpin (n : Byte) (m : Memory FilterEntry) (s : State) :
    (setPrimary n m s).txpin = s.txpin := rfl
@[simp] theorem setPrimary_rxpin (n : Byte) (m : Memory FilterEntry) (s : State) :
    (setPrimary n m s).rxpin = s.rxpin := rfl
@[simp] theorem setPrimary_txf (n : Byte) (m : Memory FilterEntry) (s : State) : (setPrimary n m s).txf = s.txf := rfl
@[simp] theorem setPrimary_rxf (n : Byte) (m : Memory FilterEntry) (s : State) : (setPrimary n m s).rxf = s.rxf := rfl
@[simp] theorem setPrimary_rxq (n : Byte) (m : Memory FilterEntry) (s : State) : (setPrimary n m s).rxq = s.rxq := rfl
@[simp] theorem setPrimary_txq (n : Byte) (m : Memory FilterEntry) (s : State) : (setPrimary n m s).txq = s.txq := rfl
@[simp] theorem setPrimary_sp (n : Byte) (m : Memory FilterEntry) (s : State) : (setPrimary n m s).sp = m := rfl
@[simp] theorem setPrimary_ss (n : Byte) (m : Memory FilterEntry) (s : State) : (setPrimary n m s).ss = s.ss := rfl
@[simp] theorem setPrimary_sf (n : Byte) (m : Memory FilterEntry) (s : State) : (setPrimary n m s).sf = s.sf := rfl
@[simp] theorem setPrimary_nslot (n : Byte) (m : Memory FilterEntry) (s : State) :
    (setPrimary n m s).nslot = s.nslot := rfl
@[simp] theorem setPrimary_slot (n : Byte) (m : Memory FilterEntry) (s : State) :
    (setPrimary n m s).slot = s.slot := rfl
@[simp] theorem setPrimary_ncb (n : Byte) (m : Memory FilterEntry) (s : State) : (setPrimary n m s).ncb = s.ncb := rfl
@[simp] theorem setPrimary_cbt (n : Byte) (m : Memory FilterEntry) (s : State) : (setPrimary n m s).cbt = s.cbt := rfl
@[simp] theorem setPrimary_out (n : Byte) (m : Memory FilterEntry) (s : State) : (setPrimary n m s).out = s.out := rfl
@[simp] theorem setPrimary_par (n : Byte) (m : Memory FilterEntry) (s : State) : (setPrimary n m s).par = s.par := rfl
@[simp] theorem setPrimary_inputs (n : Byte) (m : Memory FilterEntry) (s : State) :
    (setPrimary n m s).inputs = s.inputs := rfl
@[simp] theorem setPrimary_port (n : Byte) (m : Memory FilterEntry) (s : State) :
    (setPrimary n m s).port = s.port := rfl
@[simp] theorem setPrimary_busData (n : Byte) (m : Memory FilterEntry) (s : State) :
    (setPrimary n m s).busData = s.busData := rfl

/-! ## `setSecondary` -/

@[simp] theorem setSecondary_a0 (n : Byte) (m : Memory FilterEntry) (s : State) :
    (setSecondary n m s).a0 = s.a0 := rfl
@[simp] theorem setSecondary_a1 (n : Byte) (m : Memory FilterEntry) (s : State) :
    (setSecondary n m s).a1 = s.a1 := rfl
@[simp] theorem setSecondary_a2 (n : Byte) (m : Memory FilterEntry) (s : State) :
    (setSecondary n m s).a2 = s.a2 := rfl
@[simp] theorem setSecondary_a3 (n : Byte) (m : Memory FilterEntry) (s : State) :
    (setSecondary n m s).a3 = s.a3 := rfl
@[simp] theorem setSecondary_a4 (n : Byte) (m : Memory FilterEntry) (s : State) :
    (setSecondary n m s).a4 = s.a4 := rfl
@[simp] theorem setSecondary_r0 (n : Byte) (m : Memory FilterEntry) (s : State) :
    (setSecondary n m s).r0 = s.r0 := rfl
@[simp] theorem setSecondary_r1 (n : Byte) (m : Memory FilterEntry) (s : State) :
    (setSecondary n m s).r1 = s.r1 := rfl
@[simp] theorem setSecondary_life (n : Byte) (m : Memory FilterEntry) (s : State) :
    (setSecondary n m s).life = s.life := rfl
@[simp] theorem setSecondary_mode (n : Byte) (m : Memory FilterEntry) (s : State) :
    (setSecondary n m s).mode = s.mode := rfl
@[simp] theorem setSecondary_busy (n : Byte) (m : Memory FilterEntry) (s : State) :
    (setSecondary n m s).busy = s.busy := rfl
@[simp] theorem setSecondary_err (n : Byte) (m : Memory FilterEntry) (s : State) :
    (setSecondary n m s).err = s.err := rfl
@[simp] theorem setSecondary_waitpt (n : Byte) (m : Memory FilterEntry) (s : State) :
    (setSecondary n m s).waitpt = s.waitpt := rfl
@[simp] theorem setSecondary_gstat (n : Byte) (m : Memory FilterEntry) (s : State) :
    (setSecondary n m s).gstat = s.gstat := rfl
@[simp] theorem setSecondary_np (n : Byte) (m : Memory FilterEntry) (s : State) :
    (setSecondary n m s).np = s.np := rfl
@[simp] theorem setSecondary_ns (n : Byte) (m : Memory FilterEntry) (s : State) : (setSecondary n m s).ns = n := rfl
@[simp] theorem setSecondary_nf (n : Byte) (m : Memory FilterEntry) (s : State) :
    (setSecondary n m s).nf = s.nf := rfl
@[simp] theorem setSecondary_act (n : Byte) (m : Memory FilterEntry) (s : State) :
    (setSecondary n m s).act = s.act := rfl
@[simp] theorem setSecondary_timing (n : Byte) (m : Memory FilterEntry) (s : State) :
    (setSecondary n m s).timing = s.timing := rfl
@[simp] theorem setSecondary_rxcap (n : Byte) (m : Memory FilterEntry) (s : State) :
    (setSecondary n m s).rxcap = s.rxcap := rfl
@[simp] theorem setSecondary_txcap (n : Byte) (m : Memory FilterEntry) (s : State) :
    (setSecondary n m s).txcap = s.txcap := rfl
@[simp] theorem setSecondary_fdPayload (n : Byte) (m : Memory FilterEntry) (s : State) :
    (setSecondary n m s).fdPayload = s.fdPayload := rfl
@[simp] theorem setSecondary_fdRxmb (n : Byte) (m : Memory FilterEntry) (s : State) :
    (setSecondary n m s).fdRxmb = s.fdRxmb := rfl
@[simp] theorem setSecondary_txpin (n : Byte) (m : Memory FilterEntry) (s : State) :
    (setSecondary n m s).txpin = s.txpin := rfl
@[simp] theorem setSecondary_rxpin (n : Byte) (m : Memory FilterEntry) (s : State) :
    (setSecondary n m s).rxpin = s.rxpin := rfl
@[simp] theorem setSecondary_txf (n : Byte) (m : Memory FilterEntry) (s : State) :
    (setSecondary n m s).txf = s.txf := rfl
@[simp] theorem setSecondary_rxf (n : Byte) (m : Memory FilterEntry) (s : State) :
    (setSecondary n m s).rxf = s.rxf := rfl
@[simp] theorem setSecondary_rxq (n : Byte) (m : Memory FilterEntry) (s : State) :
    (setSecondary n m s).rxq = s.rxq := rfl
@[simp] theorem setSecondary_txq (n : Byte) (m : Memory FilterEntry) (s : State) :
    (setSecondary n m s).txq = s.txq := rfl
@[simp] theorem setSecondary_sp (n : Byte) (m : Memory FilterEntry) (s : State) :
    (setSecondary n m s).sp = s.sp := rfl
@[simp] theorem setSecondary_ss (n : Byte) (m : Memory FilterEntry) (s : State) : (setSecondary n m s).ss = m := rfl
@[simp] theorem setSecondary_sf (n : Byte) (m : Memory FilterEntry) (s : State) :
    (setSecondary n m s).sf = s.sf := rfl
@[simp] theorem setSecondary_nslot (n : Byte) (m : Memory FilterEntry) (s : State) :
    (setSecondary n m s).nslot = s.nslot := rfl
@[simp] theorem setSecondary_slot (n : Byte) (m : Memory FilterEntry) (s : State) :
    (setSecondary n m s).slot = s.slot := rfl
@[simp] theorem setSecondary_ncb (n : Byte) (m : Memory FilterEntry) (s : State) :
    (setSecondary n m s).ncb = s.ncb := rfl
@[simp] theorem setSecondary_cbt (n : Byte) (m : Memory FilterEntry) (s : State) :
    (setSecondary n m s).cbt = s.cbt := rfl
@[simp] theorem setSecondary_out (n : Byte) (m : Memory FilterEntry) (s : State) :
    (setSecondary n m s).out = s.out := rfl
@[simp] theorem setSecondary_par (n : Byte) (m : Memory FilterEntry) (s : State) :
    (setSecondary n m s).par = s.par := rfl
@[simp] theorem setSecondary_inputs (n : Byte) (m : Memory FilterEntry) (s : State) :
    (setSecondary n m s).inputs = s.inputs := rfl
@[simp] theorem setSecondary_port (n : Byte) (m : Memory FilterEntry) (s : State) :
    (setSecondary n m s).port = s.port := rfl
@[simp] theorem setSecondary_busData (n : Byte) (m : Memory FilterEntry) (s : State) :
    (setSecondary n m s).busData = s.busData := rfl

/-! ## `setFd` -/

@[simp] theorem setFd_a0 (n : Byte) (m : Memory FilterEntry) (s : State) : (setFd n m s).a0 = s.a0 := rfl
@[simp] theorem setFd_a1 (n : Byte) (m : Memory FilterEntry) (s : State) : (setFd n m s).a1 = s.a1 := rfl
@[simp] theorem setFd_a2 (n : Byte) (m : Memory FilterEntry) (s : State) : (setFd n m s).a2 = s.a2 := rfl
@[simp] theorem setFd_a3 (n : Byte) (m : Memory FilterEntry) (s : State) : (setFd n m s).a3 = s.a3 := rfl
@[simp] theorem setFd_a4 (n : Byte) (m : Memory FilterEntry) (s : State) : (setFd n m s).a4 = s.a4 := rfl
@[simp] theorem setFd_r0 (n : Byte) (m : Memory FilterEntry) (s : State) : (setFd n m s).r0 = s.r0 := rfl
@[simp] theorem setFd_r1 (n : Byte) (m : Memory FilterEntry) (s : State) : (setFd n m s).r1 = s.r1 := rfl
@[simp] theorem setFd_life (n : Byte) (m : Memory FilterEntry) (s : State) : (setFd n m s).life = s.life := rfl
@[simp] theorem setFd_mode (n : Byte) (m : Memory FilterEntry) (s : State) : (setFd n m s).mode = s.mode := rfl
@[simp] theorem setFd_busy (n : Byte) (m : Memory FilterEntry) (s : State) : (setFd n m s).busy = s.busy := rfl
@[simp] theorem setFd_err (n : Byte) (m : Memory FilterEntry) (s : State) : (setFd n m s).err = s.err := rfl
@[simp] theorem setFd_waitpt (n : Byte) (m : Memory FilterEntry) (s : State) : (setFd n m s).waitpt = s.waitpt := rfl
@[simp] theorem setFd_gstat (n : Byte) (m : Memory FilterEntry) (s : State) : (setFd n m s).gstat = s.gstat := rfl
@[simp] theorem setFd_np (n : Byte) (m : Memory FilterEntry) (s : State) : (setFd n m s).np = s.np := rfl
@[simp] theorem setFd_ns (n : Byte) (m : Memory FilterEntry) (s : State) : (setFd n m s).ns = s.ns := rfl
@[simp] theorem setFd_nf (n : Byte) (m : Memory FilterEntry) (s : State) : (setFd n m s).nf = n := rfl
@[simp] theorem setFd_act (n : Byte) (m : Memory FilterEntry) (s : State) : (setFd n m s).act = s.act := rfl
@[simp] theorem setFd_timing (n : Byte) (m : Memory FilterEntry) (s : State) : (setFd n m s).timing = s.timing := rfl
@[simp] theorem setFd_rxcap (n : Byte) (m : Memory FilterEntry) (s : State) : (setFd n m s).rxcap = s.rxcap := rfl
@[simp] theorem setFd_txcap (n : Byte) (m : Memory FilterEntry) (s : State) : (setFd n m s).txcap = s.txcap := rfl
@[simp] theorem setFd_fdPayload (n : Byte) (m : Memory FilterEntry) (s : State) :
    (setFd n m s).fdPayload = s.fdPayload := rfl
@[simp] theorem setFd_fdRxmb (n : Byte) (m : Memory FilterEntry) (s : State) : (setFd n m s).fdRxmb = s.fdRxmb := rfl
@[simp] theorem setFd_txpin (n : Byte) (m : Memory FilterEntry) (s : State) : (setFd n m s).txpin = s.txpin := rfl
@[simp] theorem setFd_rxpin (n : Byte) (m : Memory FilterEntry) (s : State) : (setFd n m s).rxpin = s.rxpin := rfl
@[simp] theorem setFd_txf (n : Byte) (m : Memory FilterEntry) (s : State) : (setFd n m s).txf = s.txf := rfl
@[simp] theorem setFd_rxf (n : Byte) (m : Memory FilterEntry) (s : State) : (setFd n m s).rxf = s.rxf := rfl
@[simp] theorem setFd_rxq (n : Byte) (m : Memory FilterEntry) (s : State) : (setFd n m s).rxq = s.rxq := rfl
@[simp] theorem setFd_txq (n : Byte) (m : Memory FilterEntry) (s : State) : (setFd n m s).txq = s.txq := rfl
@[simp] theorem setFd_sp (n : Byte) (m : Memory FilterEntry) (s : State) : (setFd n m s).sp = s.sp := rfl
@[simp] theorem setFd_ss (n : Byte) (m : Memory FilterEntry) (s : State) : (setFd n m s).ss = s.ss := rfl
@[simp] theorem setFd_sf (n : Byte) (m : Memory FilterEntry) (s : State) : (setFd n m s).sf = m := rfl
@[simp] theorem setFd_nslot (n : Byte) (m : Memory FilterEntry) (s : State) : (setFd n m s).nslot = s.nslot := rfl
@[simp] theorem setFd_slot (n : Byte) (m : Memory FilterEntry) (s : State) : (setFd n m s).slot = s.slot := rfl
@[simp] theorem setFd_ncb (n : Byte) (m : Memory FilterEntry) (s : State) : (setFd n m s).ncb = s.ncb := rfl
@[simp] theorem setFd_cbt (n : Byte) (m : Memory FilterEntry) (s : State) : (setFd n m s).cbt = s.cbt := rfl
@[simp] theorem setFd_out (n : Byte) (m : Memory FilterEntry) (s : State) : (setFd n m s).out = s.out := rfl
@[simp] theorem setFd_par (n : Byte) (m : Memory FilterEntry) (s : State) : (setFd n m s).par = s.par := rfl
@[simp] theorem setFd_inputs (n : Byte) (m : Memory FilterEntry) (s : State) : (setFd n m s).inputs = s.inputs := rfl
@[simp] theorem setFd_port (n : Byte) (m : Memory FilterEntry) (s : State) : (setFd n m s).port = s.port := rfl
@[simp] theorem setFd_busData (n : Byte) (m : Memory FilterEntry) (s : State) :
    (setFd n m s).busData = s.busData := rfl

/-! ## `setR1` -/

@[simp] theorem setR1_a0 (v : Word) (s : State) : (setR1 v s).a0 = s.a0 := rfl
@[simp] theorem setR1_a1 (v : Word) (s : State) : (setR1 v s).a1 = s.a1 := rfl
@[simp] theorem setR1_a2 (v : Word) (s : State) : (setR1 v s).a2 = s.a2 := rfl
@[simp] theorem setR1_a3 (v : Word) (s : State) : (setR1 v s).a3 = s.a3 := rfl
@[simp] theorem setR1_a4 (v : Word) (s : State) : (setR1 v s).a4 = s.a4 := rfl
@[simp] theorem setR1_r0 (v : Word) (s : State) : (setR1 v s).r0 = s.r0 := rfl
@[simp] theorem setR1_r1 (v : Word) (s : State) : (setR1 v s).r1 = v := rfl
@[simp] theorem setR1_life (v : Word) (s : State) : (setR1 v s).life = s.life := rfl
@[simp] theorem setR1_mode (v : Word) (s : State) : (setR1 v s).mode = s.mode := rfl
@[simp] theorem setR1_busy (v : Word) (s : State) : (setR1 v s).busy = s.busy := rfl
@[simp] theorem setR1_err (v : Word) (s : State) : (setR1 v s).err = s.err := rfl
@[simp] theorem setR1_waitpt (v : Word) (s : State) : (setR1 v s).waitpt = s.waitpt := rfl
@[simp] theorem setR1_gstat (v : Word) (s : State) : (setR1 v s).gstat = s.gstat := rfl
@[simp] theorem setR1_np (v : Word) (s : State) : (setR1 v s).np = s.np := rfl
@[simp] theorem setR1_ns (v : Word) (s : State) : (setR1 v s).ns = s.ns := rfl
@[simp] theorem setR1_nf (v : Word) (s : State) : (setR1 v s).nf = s.nf := rfl
@[simp] theorem setR1_act (v : Word) (s : State) : (setR1 v s).act = s.act := rfl
@[simp] theorem setR1_timing (v : Word) (s : State) : (setR1 v s).timing = s.timing := rfl
@[simp] theorem setR1_rxcap (v : Word) (s : State) : (setR1 v s).rxcap = s.rxcap := rfl
@[simp] theorem setR1_txcap (v : Word) (s : State) : (setR1 v s).txcap = s.txcap := rfl
@[simp] theorem setR1_fdPayload (v : Word) (s : State) : (setR1 v s).fdPayload = s.fdPayload := rfl
@[simp] theorem setR1_fdRxmb (v : Word) (s : State) : (setR1 v s).fdRxmb = s.fdRxmb := rfl
@[simp] theorem setR1_txpin (v : Word) (s : State) : (setR1 v s).txpin = s.txpin := rfl
@[simp] theorem setR1_rxpin (v : Word) (s : State) : (setR1 v s).rxpin = s.rxpin := rfl
@[simp] theorem setR1_txf (v : Word) (s : State) : (setR1 v s).txf = s.txf := rfl
@[simp] theorem setR1_rxf (v : Word) (s : State) : (setR1 v s).rxf = s.rxf := rfl
@[simp] theorem setR1_rxq (v : Word) (s : State) : (setR1 v s).rxq = s.rxq := rfl
@[simp] theorem setR1_txq (v : Word) (s : State) : (setR1 v s).txq = s.txq := rfl
@[simp] theorem setR1_sp (v : Word) (s : State) : (setR1 v s).sp = s.sp := rfl
@[simp] theorem setR1_ss (v : Word) (s : State) : (setR1 v s).ss = s.ss := rfl
@[simp] theorem setR1_sf (v : Word) (s : State) : (setR1 v s).sf = s.sf := rfl
@[simp] theorem setR1_nslot (v : Word) (s : State) : (setR1 v s).nslot = s.nslot := rfl
@[simp] theorem setR1_slot (v : Word) (s : State) : (setR1 v s).slot = s.slot := rfl
@[simp] theorem setR1_ncb (v : Word) (s : State) : (setR1 v s).ncb = s.ncb := rfl
@[simp] theorem setR1_cbt (v : Word) (s : State) : (setR1 v s).cbt = s.cbt := rfl
@[simp] theorem setR1_out (v : Word) (s : State) : (setR1 v s).out = s.out := rfl
@[simp] theorem setR1_par (v : Word) (s : State) : (setR1 v s).par = s.par := rfl
@[simp] theorem setR1_inputs (v : Word) (s : State) : (setR1 v s).inputs = s.inputs := rfl
@[simp] theorem setR1_port (v : Word) (s : State) : (setR1 v s).port = s.port := rfl
@[simp] theorem setR1_busData (v : Word) (s : State) : (setR1 v s).busData = s.busData := rfl

/-! ## `refuse` -/

@[simp] theorem refuse_a0 (c : ErrCode) (s : State) : (refuse c s).a0 = s.a0 := rfl
@[simp] theorem refuse_a1 (c : ErrCode) (s : State) : (refuse c s).a1 = s.a1 := rfl
@[simp] theorem refuse_a2 (c : ErrCode) (s : State) : (refuse c s).a2 = s.a2 := rfl
@[simp] theorem refuse_a3 (c : ErrCode) (s : State) : (refuse c s).a3 = s.a3 := rfl
@[simp] theorem refuse_a4 (c : ErrCode) (s : State) : (refuse c s).a4 = s.a4 := rfl
@[simp] theorem refuse_r0 (c : ErrCode) (s : State) : (refuse c s).r0 = s.r0 := rfl
@[simp] theorem refuse_r1 (c : ErrCode) (s : State) : (refuse c s).r1 = s.r1 := rfl
@[simp] theorem refuse_life (c : ErrCode) (s : State) : (refuse c s).life = s.life := rfl
@[simp] theorem refuse_mode (c : ErrCode) (s : State) : (refuse c s).mode = s.mode := rfl
@[simp] theorem refuse_busy (c : ErrCode) (s : State) : (refuse c s).busy = s.busy := rfl
@[simp] theorem refuse_err (c : ErrCode) (s : State) : (refuse c s).err = c := rfl
@[simp] theorem refuse_waitpt (c : ErrCode) (s : State) : (refuse c s).waitpt = s.waitpt := rfl
@[simp] theorem refuse_gstat (c : ErrCode) (s : State) : (refuse c s).gstat = s.gstat := rfl
@[simp] theorem refuse_np (c : ErrCode) (s : State) : (refuse c s).np = s.np := rfl
@[simp] theorem refuse_ns (c : ErrCode) (s : State) : (refuse c s).ns = s.ns := rfl
@[simp] theorem refuse_nf (c : ErrCode) (s : State) : (refuse c s).nf = s.nf := rfl
@[simp] theorem refuse_act (c : ErrCode) (s : State) : (refuse c s).act = s.act := rfl
@[simp] theorem refuse_timing (c : ErrCode) (s : State) : (refuse c s).timing = s.timing := rfl
@[simp] theorem refuse_rxcap (c : ErrCode) (s : State) : (refuse c s).rxcap = s.rxcap := rfl
@[simp] theorem refuse_txcap (c : ErrCode) (s : State) : (refuse c s).txcap = s.txcap := rfl
@[simp] theorem refuse_fdPayload (c : ErrCode) (s : State) : (refuse c s).fdPayload = s.fdPayload := rfl
@[simp] theorem refuse_fdRxmb (c : ErrCode) (s : State) : (refuse c s).fdRxmb = s.fdRxmb := rfl
@[simp] theorem refuse_txpin (c : ErrCode) (s : State) : (refuse c s).txpin = s.txpin := rfl
@[simp] theorem refuse_rxpin (c : ErrCode) (s : State) : (refuse c s).rxpin = s.rxpin := rfl
@[simp] theorem refuse_txf (c : ErrCode) (s : State) : (refuse c s).txf = s.txf := rfl
@[simp] theorem refuse_rxf (c : ErrCode) (s : State) : (refuse c s).rxf = s.rxf := rfl
@[simp] theorem refuse_rxq (c : ErrCode) (s : State) : (refuse c s).rxq = s.rxq := rfl
@[simp] theorem refuse_txq (c : ErrCode) (s : State) : (refuse c s).txq = s.txq := rfl
@[simp] theorem refuse_sp (c : ErrCode) (s : State) : (refuse c s).sp = s.sp := rfl
@[simp] theorem refuse_ss (c : ErrCode) (s : State) : (refuse c s).ss = s.ss := rfl
@[simp] theorem refuse_sf (c : ErrCode) (s : State) : (refuse c s).sf = s.sf := rfl
@[simp] theorem refuse_nslot (c : ErrCode) (s : State) : (refuse c s).nslot = s.nslot := rfl
@[simp] theorem refuse_slot (c : ErrCode) (s : State) : (refuse c s).slot = s.slot := rfl
@[simp] theorem refuse_ncb (c : ErrCode) (s : State) : (refuse c s).ncb = s.ncb := rfl
@[simp] theorem refuse_cbt (c : ErrCode) (s : State) : (refuse c s).cbt = s.cbt := rfl
@[simp] theorem refuse_out (c : ErrCode) (s : State) : (refuse c s).out = s.out := rfl
@[simp] theorem refuse_par (c : ErrCode) (s : State) : (refuse c s).par = s.par := rfl
@[simp] theorem refuse_inputs (c : ErrCode) (s : State) : (refuse c s).inputs = s.inputs := rfl
@[simp] theorem refuse_port (c : ErrCode) (s : State) : (refuse c s).port = s.port := rfl
@[simp] theorem refuse_busData (c : ErrCode) (s : State) : (refuse c s).busData = s.busData := rfl

/-! ## `accept` -/

@[simp] theorem accept_a0 (s : State) : (accept s).a0 = s.a0 := rfl
@[simp] theorem accept_a1 (s : State) : (accept s).a1 = s.a1 := rfl
@[simp] theorem accept_a2 (s : State) : (accept s).a2 = s.a2 := rfl
@[simp] theorem accept_a3 (s : State) : (accept s).a3 = s.a3 := rfl
@[simp] theorem accept_a4 (s : State) : (accept s).a4 = s.a4 := rfl
@[simp] theorem accept_r0 (s : State) : (accept s).r0 = s.r0 := rfl
@[simp] theorem accept_r1 (s : State) : (accept s).r1 = s.r1 := rfl
@[simp] theorem accept_life (s : State) : (accept s).life = s.life := rfl
@[simp] theorem accept_mode (s : State) : (accept s).mode = s.mode := rfl
@[simp] theorem accept_busy (s : State) : (accept s).busy = s.busy := rfl
@[simp] theorem accept_err (s : State) : (accept s).err = .none := rfl
@[simp] theorem accept_waitpt (s : State) : (accept s).waitpt = s.waitpt := rfl
@[simp] theorem accept_gstat (s : State) : (accept s).gstat = s.gstat := rfl
@[simp] theorem accept_np (s : State) : (accept s).np = s.np := rfl
@[simp] theorem accept_ns (s : State) : (accept s).ns = s.ns := rfl
@[simp] theorem accept_nf (s : State) : (accept s).nf = s.nf := rfl
@[simp] theorem accept_act (s : State) : (accept s).act = s.act := rfl
@[simp] theorem accept_timing (s : State) : (accept s).timing = s.timing := rfl
@[simp] theorem accept_rxcap (s : State) : (accept s).rxcap = s.rxcap := rfl
@[simp] theorem accept_txcap (s : State) : (accept s).txcap = s.txcap := rfl
@[simp] theorem accept_fdPayload (s : State) : (accept s).fdPayload = s.fdPayload := rfl
@[simp] theorem accept_fdRxmb (s : State) : (accept s).fdRxmb = s.fdRxmb := rfl
@[simp] theorem accept_txpin (s : State) : (accept s).txpin = s.txpin := rfl
@[simp] theorem accept_rxpin (s : State) : (accept s).rxpin = s.rxpin := rfl
@[simp] theorem accept_txf (s : State) : (accept s).txf = s.txf := rfl
@[simp] theorem accept_rxf (s : State) : (accept s).rxf = s.rxf := rfl
@[simp] theorem accept_rxq (s : State) : (accept s).rxq = s.rxq := rfl
@[simp] theorem accept_txq (s : State) : (accept s).txq = s.txq := rfl
@[simp] theorem accept_sp (s : State) : (accept s).sp = s.sp := rfl
@[simp] theorem accept_ss (s : State) : (accept s).ss = s.ss := rfl
@[simp] theorem accept_sf (s : State) : (accept s).sf = s.sf := rfl
@[simp] theorem accept_nslot (s : State) : (accept s).nslot = s.nslot := rfl
@[simp] theorem accept_slot (s : State) : (accept s).slot = s.slot := rfl
@[simp] theorem accept_ncb (s : State) : (accept s).ncb = s.ncb := rfl
@[simp] theorem accept_cbt (s : State) : (accept s).cbt = s.cbt := rfl
@[simp] theorem accept_out (s : State) : (accept s).out = s.out := rfl
@[simp] theorem accept_par (s : State) : (accept s).par = s.par := rfl
@[simp] theorem accept_inputs (s : State) : (accept s).inputs = s.inputs := rfl
@[simp] theorem accept_port (s : State) : (accept s).port = s.port := rfl
@[simp] theorem accept_busData (s : State) : (accept s).busData = s.busData := rfl

/-! ## `emit` -/

@[simp] theorem emit_a0 (a : Action) (s : State) : (emit a s).a0 = s.a0 := rfl
@[simp] theorem emit_a1 (a : Action) (s : State) : (emit a s).a1 = s.a1 := rfl
@[simp] theorem emit_a2 (a : Action) (s : State) : (emit a s).a2 = s.a2 := rfl
@[simp] theorem emit_a3 (a : Action) (s : State) : (emit a s).a3 = s.a3 := rfl
@[simp] theorem emit_a4 (a : Action) (s : State) : (emit a s).a4 = s.a4 := rfl
@[simp] theorem emit_r0 (a : Action) (s : State) : (emit a s).r0 = s.r0 := rfl
@[simp] theorem emit_r1 (a : Action) (s : State) : (emit a s).r1 = s.r1 := rfl
@[simp] theorem emit_life (a : Action) (s : State) : (emit a s).life = s.life := rfl
@[simp] theorem emit_mode (a : Action) (s : State) : (emit a s).mode = s.mode := rfl
@[simp] theorem emit_busy (a : Action) (s : State) : (emit a s).busy = s.busy := rfl
@[simp] theorem emit_err (a : Action) (s : State) : (emit a s).err = s.err := rfl
@[simp] theorem emit_waitpt (a : Action) (s : State) : (emit a s).waitpt = s.waitpt := rfl
@[simp] theorem emit_gstat (a : Action) (s : State) : (emit a s).gstat = s.gstat := rfl
@[simp] theorem emit_np (a : Action) (s : State) : (emit a s).np = s.np := rfl
@[simp] theorem emit_ns (a : Action) (s : State) : (emit a s).ns = s.ns := rfl
@[simp] theorem emit_nf (a : Action) (s : State) : (emit a s).nf = s.nf := rfl
@[simp] theorem emit_act (a : Action) (s : State) : (emit a s).act = s.act := rfl
@[simp] theorem emit_timing (a : Action) (s : State) : (emit a s).timing = s.timing := rfl
@[simp] theorem emit_rxcap (a : Action) (s : State) : (emit a s).rxcap = s.rxcap := rfl
@[simp] theorem emit_txcap (a : Action) (s : State) : (emit a s).txcap = s.txcap := rfl
@[simp] theorem emit_fdPayload (a : Action) (s : State) : (emit a s).fdPayload = s.fdPayload := rfl
@[simp] theorem emit_fdRxmb (a : Action) (s : State) : (emit a s).fdRxmb = s.fdRxmb := rfl
@[simp] theorem emit_txpin (a : Action) (s : State) : (emit a s).txpin = s.txpin := rfl
@[simp] theorem emit_rxpin (a : Action) (s : State) : (emit a s).rxpin = s.rxpin := rfl
@[simp] theorem emit_txf (a : Action) (s : State) : (emit a s).txf = s.txf := rfl
@[simp] theorem emit_rxf (a : Action) (s : State) : (emit a s).rxf = s.rxf := rfl
@[simp] theorem emit_rxq (a : Action) (s : State) : (emit a s).rxq = s.rxq := rfl
@[simp] theorem emit_txq (a : Action) (s : State) : (emit a s).txq = s.txq := rfl
@[simp] theorem emit_sp (a : Action) (s : State) : (emit a s).sp = s.sp := rfl
@[simp] theorem emit_ss (a : Action) (s : State) : (emit a s).ss = s.ss := rfl
@[simp] theorem emit_sf (a : Action) (s : State) : (emit a s).sf = s.sf := rfl
@[simp] theorem emit_nslot (a : Action) (s : State) : (emit a s).nslot = s.nslot := rfl
@[simp] theorem emit_slot (a : Action) (s : State) : (emit a s).slot = s.slot := rfl
@[simp] theorem emit_ncb (a : Action) (s : State) : (emit a s).ncb = s.ncb := rfl
@[simp] theorem emit_cbt (a : Action) (s : State) : (emit a s).cbt = s.cbt := rfl
@[simp] theorem emit_out (a : Action) (s : State) : (emit a s).out = s.out ++ [a] := rfl
@[simp] theorem emit_par (a : Action) (s : State) : (emit a s).par = s.par := rfl
@[simp] theorem emit_inputs (a : Action) (s : State) : (emit a s).inputs = s.inputs := rfl
@[simp] theorem emit_port (a : Action) (s : State) : (emit a s).port = s.port := rfl
@[simp] theorem emit_busData (a : Action) (s : State) : (emit a s).busData = s.busData := rfl

/-! ## `emitAll` -/

@[simp] theorem emitAll_a0 (as : List Action) (s : State) : (emitAll as s).a0 = s.a0 := rfl
@[simp] theorem emitAll_a1 (as : List Action) (s : State) : (emitAll as s).a1 = s.a1 := rfl
@[simp] theorem emitAll_a2 (as : List Action) (s : State) : (emitAll as s).a2 = s.a2 := rfl
@[simp] theorem emitAll_a3 (as : List Action) (s : State) : (emitAll as s).a3 = s.a3 := rfl
@[simp] theorem emitAll_a4 (as : List Action) (s : State) : (emitAll as s).a4 = s.a4 := rfl
@[simp] theorem emitAll_r0 (as : List Action) (s : State) : (emitAll as s).r0 = s.r0 := rfl
@[simp] theorem emitAll_r1 (as : List Action) (s : State) : (emitAll as s).r1 = s.r1 := rfl
@[simp] theorem emitAll_life (as : List Action) (s : State) : (emitAll as s).life = s.life := rfl
@[simp] theorem emitAll_mode (as : List Action) (s : State) : (emitAll as s).mode = s.mode := rfl
@[simp] theorem emitAll_busy (as : List Action) (s : State) : (emitAll as s).busy = s.busy := rfl
@[simp] theorem emitAll_err (as : List Action) (s : State) : (emitAll as s).err = s.err := rfl
@[simp] theorem emitAll_waitpt (as : List Action) (s : State) : (emitAll as s).waitpt = s.waitpt := rfl
@[simp] theorem emitAll_gstat (as : List Action) (s : State) : (emitAll as s).gstat = s.gstat := rfl
@[simp] theorem emitAll_np (as : List Action) (s : State) : (emitAll as s).np = s.np := rfl
@[simp] theorem emitAll_ns (as : List Action) (s : State) : (emitAll as s).ns = s.ns := rfl
@[simp] theorem emitAll_nf (as : List Action) (s : State) : (emitAll as s).nf = s.nf := rfl
@[simp] theorem emitAll_act (as : List Action) (s : State) : (emitAll as s).act = s.act := rfl
@[simp] theorem emitAll_timing (as : List Action) (s : State) : (emitAll as s).timing = s.timing := rfl
@[simp] theorem emitAll_rxcap (as : List Action) (s : State) : (emitAll as s).rxcap = s.rxcap := rfl
@[simp] theorem emitAll_txcap (as : List Action) (s : State) : (emitAll as s).txcap = s.txcap := rfl
@[simp] theorem emitAll_fdPayload (as : List Action) (s : State) : (emitAll as s).fdPayload = s.fdPayload := rfl
@[simp] theorem emitAll_fdRxmb (as : List Action) (s : State) : (emitAll as s).fdRxmb = s.fdRxmb := rfl
@[simp] theorem emitAll_txpin (as : List Action) (s : State) : (emitAll as s).txpin = s.txpin := rfl
@[simp] theorem emitAll_rxpin (as : List Action) (s : State) : (emitAll as s).rxpin = s.rxpin := rfl
@[simp] theorem emitAll_txf (as : List Action) (s : State) : (emitAll as s).txf = s.txf := rfl
@[simp] theorem emitAll_rxf (as : List Action) (s : State) : (emitAll as s).rxf = s.rxf := rfl
@[simp] theorem emitAll_rxq (as : List Action) (s : State) : (emitAll as s).rxq = s.rxq := rfl
@[simp] theorem emitAll_txq (as : List Action) (s : State) : (emitAll as s).txq = s.txq := rfl
@[simp] theorem emitAll_sp (as : List Action) (s : State) : (emitAll as s).sp = s.sp := rfl
@[simp] theorem emitAll_ss (as : List Action) (s : State) : (emitAll as s).ss = s.ss := rfl
@[simp] theorem emitAll_sf (as : List Action) (s : State) : (emitAll as s).sf = s.sf := rfl
@[simp] theorem emitAll_nslot (as : List Action) (s : State) : (emitAll as s).nslot = s.nslot := rfl
@[simp] theorem emitAll_slot (as : List Action) (s : State) : (emitAll as s).slot = s.slot := rfl
@[simp] theorem emitAll_ncb (as : List Action) (s : State) : (emitAll as s).ncb = s.ncb := rfl
@[simp] theorem emitAll_cbt (as : List Action) (s : State) : (emitAll as s).cbt = s.cbt := rfl
@[simp] theorem emitAll_out (as : List Action) (s : State) : (emitAll as s).out = s.out ++ as := rfl
@[simp] theorem emitAll_par (as : List Action) (s : State) : (emitAll as s).par = s.par := rfl
@[simp] theorem emitAll_inputs (as : List Action) (s : State) : (emitAll as s).inputs = s.inputs := rfl
@[simp] theorem emitAll_port (as : List Action) (s : State) : (emitAll as s).port = s.port := rfl
@[simp] theorem emitAll_busData (as : List Action) (s : State) : (emitAll as s).busData = s.busData := rfl

/-! ## `writeRxf` -/

@[simp] theorem writeRxf_a0 (f : Frame) (s : State) : (writeRxf f s).a0 = s.a0 := rfl
@[simp] theorem writeRxf_a1 (f : Frame) (s : State) : (writeRxf f s).a1 = s.a1 := rfl
@[simp] theorem writeRxf_a2 (f : Frame) (s : State) : (writeRxf f s).a2 = s.a2 := rfl
@[simp] theorem writeRxf_a3 (f : Frame) (s : State) : (writeRxf f s).a3 = s.a3 := rfl
@[simp] theorem writeRxf_a4 (f : Frame) (s : State) : (writeRxf f s).a4 = s.a4 := rfl
@[simp] theorem writeRxf_r0 (f : Frame) (s : State) : (writeRxf f s).r0 = s.r0 := rfl
@[simp] theorem writeRxf_r1 (f : Frame) (s : State) : (writeRxf f s).r1 = s.r1 := rfl
@[simp] theorem writeRxf_life (f : Frame) (s : State) : (writeRxf f s).life = s.life := rfl
@[simp] theorem writeRxf_mode (f : Frame) (s : State) : (writeRxf f s).mode = s.mode := rfl
@[simp] theorem writeRxf_busy (f : Frame) (s : State) : (writeRxf f s).busy = s.busy := rfl
@[simp] theorem writeRxf_err (f : Frame) (s : State) : (writeRxf f s).err = s.err := rfl
@[simp] theorem writeRxf_waitpt (f : Frame) (s : State) : (writeRxf f s).waitpt = s.waitpt := rfl
@[simp] theorem writeRxf_gstat (f : Frame) (s : State) : (writeRxf f s).gstat = s.gstat := rfl
@[simp] theorem writeRxf_np (f : Frame) (s : State) : (writeRxf f s).np = s.np := rfl
@[simp] theorem writeRxf_ns (f : Frame) (s : State) : (writeRxf f s).ns = s.ns := rfl
@[simp] theorem writeRxf_nf (f : Frame) (s : State) : (writeRxf f s).nf = s.nf := rfl
@[simp] theorem writeRxf_act (f : Frame) (s : State) : (writeRxf f s).act = s.act := rfl
@[simp] theorem writeRxf_timing (f : Frame) (s : State) : (writeRxf f s).timing = s.timing := rfl
@[simp] theorem writeRxf_rxcap (f : Frame) (s : State) : (writeRxf f s).rxcap = s.rxcap := rfl
@[simp] theorem writeRxf_txcap (f : Frame) (s : State) : (writeRxf f s).txcap = s.txcap := rfl
@[simp] theorem writeRxf_fdPayload (f : Frame) (s : State) : (writeRxf f s).fdPayload = s.fdPayload := rfl
@[simp] theorem writeRxf_fdRxmb (f : Frame) (s : State) : (writeRxf f s).fdRxmb = s.fdRxmb := rfl
@[simp] theorem writeRxf_txpin (f : Frame) (s : State) : (writeRxf f s).txpin = s.txpin := rfl
@[simp] theorem writeRxf_rxpin (f : Frame) (s : State) : (writeRxf f s).rxpin = s.rxpin := rfl
@[simp] theorem writeRxf_txf (f : Frame) (s : State) : (writeRxf f s).txf = s.txf := rfl
@[simp] theorem writeRxf_rxf (f : Frame) (s : State) : (writeRxf f s).rxf = fileOf f := rfl
@[simp] theorem writeRxf_rxq (f : Frame) (s : State) : (writeRxf f s).rxq = s.rxq := rfl
@[simp] theorem writeRxf_txq (f : Frame) (s : State) : (writeRxf f s).txq = s.txq := rfl
@[simp] theorem writeRxf_sp (f : Frame) (s : State) : (writeRxf f s).sp = s.sp := rfl
@[simp] theorem writeRxf_ss (f : Frame) (s : State) : (writeRxf f s).ss = s.ss := rfl
@[simp] theorem writeRxf_sf (f : Frame) (s : State) : (writeRxf f s).sf = s.sf := rfl
@[simp] theorem writeRxf_nslot (f : Frame) (s : State) : (writeRxf f s).nslot = s.nslot := rfl
@[simp] theorem writeRxf_slot (f : Frame) (s : State) : (writeRxf f s).slot = s.slot := rfl
@[simp] theorem writeRxf_ncb (f : Frame) (s : State) : (writeRxf f s).ncb = s.ncb := rfl
@[simp] theorem writeRxf_cbt (f : Frame) (s : State) : (writeRxf f s).cbt = s.cbt := rfl
@[simp] theorem writeRxf_out (f : Frame) (s : State) : (writeRxf f s).out = s.out := rfl
@[simp] theorem writeRxf_par (f : Frame) (s : State) : (writeRxf f s).par = s.par := rfl
@[simp] theorem writeRxf_inputs (f : Frame) (s : State) : (writeRxf f s).inputs = s.inputs := rfl
@[simp] theorem writeRxf_port (f : Frame) (s : State) : (writeRxf f s).port = s.port := rfl
@[simp] theorem writeRxf_busData (f : Frame) (s : State) : (writeRxf f s).busData = s.busData := rfl

/-! ## `setInitError` -/

@[simp] theorem setInitError_a0 (s : State) : (setInitError s).a0 = s.a0 := rfl
@[simp] theorem setInitError_a1 (s : State) : (setInitError s).a1 = s.a1 := rfl
@[simp] theorem setInitError_a2 (s : State) : (setInitError s).a2 = s.a2 := rfl
@[simp] theorem setInitError_a3 (s : State) : (setInitError s).a3 = s.a3 := rfl
@[simp] theorem setInitError_a4 (s : State) : (setInitError s).a4 = s.a4 := rfl
@[simp] theorem setInitError_r0 (s : State) : (setInitError s).r0 = s.r0 := rfl
@[simp] theorem setInitError_r1 (s : State) : (setInitError s).r1 = s.r1 := rfl
@[simp] theorem setInitError_life (s : State) : (setInitError s).life = s.life := rfl
@[simp] theorem setInitError_mode (s : State) : (setInitError s).mode = s.mode := rfl
@[simp] theorem setInitError_busy (s : State) : (setInitError s).busy = s.busy := rfl
@[simp] theorem setInitError_err (s : State) : (setInitError s).err = s.err := rfl
@[simp] theorem setInitError_waitpt (s : State) : (setInitError s).waitpt = s.waitpt := rfl
@[simp] theorem setInitError_gstat (s : State) : (setInitError s).gstat = s.gstat ||| 0x1#4 := rfl
@[simp] theorem setInitError_np (s : State) : (setInitError s).np = s.np := rfl
@[simp] theorem setInitError_ns (s : State) : (setInitError s).ns = s.ns := rfl
@[simp] theorem setInitError_nf (s : State) : (setInitError s).nf = s.nf := rfl
@[simp] theorem setInitError_act (s : State) : (setInitError s).act = s.act := rfl
@[simp] theorem setInitError_timing (s : State) : (setInitError s).timing = s.timing := rfl
@[simp] theorem setInitError_rxcap (s : State) : (setInitError s).rxcap = s.rxcap := rfl
@[simp] theorem setInitError_txcap (s : State) : (setInitError s).txcap = s.txcap := rfl
@[simp] theorem setInitError_fdPayload (s : State) : (setInitError s).fdPayload = s.fdPayload := rfl
@[simp] theorem setInitError_fdRxmb (s : State) : (setInitError s).fdRxmb = s.fdRxmb := rfl
@[simp] theorem setInitError_txpin (s : State) : (setInitError s).txpin = s.txpin := rfl
@[simp] theorem setInitError_rxpin (s : State) : (setInitError s).rxpin = s.rxpin := rfl
@[simp] theorem setInitError_txf (s : State) : (setInitError s).txf = s.txf := rfl
@[simp] theorem setInitError_rxf (s : State) : (setInitError s).rxf = s.rxf := rfl
@[simp] theorem setInitError_rxq (s : State) : (setInitError s).rxq = s.rxq := rfl
@[simp] theorem setInitError_txq (s : State) : (setInitError s).txq = s.txq := rfl
@[simp] theorem setInitError_sp (s : State) : (setInitError s).sp = s.sp := rfl
@[simp] theorem setInitError_ss (s : State) : (setInitError s).ss = s.ss := rfl
@[simp] theorem setInitError_sf (s : State) : (setInitError s).sf = s.sf := rfl
@[simp] theorem setInitError_nslot (s : State) : (setInitError s).nslot = s.nslot := rfl
@[simp] theorem setInitError_slot (s : State) : (setInitError s).slot = s.slot := rfl
@[simp] theorem setInitError_ncb (s : State) : (setInitError s).ncb = s.ncb := rfl
@[simp] theorem setInitError_cbt (s : State) : (setInitError s).cbt = s.cbt := rfl
@[simp] theorem setInitError_out (s : State) : (setInitError s).out = s.out := rfl
@[simp] theorem setInitError_par (s : State) : (setInitError s).par = s.par := rfl
@[simp] theorem setInitError_inputs (s : State) : (setInitError s).inputs = s.inputs := rfl
@[simp] theorem setInitError_port (s : State) : (setInitError s).port = s.port := rfl
@[simp] theorem setInitError_busData (s : State) : (setInitError s).busData = s.busData := rfl

/-! ## `setFifoWarning` -/

@[simp] theorem setFifoWarning_a0 (s : State) : (setFifoWarning s).a0 = s.a0 := rfl
@[simp] theorem setFifoWarning_a1 (s : State) : (setFifoWarning s).a1 = s.a1 := rfl
@[simp] theorem setFifoWarning_a2 (s : State) : (setFifoWarning s).a2 = s.a2 := rfl
@[simp] theorem setFifoWarning_a3 (s : State) : (setFifoWarning s).a3 = s.a3 := rfl
@[simp] theorem setFifoWarning_a4 (s : State) : (setFifoWarning s).a4 = s.a4 := rfl
@[simp] theorem setFifoWarning_r0 (s : State) : (setFifoWarning s).r0 = s.r0 := rfl
@[simp] theorem setFifoWarning_r1 (s : State) : (setFifoWarning s).r1 = s.r1 := rfl
@[simp] theorem setFifoWarning_life (s : State) : (setFifoWarning s).life = s.life := rfl
@[simp] theorem setFifoWarning_mode (s : State) : (setFifoWarning s).mode = s.mode := rfl
@[simp] theorem setFifoWarning_busy (s : State) : (setFifoWarning s).busy = s.busy := rfl
@[simp] theorem setFifoWarning_err (s : State) : (setFifoWarning s).err = s.err := rfl
@[simp] theorem setFifoWarning_waitpt (s : State) : (setFifoWarning s).waitpt = s.waitpt := rfl
@[simp] theorem setFifoWarning_gstat (s : State) : (setFifoWarning s).gstat = s.gstat ||| 0x2#4 := rfl
@[simp] theorem setFifoWarning_np (s : State) : (setFifoWarning s).np = s.np := rfl
@[simp] theorem setFifoWarning_ns (s : State) : (setFifoWarning s).ns = s.ns := rfl
@[simp] theorem setFifoWarning_nf (s : State) : (setFifoWarning s).nf = s.nf := rfl
@[simp] theorem setFifoWarning_act (s : State) : (setFifoWarning s).act = s.act := rfl
@[simp] theorem setFifoWarning_timing (s : State) : (setFifoWarning s).timing = s.timing := rfl
@[simp] theorem setFifoWarning_rxcap (s : State) : (setFifoWarning s).rxcap = s.rxcap := rfl
@[simp] theorem setFifoWarning_txcap (s : State) : (setFifoWarning s).txcap = s.txcap := rfl
@[simp] theorem setFifoWarning_fdPayload (s : State) : (setFifoWarning s).fdPayload = s.fdPayload := rfl
@[simp] theorem setFifoWarning_fdRxmb (s : State) : (setFifoWarning s).fdRxmb = s.fdRxmb := rfl
@[simp] theorem setFifoWarning_txpin (s : State) : (setFifoWarning s).txpin = s.txpin := rfl
@[simp] theorem setFifoWarning_rxpin (s : State) : (setFifoWarning s).rxpin = s.rxpin := rfl
@[simp] theorem setFifoWarning_txf (s : State) : (setFifoWarning s).txf = s.txf := rfl
@[simp] theorem setFifoWarning_rxf (s : State) : (setFifoWarning s).rxf = s.rxf := rfl
@[simp] theorem setFifoWarning_rxq (s : State) : (setFifoWarning s).rxq = s.rxq := rfl
@[simp] theorem setFifoWarning_txq (s : State) : (setFifoWarning s).txq = s.txq := rfl
@[simp] theorem setFifoWarning_sp (s : State) : (setFifoWarning s).sp = s.sp := rfl
@[simp] theorem setFifoWarning_ss (s : State) : (setFifoWarning s).ss = s.ss := rfl
@[simp] theorem setFifoWarning_sf (s : State) : (setFifoWarning s).sf = s.sf := rfl
@[simp] theorem setFifoWarning_nslot (s : State) : (setFifoWarning s).nslot = s.nslot := rfl
@[simp] theorem setFifoWarning_slot (s : State) : (setFifoWarning s).slot = s.slot := rfl
@[simp] theorem setFifoWarning_ncb (s : State) : (setFifoWarning s).ncb = s.ncb := rfl
@[simp] theorem setFifoWarning_cbt (s : State) : (setFifoWarning s).cbt = s.cbt := rfl
@[simp] theorem setFifoWarning_out (s : State) : (setFifoWarning s).out = s.out := rfl
@[simp] theorem setFifoWarning_par (s : State) : (setFifoWarning s).par = s.par := rfl
@[simp] theorem setFifoWarning_inputs (s : State) : (setFifoWarning s).inputs = s.inputs := rfl
@[simp] theorem setFifoWarning_port (s : State) : (setFifoWarning s).port = s.port := rfl
@[simp] theorem setFifoWarning_busData (s : State) : (setFifoWarning s).busData = s.busData := rfl

/-! ## `setFifoOverflow` -/

@[simp] theorem setFifoOverflow_a0 (s : State) : (setFifoOverflow s).a0 = s.a0 := rfl
@[simp] theorem setFifoOverflow_a1 (s : State) : (setFifoOverflow s).a1 = s.a1 := rfl
@[simp] theorem setFifoOverflow_a2 (s : State) : (setFifoOverflow s).a2 = s.a2 := rfl
@[simp] theorem setFifoOverflow_a3 (s : State) : (setFifoOverflow s).a3 = s.a3 := rfl
@[simp] theorem setFifoOverflow_a4 (s : State) : (setFifoOverflow s).a4 = s.a4 := rfl
@[simp] theorem setFifoOverflow_r0 (s : State) : (setFifoOverflow s).r0 = s.r0 := rfl
@[simp] theorem setFifoOverflow_r1 (s : State) : (setFifoOverflow s).r1 = s.r1 := rfl
@[simp] theorem setFifoOverflow_life (s : State) : (setFifoOverflow s).life = s.life := rfl
@[simp] theorem setFifoOverflow_mode (s : State) : (setFifoOverflow s).mode = s.mode := rfl
@[simp] theorem setFifoOverflow_busy (s : State) : (setFifoOverflow s).busy = s.busy := rfl
@[simp] theorem setFifoOverflow_err (s : State) : (setFifoOverflow s).err = s.err := rfl
@[simp] theorem setFifoOverflow_waitpt (s : State) : (setFifoOverflow s).waitpt = s.waitpt := rfl
@[simp] theorem setFifoOverflow_gstat (s : State) : (setFifoOverflow s).gstat = s.gstat ||| 0x4#4 := rfl
@[simp] theorem setFifoOverflow_np (s : State) : (setFifoOverflow s).np = s.np := rfl
@[simp] theorem setFifoOverflow_ns (s : State) : (setFifoOverflow s).ns = s.ns := rfl
@[simp] theorem setFifoOverflow_nf (s : State) : (setFifoOverflow s).nf = s.nf := rfl
@[simp] theorem setFifoOverflow_act (s : State) : (setFifoOverflow s).act = s.act := rfl
@[simp] theorem setFifoOverflow_timing (s : State) : (setFifoOverflow s).timing = s.timing := rfl
@[simp] theorem setFifoOverflow_rxcap (s : State) : (setFifoOverflow s).rxcap = s.rxcap := rfl
@[simp] theorem setFifoOverflow_txcap (s : State) : (setFifoOverflow s).txcap = s.txcap := rfl
@[simp] theorem setFifoOverflow_fdPayload (s : State) : (setFifoOverflow s).fdPayload = s.fdPayload := rfl
@[simp] theorem setFifoOverflow_fdRxmb (s : State) : (setFifoOverflow s).fdRxmb = s.fdRxmb := rfl
@[simp] theorem setFifoOverflow_txpin (s : State) : (setFifoOverflow s).txpin = s.txpin := rfl
@[simp] theorem setFifoOverflow_rxpin (s : State) : (setFifoOverflow s).rxpin = s.rxpin := rfl
@[simp] theorem setFifoOverflow_txf (s : State) : (setFifoOverflow s).txf = s.txf := rfl
@[simp] theorem setFifoOverflow_rxf (s : State) : (setFifoOverflow s).rxf = s.rxf := rfl
@[simp] theorem setFifoOverflow_rxq (s : State) : (setFifoOverflow s).rxq = s.rxq := rfl
@[simp] theorem setFifoOverflow_txq (s : State) : (setFifoOverflow s).txq = s.txq := rfl
@[simp] theorem setFifoOverflow_sp (s : State) : (setFifoOverflow s).sp = s.sp := rfl
@[simp] theorem setFifoOverflow_ss (s : State) : (setFifoOverflow s).ss = s.ss := rfl
@[simp] theorem setFifoOverflow_sf (s : State) : (setFifoOverflow s).sf = s.sf := rfl
@[simp] theorem setFifoOverflow_nslot (s : State) : (setFifoOverflow s).nslot = s.nslot := rfl
@[simp] theorem setFifoOverflow_slot (s : State) : (setFifoOverflow s).slot = s.slot := rfl
@[simp] theorem setFifoOverflow_ncb (s : State) : (setFifoOverflow s).ncb = s.ncb := rfl
@[simp] theorem setFifoOverflow_cbt (s : State) : (setFifoOverflow s).cbt = s.cbt := rfl
@[simp] theorem setFifoOverflow_out (s : State) : (setFifoOverflow s).out = s.out := rfl
@[simp] theorem setFifoOverflow_par (s : State) : (setFifoOverflow s).par = s.par := rfl
@[simp] theorem setFifoOverflow_inputs (s : State) : (setFifoOverflow s).inputs = s.inputs := rfl
@[simp] theorem setFifoOverflow_port (s : State) : (setFifoOverflow s).port = s.port := rfl
@[simp] theorem setFifoOverflow_busData (s : State) : (setFifoOverflow s).busData = s.busData := rfl

/-! ## `setRxbufOverflow` -/

@[simp] theorem setRxbufOverflow_a0 (s : State) : (setRxbufOverflow s).a0 = s.a0 := rfl
@[simp] theorem setRxbufOverflow_a1 (s : State) : (setRxbufOverflow s).a1 = s.a1 := rfl
@[simp] theorem setRxbufOverflow_a2 (s : State) : (setRxbufOverflow s).a2 = s.a2 := rfl
@[simp] theorem setRxbufOverflow_a3 (s : State) : (setRxbufOverflow s).a3 = s.a3 := rfl
@[simp] theorem setRxbufOverflow_a4 (s : State) : (setRxbufOverflow s).a4 = s.a4 := rfl
@[simp] theorem setRxbufOverflow_r0 (s : State) : (setRxbufOverflow s).r0 = s.r0 := rfl
@[simp] theorem setRxbufOverflow_r1 (s : State) : (setRxbufOverflow s).r1 = s.r1 := rfl
@[simp] theorem setRxbufOverflow_life (s : State) : (setRxbufOverflow s).life = s.life := rfl
@[simp] theorem setRxbufOverflow_mode (s : State) : (setRxbufOverflow s).mode = s.mode := rfl
@[simp] theorem setRxbufOverflow_busy (s : State) : (setRxbufOverflow s).busy = s.busy := rfl
@[simp] theorem setRxbufOverflow_err (s : State) : (setRxbufOverflow s).err = s.err := rfl
@[simp] theorem setRxbufOverflow_waitpt (s : State) : (setRxbufOverflow s).waitpt = s.waitpt := rfl
@[simp] theorem setRxbufOverflow_gstat (s : State) : (setRxbufOverflow s).gstat = s.gstat ||| 0x8#4 := rfl
@[simp] theorem setRxbufOverflow_np (s : State) : (setRxbufOverflow s).np = s.np := rfl
@[simp] theorem setRxbufOverflow_ns (s : State) : (setRxbufOverflow s).ns = s.ns := rfl
@[simp] theorem setRxbufOverflow_nf (s : State) : (setRxbufOverflow s).nf = s.nf := rfl
@[simp] theorem setRxbufOverflow_act (s : State) : (setRxbufOverflow s).act = s.act := rfl
@[simp] theorem setRxbufOverflow_timing (s : State) : (setRxbufOverflow s).timing = s.timing := rfl
@[simp] theorem setRxbufOverflow_rxcap (s : State) : (setRxbufOverflow s).rxcap = s.rxcap := rfl
@[simp] theorem setRxbufOverflow_txcap (s : State) : (setRxbufOverflow s).txcap = s.txcap := rfl
@[simp] theorem setRxbufOverflow_fdPayload (s : State) : (setRxbufOverflow s).fdPayload = s.fdPayload := rfl
@[simp] theorem setRxbufOverflow_fdRxmb (s : State) : (setRxbufOverflow s).fdRxmb = s.fdRxmb := rfl
@[simp] theorem setRxbufOverflow_txpin (s : State) : (setRxbufOverflow s).txpin = s.txpin := rfl
@[simp] theorem setRxbufOverflow_rxpin (s : State) : (setRxbufOverflow s).rxpin = s.rxpin := rfl
@[simp] theorem setRxbufOverflow_txf (s : State) : (setRxbufOverflow s).txf = s.txf := rfl
@[simp] theorem setRxbufOverflow_rxf (s : State) : (setRxbufOverflow s).rxf = s.rxf := rfl
@[simp] theorem setRxbufOverflow_rxq (s : State) : (setRxbufOverflow s).rxq = s.rxq := rfl
@[simp] theorem setRxbufOverflow_txq (s : State) : (setRxbufOverflow s).txq = s.txq := rfl
@[simp] theorem setRxbufOverflow_sp (s : State) : (setRxbufOverflow s).sp = s.sp := rfl
@[simp] theorem setRxbufOverflow_ss (s : State) : (setRxbufOverflow s).ss = s.ss := rfl
@[simp] theorem setRxbufOverflow_sf (s : State) : (setRxbufOverflow s).sf = s.sf := rfl
@[simp] theorem setRxbufOverflow_nslot (s : State) : (setRxbufOverflow s).nslot = s.nslot := rfl
@[simp] theorem setRxbufOverflow_slot (s : State) : (setRxbufOverflow s).slot = s.slot := rfl
@[simp] theorem setRxbufOverflow_ncb (s : State) : (setRxbufOverflow s).ncb = s.ncb := rfl
@[simp] theorem setRxbufOverflow_cbt (s : State) : (setRxbufOverflow s).cbt = s.cbt := rfl
@[simp] theorem setRxbufOverflow_out (s : State) : (setRxbufOverflow s).out = s.out := rfl
@[simp] theorem setRxbufOverflow_par (s : State) : (setRxbufOverflow s).par = s.par := rfl
@[simp] theorem setRxbufOverflow_inputs (s : State) : (setRxbufOverflow s).inputs = s.inputs := rfl
@[simp] theorem setRxbufOverflow_port (s : State) : (setRxbufOverflow s).port = s.port := rfl
@[simp] theorem setRxbufOverflow_busData (s : State) : (setRxbufOverflow s).busData = s.busData := rfl

end Sys2Proof.Machine
end

