-- ==== Sys2Proof/Laws/Arbiter.lean ====
section
/-! SUPPORT. The arbiter's operations (file 44): what the pieces of sending, receiving and handling do, and the frame they all
share (`RunFrame`): they leave the life cycle, the tables, the staging lists and the other configuration alone, and keep the
rings and the frames in them good. -/

namespace Sys2Proof.Machine

/-! ## Pieces -/

@[simp] theorem onFlag_true (g : State → State) (s : State) : onFlag true g s = g s := rfl
@[simp] theorem onFlag_false (g : State → State) (s : State) : onFlag false g s = s := rfl

/-- A push of the handler, full or not (R215). -/
theorem rxPush_eq (f : Frame) (s : State) :
    rxPush f s = { s with
      rxq := if s.rxq.cnt = s.rxq.cap then s.rxq else pushed s.rxq f
      gstat := if s.rxq.cnt = s.rxq.cap then s.gstat ||| 8#4 else s.gstat } := by
  simp only [rxPush]
  by_cases h : s.rxq.cnt = s.rxq.cap
  · simp only [qPush_eq_none.2 h, h, if_true]; rfl
  · simp only [(qPush_eq_some (q := s.rxq)).2 ⟨h, rfl⟩, h, if_false]; rfl

/-- The oldest frame of a good ring is well formed and in normal form. -/
theorem RingWf.frame {q : Ring} (h : RingWf q) (hf : FramesGood q.mem) (he : q.cnt ≠ 0) :
    fdOk (readFrame q.mem q.rd.toNat) = true ∧ norm (readFrame q.mem q.rd.toNat) = readFrame q.mem q.rd.toNat := by
  have hpos := cnt_pos he
  have hcap : 0 < q.cap.toNat := by have := h.cnt_le; omega
  have := h.live 0 hpos
  rw [ringIndex_zero h hcap] at this
  obtain ⟨f, hf'⟩ := Option.isSome_iff_exists.1 this
  have hm := hf _ (mem_of_read? hf')
  simpa [readFrame, hf'] using hm

/-! ## The frame -/

/-- `t` is `s` after operations of the arbiter: everything but the rings, `GSTAT` bits 1 to 3, `RXF`, `R0`, `R1`, `ERR`, `OUT`
and the port is the same, and good rings stay good. -/
structure RunFrame (s t : State) : Prop where
  par : t.par = s.par
  life : t.life = s.life
  busy : t.busy = s.busy
  waitpt : t.waitpt = s.waitpt
  mode : t.mode = s.mode
  act : t.act = s.act
  nslot : t.nslot = s.nslot
  slot : t.slot = s.slot
  ncb : t.ncb = s.ncb
  cbt : t.cbt = s.cbt
  gstat : t.gstat.getLsbD 0 = s.gstat.getLsbD 0
  stage : t.sp = s.sp ∧ t.ss = s.ss ∧ t.sf = s.sf ∧ t.np = s.np ∧ t.ns = s.ns ∧ t.nf = s.nf
  rings : RingsInv s → FramesInv s → RingsInv t ∧ FramesInv t

theorem RunFrame.refl (s : State) : RunFrame s s := by
  exact ⟨rfl, rfl, rfl, rfl, rfl, rfl, rfl, rfl, rfl, rfl, rfl, ⟨rfl, rfl, rfl, rfl, rfl, rfl⟩, fun a b => ⟨a, b⟩⟩

theorem RunFrame.trans {s t u : State} (a : RunFrame s t) (b : RunFrame t u) : RunFrame s u := by
  obtain ⟨a1, a2, a3, a4, a5, a6, a7, a8, a9, a10, a11, a12, a13⟩ := a
  obtain ⟨b1, b2, b3, b4, b5, b6, b7, b8, b9, b10, b11, b12, b13⟩ := b
  refine ⟨b1.trans a1, b2.trans a2, b3.trans a3, b4.trans a4, b5.trans a5, b6.trans a6, b7.trans a7, b8.trans a8,
    b9.trans a9, b10.trans a10, b11.trans a11, ?_, ?_⟩
  · simp [a12, b12]
  · intro h1 h2
    have := a13 h1 h2
    exact b13 this.1 this.2

/-- The frame of an operation that touches no ring and not `RXF`. -/
theorem RunFrame.of_fields {s t : State} (par : t.par = s.par) (life : t.life = s.life) (busy : t.busy = s.busy)
    (waitpt : t.waitpt = s.waitpt) (mode : t.mode = s.mode) (act : t.act = s.act) (nslot : t.nslot = s.nslot)
    (slot : t.slot = s.slot) (ncb : t.ncb = s.ncb) (cbt : t.cbt = s.cbt)
    (gstat : t.gstat.getLsbD 0 = s.gstat.getLsbD 0) (sp : t.sp = s.sp) (ss : t.ss = s.ss) (sf : t.sf = s.sf)
    (np : t.np = s.np) (ns : t.ns = s.ns) (nf : t.nf = s.nf) (rxq : t.rxq = s.rxq) (txq : t.txq = s.txq)
    (rxf : t.rxf = s.rxf) : RunFrame s t := by
  refine ⟨par, life, busy, waitpt, mode, act, nslot, slot, ncb, cbt, gstat, ⟨sp, ss, sf, np, ns, nf⟩, ?_⟩
  intro h1 h2
  exact ⟨by simpa [RingsInv, rxq, txq] using h1, by simpa [FramesInv, rxq, txq, rxf] using h2⟩

theorem runFrame_emit (a : Action) (s : State) : RunFrame s (emit a s) := by
  apply RunFrame.of_fields <;> rfl

theorem runFrame_emitAll (a : List Action) (s : State) : RunFrame s (emitAll a s) := by
  apply RunFrame.of_fields <;> rfl

theorem runFrame_port (p : Port) (s : State) : RunFrame s (setPort p s) := by
  apply RunFrame.of_fields <;> rfl

theorem runFrame_setR0 (v : Word) (s : State) : RunFrame s (setR0 v s) := by
  apply RunFrame.of_fields <;> rfl

theorem runFrame_setR1 (v : Word) (s : State) : RunFrame s (setR1 v s) := by
  apply RunFrame.of_fields <;> rfl

theorem runFrame_accept (s : State) : RunFrame s (accept s) := by
  apply RunFrame.of_fields <;> rfl

theorem runFrame_refuse (c : ErrCode) (s : State) : RunFrame s (refuse c s) := by
  apply RunFrame.of_fields <;> rfl

theorem or_bit_zero (g m : BitVec 4) (h : m.getLsbD 0 = false) : (g ||| m).getLsbD 0 = g.getLsbD 0 := by
  rw [BitVec.getLsbD_or, h, Bool.or_false]

theorem runFrame_setFifoWarning (s : State) : RunFrame s (setFifoWarning s) := by
  apply RunFrame.of_fields <;> first | rfl | exact or_bit_zero _ _ rfl

theorem runFrame_setFifoOverflow (s : State) : RunFrame s (setFifoOverflow s) := by
  apply RunFrame.of_fields <;> first | rfl | exact or_bit_zero _ _ rfl

theorem runFrame_setRxbufOverflow (s : State) : RunFrame s (setRxbufOverflow s) := by
  apply RunFrame.of_fields <;> first | rfl | exact or_bit_zero _ _ rfl

theorem framesGood_pushed {q : Ring} {f : Frame} (h : FramesGood q.mem) (hf : fdOk f = true ∧ norm f = f) :
    FramesGood (pushed q f).mem := by
  intro e he
  rcases mem_write he with rfl | he
  · exact hf
  · exact h e he

theorem runFrame_txPush {s : State} {q : Ring} {f : Frame} (h : qPush s.txq f = some q) (hf : fdOk f = true ∧ norm f = f) :
    RunFrame s (setTxq q s) := by
  obtain ⟨hn, rfl⟩ := qPush_eq_some.1 h
  refine ⟨rfl, rfl, rfl, rfl, rfl, rfl, rfl, rfl, rfl, rfl, rfl, ⟨rfl, rfl, rfl, rfl, rfl, rfl⟩, ?_⟩
  intro h1 h2
  exact ⟨⟨h1.1, ringWf_pushed _ h1.2 hn⟩, ⟨h2.1, framesGood_pushed h2.2.1 hf, h2.2.2⟩⟩

theorem runFrame_rxPush {s : State} {f : Frame} (hf : fdOk f = true ∧ norm f = f) : RunFrame s (rxPush f s) := by
  simp only [rxPush]
  cases h : qPush s.rxq f with
  | none => exact runFrame_setRxbufOverflow s
  | some q =>
    obtain ⟨hn, rfl⟩ := qPush_eq_some.1 h
    refine ⟨rfl, rfl, rfl, rfl, rfl, rfl, rfl, rfl, rfl, rfl, rfl, ⟨rfl, rfl, rfl, rfl, rfl, rfl⟩, ?_⟩
    intro h1 h2
    exact ⟨⟨ringWf_pushed _ h1.1 hn, h1.2⟩, ⟨framesGood_pushed h2.1 hf, h2.2.1, h2.2.2⟩⟩

theorem runFrame_txPop {s : State} {q : Ring} {f : Frame} (h : qPop s.txq = some (f, q)) : RunFrame s (setTxq q s) := by
  obtain ⟨hn, rfl, rfl⟩ := qPop_eq_some.1 h
  refine ⟨rfl, rfl, rfl, rfl, rfl, rfl, rfl, rfl, rfl, rfl, rfl, ⟨rfl, rfl, rfl, rfl, rfl, rfl⟩, ?_⟩
  intro h1 h2
  exact ⟨⟨h1.1, ringWf_popped h1.2 hn⟩, h2⟩

theorem runFrame_rxPop {s : State} {q : Ring} {f : Frame} (h : qPop s.rxq = some (f, q)) :
    RunFrame s (writeRxf f (setRxq q s)) := by
  obtain ⟨hn, rfl, rfl⟩ := qPop_eq_some.1 h
  refine ⟨rfl, rfl, rfl, rfl, rfl, rfl, rfl, rfl, rfl, rfl, rfl, ⟨rfl, rfl, rfl, rfl, rfl, rfl⟩, ?_⟩
  intro h1 h2
  refine ⟨⟨ringWf_popped h1.1 hn, h1.2⟩, ⟨h2.1, h2.2.1, ?_⟩⟩
  exact norm_readFile_fileOf (h1.1.frame h2.1 hn).2

theorem runFrame_txWrite (i : Nat) (f : Frame) (s : State) : RunFrame s (txWrite i f s) := by
  simp only [txWrite]
  cases s.mode
  · exact runFrame_emit _ _
  · exact runFrame_emitAll _ _

theorem runFrame_sendData {f : Frame} (mb : Nat) (s : State) (hf : fdOk f = true ∧ norm f = f) :
    RunFrame s (sendData f mb s) := by
  simp only [sendData]
  split
  · exact ((runFrame_port _ _).trans (runFrame_txWrite _ _ _)).trans (runFrame_setR0 _ _)
  · split
    · exact (runFrame_port _ _).trans (runFrame_setR0 _ _)
    · rename_i h
      exact ((runFrame_port _ _).trans (runFrame_txPush h hf)).trans (runFrame_setR0 _ _)

theorem runFrame_sendRemote (f : Frame) (l : List Nat) (s : State) : RunFrame s (sendRemote f l s) := by
  induction l generalizing s with
  | nil => exact runFrame_setR0 _ _
  | cons i l ih =>
    simp only [sendRemote]
    split
    · exact ((runFrame_port _ _).trans (runFrame_txWrite _ _ _)).trans (runFrame_setR0 _ _)
    · exact (runFrame_port _ _).trans (ih _)

theorem runFrame_sendFrame {f : Frame} (a b : Nat) (s : State) (hf : fdOk f = true ∧ norm f = f) :
    RunFrame s (sendFrame f a b s) := by
  simp only [sendFrame]
  split
  · exact runFrame_sendRemote _ _ _
  · exact runFrame_sendData _ _ hf

theorem runFrame_send {s t : State} (h : execSend s = .next t) : RunFrame s t := by
  simp only [execSend, done, Host.Outcome.next.injEq] at h
  subst h
  split
  · exact runFrame_refuse _ _
  · rename_i hc
    split
    · exact (runFrame_accept _).trans (runFrame_setR0 _ _)
    · split
      · exact (runFrame_accept _).trans (runFrame_setR0 _ _)
      · refine (runFrame_accept _).trans (runFrame_sendFrame _ _ _ ⟨?_, norm_norm _⟩)
        rw [fdOk_norm]; exact fdOk_of_classicOk (by simpa using hc)

theorem runFrame_sendFd {s t : State} (h : execSendFd s = .next t) : RunFrame s t := by
  simp only [execSendFd, done, Host.Outcome.next.injEq] at h
  subst h
  split
  · exact runFrame_refuse _ _
  · rename_i hc
    split
    · exact (runFrame_accept _).trans (runFrame_setR0 _ _)
    · split
      · exact (runFrame_accept _).trans (runFrame_setR0 _ _)
      · split
        · exact (runFrame_accept _).trans (runFrame_setR0 _ _)
        · refine (runFrame_accept _).trans (runFrame_sendFrame _ _ _ ⟨?_, norm_norm _⟩)
          rw [fdOk_norm]; simpa using hc

theorem runFrame_recvFrame {m : Mode} {s t : State} {f : Frame} (h : recvFrame m s = some (f, t)) : RunFrame s t := by
  simp only [recvFrame] at h
  split at h
  · cases h
  · split at h
    · cases h
    · rename_i hq
      cases h
      exact runFrame_rxPop hq

theorem runFrame_recvIn (m : Mode) (s : State) : RunFrame s (recvIn m s) := by
  simp only [recvIn]
  split
  · exact (runFrame_accept _).trans (runFrame_setR0 _ _)
  · rename_i h
    exact ((runFrame_accept _).trans (runFrame_recvFrame h)).trans (runFrame_setR0 _ _)

theorem runFrame_onFlag (b : Bool) {g : State → State} (u : State) (hg : ∀ v, RunFrame v (g v)) :
    RunFrame u (onFlag b g u) := by
  simp only [onFlag]
  split
  · exact hg u
  · exact RunFrame.refl u

theorem runFrame_dispatchIn (m : Mode) (n : Bool) (s : State) : RunFrame s (dispatchIn m n s) := by
  simp only [dispatchIn]
  split
  · exact ((runFrame_accept _).trans (runFrame_setR0 _ _)).trans (runFrame_setR1 _ _)
  · rename_i f t h
    refine ((runFrame_accept _).trans (runFrame_recvFrame h)).trans ?_
    refine RunFrame.trans ?_ (runFrame_setR1 _ _)
    refine RunFrame.trans ?_ (runFrame_setR0 _ _)
    refine RunFrame.trans ?_ (runFrame_onFlag _ _ (runFrame_emit _))
    exact runFrame_onFlag _ _ (runFrame_emit _)

theorem runFrame_txDrain (mb : Nat) (s : State) : RunFrame s (txDrain mb s) := by
  simp only [txDrain]
  split
  · rename_i h
    exact (runFrame_txPop h).trans (runFrame_txWrite _ _ _)
  · exact runFrame_emit _ _

theorem runFrame_isrcReceive (v : State) : RunFrame v (isrcReceive v) := by
  simp only [isrcReceive]
  refine (runFrame_port _ v).trans (runFrame_rxPush ⟨?_, ?_⟩)
  · rw [fdOk_idx_update]; exact fdOk_unpack _ _ _ _
  · rw [norm_idx_update, norm_unpack]

theorem runFrame_isrcRun (w : BitVec 4) (s : State) : RunFrame s (isrcRun w s) := by
  simp only [isrcRun]
  refine RunFrame.trans ?_ (runFrame_emit _ _)
  refine RunFrame.trans ?_ (runFrame_onFlag _ _ (runFrame_txDrain _))
  refine RunFrame.trans ?_ (runFrame_onFlag _ _ runFrame_setFifoOverflow)
  refine RunFrame.trans ?_ (runFrame_onFlag _ _ runFrame_setFifoWarning)
  exact runFrame_onFlag _ _ runFrame_isrcReceive

theorem runFrame_isrFdReceive (i : Nat) (v : State) : RunFrame v (isrFdReceive i v) := by
  simp only [isrFdReceive]
  refine ((runFrame_port _ v).trans (runFrame_rxPush ⟨?_, ?_⟩)).trans (runFrame_emit _ _)
  · rw [fdOk_idx_update]; exact fdOk_unpack _ _ _ _
  · rw [norm_idx_update, norm_unpack]

theorem runFrame_isrFdMailbox (i : Nat) (v : State) : RunFrame v (isrFdMailbox i v) := by
  simp only [isrFdMailbox]
  split
  · exact runFrame_isrFdReceive _ _
  · split
    · exact runFrame_txDrain _ _
    · exact RunFrame.refl _

theorem runFrame_isrFdLoop (fl : BitVec 64) (l : List Nat) (s : State) : RunFrame s (isrFdLoop fl l s) := by
  induction l generalizing s with
  | nil => exact RunFrame.refl s
  | cons i l ih =>
    simp only [isrFdLoop]
    exact (runFrame_onFlag _ _ (runFrame_isrFdMailbox i)).trans (ih _)

end Sys2Proof.Machine
end

