-- ==== Sys2Proof/Laws/Bits.lean ====
section
/-! SUPPORT. Bits of the words the block builds: one bit in place (`bitAt`), error words (`flagWord`) and `T_FLAGS`. -/

namespace Sys2Proof.Machine

theorem getLsbD_bitAt (b : Bool) {n : Nat} (i : Nat) (hn : n < 32) : (bitAt b n).getLsbD i = (decide (i = n) && b) := by
  simp only [bitAt, BitVec.getLsbD_shiftLeft, BitVec.getLsbD_setWidth, BitVec.getLsbD_ofBool]
  by_cases h : i = n
  · subst h; simp [hn]
  · by_cases h' : i < n
    · simp [h, h']
    · simp [h, h']; omega

theorem getLsbD_flagWord_nil (i : Nat) : (flagWord []).getLsbD i = false := by simp [flagWord]

/-- A bit of an error word: its first row's condition, or a bit of the rest. -/
theorem getLsbD_flagWord_cons (b : Bool) {n : Nat} (l : List (Bool × Nat)) (i : Nat) (hn : n < 32) :
    (flagWord ((b, n) :: l)).getLsbD i = ((decide (i = n) && b) || (flagWord l).getLsbD i) := by
  simp only [flagWord, BitVec.getLsbD_or, getLsbD_bitAt _ _ hn]

/-- A word is 0 when all its bits are. -/
theorem word_eq_zero_iff (w : Word) : w = 0 ↔ ∀ n, n < 32 → w.getLsbD n = false := by
  constructor
  · rintro rfl n _
    simp
  · intro h
    refine BitVec.eq_of_getLsbD_eq fun i hi => ?_
    rw [h i hi]
    simp

/-- A register cut to `n` bits and read back is masked. -/
theorem setWidth_setWidth_eq_and (v : Word) (n : Nat) (m : Word) (h : ∀ i, i < 32 → m.getLsbD i = decide (i < n)) :
    (v.setWidth n).setWidth 32 = v &&& m := by
  refine BitVec.eq_of_getLsbD_eq fun i hi => ?_
  rw [BitVec.getLsbD_and, h i hi]
  simp [hi, Bool.and_comm]

theorem timingFlags_triple (a b c : Bool) : (timingFlags a b c).getLsbD 0 = a := by
  cases a <;> cases b <;> cases c <;> rfl

theorem timingFlags_bitok (a b c : Bool) : (timingFlags a b c).getLsbD 1 = b := by
  cases a <;> cases b <;> cases c <;> rfl

theorem timingFlags_fd (a b c : Bool) : (timingFlags a b c).getLsbD 2 = c := by
  cases a <;> cases b <;> cases c <;> rfl

/-- `|a - b|` on the naturals is the absolute value over the integers (R11). -/
theorem absDiff_eq_natAbs (a b : Nat) : absDiff a b = ((a : Int) - (b : Nat)).natAbs := by
  simp only [absDiff]
  omega

theorem idMax_std_bit (i : Nat) : (idMax .std).getLsbD i = decide (i < 11) := by
  by_cases hi : i < 32
  · exact (show ∀ i, i < 32 → (idMax .std).getLsbD i = decide (i < 11) by decide) i hi
  · rw [BitVec.getLsbD_of_ge _ _ (by omega)]
    simp
    omega

theorem idMax_ext_bit (i : Nat) : (idMax .ext).getLsbD i = decide (i < 29) := by
  by_cases hi : i < 32
  · exact (show ∀ i, i < 32 → (idMax .ext).getLsbD i = decide (i < 29) by decide) i hi
  · rw [BitVec.getLsbD_of_ge _ _ (by omega)]
    simp
    omega

end Sys2Proof.Machine
end

