-- ==== Sys2Proof/Laws/Config.lean ====
section
/-! SUPPORT. Staging and configuration: pushes keep a staging list good (R160 to R162), what a zero error word says (R173,
R178), and the bounds the parameters obey (R9). -/

namespace Sys2Proof.Machine

/-- The bounds of R9 on the filter counts. -/
theorem Params.filter_bounds {p : Params} (h : p.wf = true) :
    p.nPrimaryMax ≤ 254 ∧ p.nSecondaryMax ≤ 254 ∧ 1 ≤ p.nPrimaryMax ∧ p.nPrimaryMax + p.nSecondaryMax ≤ 254 := by
  simp [Params.wf] at h
  omega

/-- The bounds of R9 on the FD mailbox counts. -/
theorem fdMbTotal_bounds {p : Params} (h : p.wf = true) (c : BitVec 2) : 3 ≤ fdMbTotal p c ∧ fdMbTotal p c ≤ 64 := by
  simp [Params.wf] at h
  simp only [fdMbTotal]
  split_ifs <;> omega

/-- A staging counter saturates at 255 (R160). -/
theorem stageCount_toNat (n : Byte) :
    (stageCount n).toNat = if n.toNat < 255 then n.toNat + 1 else n.toNat := by
  simp only [stageCount]
  split
  · rename_i h
    simp only [Config.stageMax] at h
    simp only [BitVec.toNat_ofNat, h, if_true]
    omega
  · rename_i h
    simp only [Config.stageMax] at h
    simp only [h, if_false]

/-- A push keeps a staging list good. -/
theorem stageWf_push {limit : Nat} {n : Byte} {m : Memory FilterEntry} (e : FilterEntry)
    (h : StageWf limit n m) (hl : limit ≤ 255) : StageWf limit (stageCount n) (stagePush limit n m e) := by
  obtain ⟨h1, h2, h3⟩ := h
  have hc := stageCount_toNat n
  have := n.isLt
  by_cases hn : n.toNat < limit
  · simp only [stagePush, hn, if_true]
    constructor
    · exact write_wf _ _ h1
    · intro x hx
      rcases mem_write hx with rfl | hx
      · exact hn
      · exact h2 x hx
    · intro i hi
      by_cases hi' : i = n.toNat
      · subst hi'; simp [read?_write_same]
      · refine read?_isSome_of_write (h3 i ?_)
        rw [hc] at hi
        split at hi <;> omega
  · simp only [stagePush, hn, if_false]
    refine ⟨h1, h2, ?_⟩
    intro i hi
    exact h3 i (by rw [hc] at hi; split at hi <;> omega)

theorem nonconform_false {m : Memory FilterEntry} {n i : Nat} (h : nonconform m n = false) (hi : i < n) :
    (readFilter m i).aw.getLsbD 0 = false := by
  simp only [nonconform, List.any_eq_false, List.mem_range] at h
  simpa using h i hi

theorem word_or_eq_zero {a b : Word} : a ||| b = 0 ↔ a = 0 ∧ b = 0 := by
  constructor
  · intro h
    have hb : ∀ i, (a ||| b).getLsbD i = false := by intro i; rw [h]; simp
    simp only [BitVec.getLsbD_or, Bool.or_eq_false_iff] at hb
    constructor
    · exact BitVec.eq_of_getLsbD_eq fun i _ => by simpa using (hb i).1
    · exact BitVec.eq_of_getLsbD_eq fun i _ => by simpa using (hb i).2
  · rintro ⟨rfl, rfl⟩
    simp

theorem bitAt_eq_zero {b : Bool} {n : Nat} (hn : n < 32) : bitAt b n = 0 ↔ b = false := by
  constructor
  · intro h
    by_contra hb
    have hb : b = true := by simpa using hb
    subst hb
    have : (bitAt true n).getLsbD n = false := by rw [h]; simp
    simp [bitAt, hn] at this
  · rintro rfl; simp [bitAt]

/-- Every word the decoder accepts is a command (R100). -/
theorem decode_isCommand {w : Word} {i : Instr} (h : decode w = .ok i) : i.isCommand = true := by
  have hp : ∀ imm j, decodePlain imm j = .ok i → j.isCommand = true → i.isCommand = true := by
    intro imm j hj hc
    simp only [decodePlain] at hj
    split at hj <;> cases hj
    exact hc
  have hf : ∀ imm (mk : FilterKind → Format → Instr),
      decodeFilter imm mk = .ok i → (∀ a b, (mk a b).isCommand = true) → i.isCommand = true := by
    intro imm j hj hc
    simp only [decodeFilter] at hj
    split at hj <;> cases hj
    exact hc _ _
  have hg : ∀ imm, decodeGsclr imm = .ok i → i.isCommand = true := by
    intro imm hj
    simp only [decodeGsclr] at hj
    split at hj <;> cases hj
    rfl
  have hn : ∀ imm (mk : Bool → Instr),
      decodeNotify imm mk = .ok i → (∀ a, (mk a).isCommand = true) → i.isCommand = true := by
    intro imm j hj hc
    simp only [decodeNotify] at hj
    split at hj <;> cases hj
    exact hc _
  simp only [decode] at h
  split at h <;> first
    | exact hp _ _ h rfl
    | exact hf _ _ h (fun _ _ => rfl)
    | exact hg _ h
    | exact hn _ _ h (fun _ => rfl)
    | cases h

end Sys2Proof.Machine
end

