-- ==== Sys2Proof/Laws/Host.lean ====
section
/-! SUPPORT. What a host access reaches (R61 to R63), what one step does with the next move of the outside, and that every
operation answers a next state. -/

namespace Sys2Proof.Machine

theorem mem_hostRegs (r : HostReg) : r ∈ hostRegs := by
  cases r
  case txfD k => simp [hostRegs]
  case rxfD k => simp [hostRegs]
  all_goals decide

/-- No two registers share an offset. -/
theorem regAt_regOffset (r : HostReg) : regAt (regOffset r) = some r :=
  (show ∀ r ∈ hostRegs, regAt (regOffset r) = some r by decide) r (mem_hostRegs r)

theorem regAt_eq_some {o : Nat} {r : HostReg} : regAt o = some r ↔ o = regOffset r := by
  constructor
  · intro h
    have h' := List.find?_some h
    exact Eq.symm (by simpa using h')
  · rintro rfl
    exact regAt_regOffset r

/-- The register an access reaches. -/
theorem busReg_eq_some {p : Params} {a z : Nat} {r : HostReg} :
    busReg p a z = some r ↔ z = 4 ∧ a = p.seaBase + regOffset r := by
  simp only [busReg]
  split
  · rw [regAt_eq_some]
    omega
  · simp only [reduceCtorEq, false_iff]
    omega

/-- A step takes the next move of the outside. -/
theorem step_cons {s : State} {e : Input} {rest : List Input} (h : s.inputs = e :: rest) :
    step s = takeInput e { s with inputs := rest } := by
  simp [step, h]

/-- A write to a register other than `CMD`. -/
theorem hostWrite_reg {r : HostReg} (v : Word) {s : State} (hb : s.busy = false) (hr : r ≠ .cmd) :
    hostWrite (s.par.seaBase + regOffset r) 4 v s = .next (writeReg r v s) := by
  simp only [hostWrite, hb, Bool.false_eq_true, if_false]
  rw [busReg_eq_some.2 ⟨rfl, rfl⟩]
  cases r <;> simp_all

/-- A write to `CMD`. -/
theorem hostWrite_cmd (v : Word) {s : State} (hb : s.busy = false) :
    hostWrite (s.par.seaBase + regOffset .cmd) 4 v s = issue v s := by
  simp only [hostWrite, hb, Bool.false_eq_true, if_false]
  rw [busReg_eq_some.2 ⟨rfl, rfl⟩]

/-- Every operation ends in a next state: a refused command is one (R230). -/
theorem exec_next (i : Instr) (s : State) : ∃ t, exec i s = .next t := by
  cases i <;> exact ⟨_, rfl⟩

theorem kindCode_kindOfCode (c : BitVec 2) : kindCode (kindOfCode c) = c := by
  revert c
  decide

theorem bitOfFormat_formatOfBit (b : Bool) : bitOfFormat (formatOfBit b) = b := by cases b <;> rfl

end Sys2Proof.Machine
end

