-- ==== Sys2Proof/Laws/Effects.lean ====
section
/-! SUPPORT. What the arbiter's operations may write (R211, R190 to R203): two relations between the state before and after,
each operation within one of them, so that a proof cites the relation and not the operation's text. -/

namespace Sys2Proof.Machine

/-- `t` is `s` but for what the handler operations may write (R211); bit 0 of `GSTAT` is kept and `OUT` only grows. -/
def HandlerOnly (s t : State) : Prop :=
  t = { s with gstat := t.gstat, rxq := t.rxq, txq := t.txq, out := t.out, port := t.port }
    ∧ t.gstat.getLsbD 0 = s.gstat.getLsbD 0 ∧ ∃ l, t.out = s.out ++ l

/-- `t` is `s` but for what the arbiter's commands may write (R190 to R203). -/
def ArbiterOnly (s t : State) : Prop :=
  t = { s with
      r0 := t.r0, r1 := t.r1, err := t.err, rxf := t.rxf
      gstat := t.gstat, rxq := t.rxq, txq := t.txq, out := t.out, port := t.port }
    ∧ t.gstat.getLsbD 0 = s.gstat.getLsbD 0 ∧ ∃ l, t.out = s.out ++ l

theorem HandlerOnly.refl (s : State) : HandlerOnly s s := ⟨rfl, rfl, [], by simp⟩

theorem ArbiterOnly.refl (s : State) : ArbiterOnly s s := ⟨rfl, rfl, [], by simp⟩

theorem HandlerOnly.trans {s t u : State} (a : HandlerOnly s t) (b : HandlerOnly t u) : HandlerOnly s u := by
  obtain ⟨a1, a2, l, a3⟩ := a
  obtain ⟨b1, b2, m, b3⟩ := b
  refine ⟨?_, b2.trans a2, l ++ m, by rw [b3, a3, List.append_assoc]⟩
  conv_lhs => rw [b1, a1]

theorem ArbiterOnly.trans {s t u : State} (a : ArbiterOnly s t) (b : ArbiterOnly t u) : ArbiterOnly s u := by
  obtain ⟨a1, a2, l, a3⟩ := a
  obtain ⟨b1, b2, m, b3⟩ := b
  refine ⟨?_, b2.trans a2, l ++ m, by rw [b3, a3, List.append_assoc]⟩
  conv_lhs => rw [b1, a1]

theorem HandlerOnly.arbiter {s t : State} (h : HandlerOnly s t) : ArbiterOnly s t := by
  obtain ⟨a1, a2, a3⟩ := h
  refine ⟨?_, a2, a3⟩
  conv_lhs => rw [a1]
  rw [a1]

theorem handlerOnly_emit (a : Action) (s : State) : HandlerOnly s (emit a s) := ⟨rfl, rfl, [a], rfl⟩

theorem handlerOnly_emitAll (a : List Action) (s : State) : HandlerOnly s (emitAll a s) := ⟨rfl, rfl, a, rfl⟩

theorem handlerOnly_setPort (p : Port) (s : State) : HandlerOnly s (setPort p s) := ⟨rfl, rfl, [], by simp [setPort]⟩

theorem handlerOnly_setRxq (q : Ring) (s : State) : HandlerOnly s (setRxq q s) := ⟨rfl, rfl, [], by simp [setRxq]⟩

theorem handlerOnly_setTxq (q : Ring) (s : State) : HandlerOnly s (setTxq q s) := ⟨rfl, rfl, [], by simp [setTxq]⟩

theorem handlerOnly_setFifoWarning (s : State) : HandlerOnly s (setFifoWarning s) :=
  ⟨rfl, by simp [setFifoWarning], [], by simp [setFifoWarning]⟩

theorem handlerOnly_setFifoOverflow (s : State) : HandlerOnly s (setFifoOverflow s) :=
  ⟨rfl, by simp [setFifoOverflow], [], by simp [setFifoOverflow]⟩

theorem handlerOnly_setRxbufOverflow (s : State) : HandlerOnly s (setRxbufOverflow s) :=
  ⟨rfl, by simp [setRxbufOverflow], [], by simp [setRxbufOverflow]⟩

theorem arbiterOnly_setR0 (v : Word) (s : State) : ArbiterOnly s (setR0 v s) := ⟨rfl, rfl, [], by simp [setR0]⟩

theorem arbiterOnly_setR1 (v : Word) (s : State) : ArbiterOnly s (setR1 v s) := ⟨rfl, rfl, [], by simp [setR1]⟩

theorem arbiterOnly_accept (s : State) : ArbiterOnly s (accept s) := ⟨rfl, rfl, [], by simp [accept]⟩

theorem arbiterOnly_refuse (c : ErrCode) (s : State) : ArbiterOnly s (refuse c s) := ⟨rfl, rfl, [], by simp [refuse]⟩

theorem arbiterOnly_writeRxf (f : Frame) (s : State) : ArbiterOnly s (writeRxf f s) :=
  ⟨rfl, rfl, [], by simp [writeRxf]⟩

theorem handlerOnly_onFlag (b : Bool) {g : State → State} (s : State) (h : ∀ u, HandlerOnly u (g u)) :
    HandlerOnly s (onFlag b g s) := by
  cases b
  · exact .refl _
  · exact h _

theorem handlerOnly_txWrite (i : Nat) (f : Frame) (s : State) : HandlerOnly s (txWrite i f s) := by
  simp only [txWrite]
  split
  · exact handlerOnly_emit _ _
  · exact handlerOnly_emitAll _ _

theorem handlerOnly_txDrain (mb : Nat) (s : State) : HandlerOnly s (txDrain mb s) := by
  simp only [txDrain]
  split
  · exact (handlerOnly_setTxq _ _).trans (handlerOnly_txWrite _ _ _)
  · exact handlerOnly_emit _ _

theorem handlerOnly_rxPush (f : Frame) (s : State) : HandlerOnly s (rxPush f s) := by
  simp only [rxPush]
  split
  · exact handlerOnly_setRxbufOverflow _
  · exact handlerOnly_setRxq _ _

theorem handlerOnly_isrcRun (w : BitVec 4) (s : State) : HandlerOnly s (isrcRun w s) := by
  simp only [isrcRun]
  refine (handlerOnly_onFlag _ _ fun u => ?_).trans
    ((handlerOnly_onFlag _ _ handlerOnly_setFifoWarning).trans
      ((handlerOnly_onFlag _ _ handlerOnly_setFifoOverflow).trans
        ((handlerOnly_onFlag _ _ fun u => handlerOnly_txDrain _ _).trans (handlerOnly_emit _ _))))
  exact (handlerOnly_setPort _ _).trans (handlerOnly_rxPush _ _)

theorem handlerOnly_isrFdMailbox (i : Nat) (s : State) : HandlerOnly s (isrFdMailbox i s) := by
  simp only [isrFdMailbox]
  split
  · exact ((handlerOnly_setPort _ _).trans (handlerOnly_rxPush _ _)).trans (handlerOnly_emit _ _)
  · split
    · exact handlerOnly_txDrain _ _
    · exact .refl _

theorem handlerOnly_isrFdLoop (fl : BitVec 64) (l : List Nat) (s : State) : HandlerOnly s (isrFdLoop fl l s) := by
  induction l generalizing s with
  | nil => exact .refl _
  | cons i l ih => exact (handlerOnly_onFlag _ _ fun u => handlerOnly_isrFdMailbox _ _).trans (ih _)

/-- ISRC (R213). -/
theorem handlerOnly_isrc {s t : State} (h : execIsrc s = .next t) : HandlerOnly s t := by
  simp only [execIsrc, done, Host.Outcome.next.injEq] at h
  subst h
  split
  · exact (handlerOnly_setPort _ _).trans (handlerOnly_isrcRun _ _)
  · exact .refl _

/-- ISRFD (R218). -/
theorem handlerOnly_isrFd {s t : State} (h : execIsrFd s = .next t) : HandlerOnly s t := by
  simp only [execIsrFd, done, Host.Outcome.next.injEq] at h
  subst h
  split
  · exact (((handlerOnly_setPort _ _).trans (handlerOnly_isrFdLoop _ _ _)).trans (handlerOnly_setPort _ _)).trans
      (handlerOnly_emit _ _)
  · exact .refl _

theorem arbiterOnly_sendData (f : Frame) (mb : Nat) (s : State) : ArbiterOnly s (sendData f mb s) := by
  simp only [sendData]
  split
  · exact ((handlerOnly_setPort _ _).trans (handlerOnly_txWrite _ _ _)).arbiter.trans (arbiterOnly_setR0 _ _)
  · split
    · exact (handlerOnly_setPort _ _).arbiter.trans (arbiterOnly_setR0 _ _)
    · exact ((handlerOnly_setPort _ _).trans (handlerOnly_setTxq _ _)).arbiter.trans (arbiterOnly_setR0 _ _)

theorem arbiterOnly_sendRemote (f : Frame) (l : List Nat) (s : State) : ArbiterOnly s (sendRemote f l s) := by
  induction l generalizing s with
  | nil => exact arbiterOnly_setR0 _ _
  | cons i l ih =>
    simp only [sendRemote]
    split
    · exact ((handlerOnly_setPort _ _).trans (handlerOnly_txWrite _ _ _)).arbiter.trans (arbiterOnly_setR0 _ _)
    · exact (handlerOnly_setPort _ _).arbiter.trans (ih _)

theorem arbiterOnly_sendFrame (f : Frame) (a b : Nat) (s : State) : ArbiterOnly s (sendFrame f a b s) := by
  simp only [sendFrame]
  split
  · exact arbiterOnly_sendRemote _ _ _
  · exact arbiterOnly_sendData _ _ _

/-- SEND (R190). -/
theorem arbiterOnly_send {s t : State} (h : execSend s = .next t) : ArbiterOnly s t := by
  simp only [execSend, done, Host.Outcome.next.injEq] at h
  subst h
  repeat' split
  · exact arbiterOnly_refuse _ _
  · exact (arbiterOnly_accept _).trans (arbiterOnly_setR0 _ _)
  · exact (arbiterOnly_accept _).trans (arbiterOnly_setR0 _ _)
  · exact (arbiterOnly_accept _).trans (arbiterOnly_sendFrame _ _ _ _)

/-- SENDFD (R197). -/
theorem arbiterOnly_sendFd {s t : State} (h : execSendFd s = .next t) : ArbiterOnly s t := by
  simp only [execSendFd, done, Host.Outcome.next.injEq] at h
  subst h
  repeat' split
  · exact arbiterOnly_refuse _ _
  · exact (arbiterOnly_accept _).trans (arbiterOnly_setR0 _ _)
  · exact (arbiterOnly_accept _).trans (arbiterOnly_setR0 _ _)
  · exact (arbiterOnly_accept _).trans (arbiterOnly_setR0 _ _)
  · exact (arbiterOnly_accept _).trans (arbiterOnly_sendFrame _ _ _ _)

theorem arbiterOnly_recvFrame {m : Mode} {s t : State} {f : Frame} (h : recvFrame m s = some (f, t)) :
    ArbiterOnly s t := by
  simp only [recvFrame] at h
  split at h
  · cases h
  · split at h
    · cases h
    · cases h
      exact (handlerOnly_setRxq _ _).arbiter.trans (arbiterOnly_writeRxf _ _)

/-- RECV and RECVFD (R200, R201). -/
theorem arbiterOnly_recvIn (m : Mode) (s : State) : ArbiterOnly s (recvIn m s) := by
  simp only [recvIn]
  split
  · exact (arbiterOnly_accept _).trans (arbiterOnly_setR0 _ _)
  · rename_i h
    exact ((arbiterOnly_accept _).trans (arbiterOnly_recvFrame h)).trans (arbiterOnly_setR0 _ _)

/-- DISPATCH and DISPATCHFD (R202, R203). -/
theorem arbiterOnly_dispatchIn (m : Mode) (notify : Bool) (s : State) : ArbiterOnly s (dispatchIn m notify s) := by
  simp only [dispatchIn]
  split
  · exact ((arbiterOnly_accept _).trans (arbiterOnly_setR0 _ _)).trans (arbiterOnly_setR1 _ _)
  · rename_i h
    exact ((((arbiterOnly_accept _).trans (arbiterOnly_recvFrame h)).trans
      ((handlerOnly_onFlag _ _ fun _ => handlerOnly_emit _ _).trans
        (handlerOnly_onFlag _ _ fun _ => handlerOnly_emit _ _)).arbiter).trans
      (arbiterOnly_setR0 _ _)).trans (arbiterOnly_setR1 _ _)

/-- A send does not write `RXF`. -/
theorem txWrite_rxf (i : Nat) (f : Frame) (s : State) : (txWrite i f s).rxf = s.rxf := by
  simp only [txWrite]
  split <;> rfl

theorem sendRemote_rxf (f : Frame) (l : List Nat) (s : State) : (sendRemote f l s).rxf = s.rxf := by
  induction l generalizing s with
  | nil => rfl
  | cons i l ih =>
    simp only [sendRemote]
    split
    · simp [setR0, txWrite_rxf, setPort]
    · exact ih _

theorem sendFrame_rxf (f : Frame) (a b : Nat) (s : State) : (sendFrame f a b s).rxf = s.rxf := by
  simp only [sendFrame]
  split
  · exact sendRemote_rxf _ _ _
  · simp only [sendData]
    split
    · simp [setR0, txWrite_rxf, setPort]
    · split <;> rfl

end Sys2Proof.Machine
end

