-- ==== Sys2Proof/Laws/PerInstr.lean ====
section
/-! SUPPORT. A fact of every instruction, one lemma per constructor: its word carries the opcode of its row of the opcode map
(R101), whatever its immediate. -/

namespace Sys2Proof

/-- The opcode field of a command word is the opcode it was built from. -/
theorem opField_commandWord (op : Byte) (imm : BitVec 24) : opField (commandWord op imm) = op := by
  apply BitVec.eq_of_getLsbD_eq
  intro i hi
  simp only [opField, commandWord, BitVec.getLsbD_extractLsb', BitVec.getLsbD_append, hi, decide_true,
    Bool.true_and, Nat.zero_add, if_true]

/-- The opcode of an instruction's row (R101); the handler operations have none. -/
def rowOpcode : Instr → Option Byte
  | .nop => some 0x00
  | .solve => some 0x10
  | .solveFd => some 0x11
  | .check => some 0x12
  | .actual => some 0x13
  | .exact => some 0x14
  | .ppm => some 0x15
  | .sample => some 0x16
  | .dactual => some 0x17
  | .dexact => some 0x18
  | .dsample => some 0x19
  | .encp _ _ => some 0x20
  | .encs _ _ => some 0x21
  | .encf _ _ => some 0x22
  | .encany => some 0x23
  | .fpushp => some 0x24
  | .fpushs => some 0x25
  | .fpushf => some 0x26
  | .fclear => some 0x27
  | .beginCmd => some 0x30
  | .beginFd => some 0x31
  | .endCmd => some 0x32
  | .gsclr _ => some 0x33
  | .send => some 0x40
  | .sendFd => some 0x41
  | .recv => some 0x42
  | .recvFd => some 0x43
  | .dispatch _ => some 0x44
  | .dispatchFd _ => some 0x45
  | .isrc => none
  | .isrFd => none

/-- The word of `i`, if it has one, carries `i`'s opcode. -/
def Laws.OpcodeByte.Statement (i : Instr) : Prop := (encode i).map opField = rowOpcode i

namespace Laws.OpcodeByte

theorem nop : Statement .nop := congrArg some (opField_commandWord _ _)
theorem solve : Statement .solve := congrArg some (opField_commandWord _ _)
theorem solveFd : Statement .solveFd := congrArg some (opField_commandWord _ _)
theorem check : Statement .check := congrArg some (opField_commandWord _ _)
theorem actual : Statement .actual := congrArg some (opField_commandWord _ _)
theorem exact : Statement .exact := congrArg some (opField_commandWord _ _)
theorem ppm : Statement .ppm := congrArg some (opField_commandWord _ _)
theorem sample : Statement .sample := congrArg some (opField_commandWord _ _)
theorem dactual : Statement .dactual := congrArg some (opField_commandWord _ _)
theorem dexact : Statement .dexact := congrArg some (opField_commandWord _ _)
theorem dsample : Statement .dsample := congrArg some (opField_commandWord _ _)
theorem encp (k : FilterKind) (f : Format) : Statement (.encp k f) := congrArg some (opField_commandWord _ _)
theorem encs (k : FilterKind) (f : Format) : Statement (.encs k f) := congrArg some (opField_commandWord _ _)
theorem encf (k : FilterKind) (f : Format) : Statement (.encf k f) := congrArg some (opField_commandWord _ _)
theorem encany : Statement .encany := congrArg some (opField_commandWord _ _)
theorem fpushp : Statement .fpushp := congrArg some (opField_commandWord _ _)
theorem fpushs : Statement .fpushs := congrArg some (opField_commandWord _ _)
theorem fpushf : Statement .fpushf := congrArg some (opField_commandWord _ _)
theorem fclear : Statement .fclear := congrArg some (opField_commandWord _ _)
theorem beginCmd : Statement .beginCmd := congrArg some (opField_commandWord _ _)
theorem beginFd : Statement .beginFd := congrArg some (opField_commandWord _ _)
theorem endCmd : Statement .endCmd := congrArg some (opField_commandWord _ _)
theorem gsclr (c : BitVec 4) : Statement (.gsclr c) := congrArg some (opField_commandWord _ _)
theorem send : Statement .send := congrArg some (opField_commandWord _ _)
theorem sendFd : Statement .sendFd := congrArg some (opField_commandWord _ _)
theorem recv : Statement .recv := congrArg some (opField_commandWord _ _)
theorem recvFd : Statement .recvFd := congrArg some (opField_commandWord _ _)
theorem dispatch (n : Bool) : Statement (.dispatch n) := congrArg some (opField_commandWord _ _)
theorem dispatchFd (n : Bool) : Statement (.dispatchFd n) := congrArg some (opField_commandWord _ _)
theorem isrc : Statement .isrc := rfl
theorem isrFd : Statement .isrFd := rfl

end Laws.OpcodeByte

end Sys2Proof
end

