-- ==== Sys2Proof/Tests/Slice0.lean ====
section
/-! SUPPORT. The model's own tests. Expected results come from `spec/95_test_vectors.md` (its section is named at each
test) or from the rule named; decode words are written from R100 to R102. The theorems `test_witness_…` show states and
operands that meet the hypotheses of the obligations. -/

namespace Sys2Proof.Tests

open Sys2Proof Sys2Proof.Machine

/-! ## Small states -/

/-- The state an outcome leaves. -/
def after (o : Host.Outcome State Fault Refusal) : State :=
  match o with
  | .next s => s
  | .fault _ => State.reset
  | .refused _ => State.reset

/-- `i` run on `s`. -/
def run (i : Instr) (s : State) : State := after (exec i s)

/-- The reset state with operands in `A0` to `A4`. -/
def args (a0 a1 a2 a3 a4 : Word) : State :=
  { State.reset with a0 := a0, a1 := a1, a2 := a2, a3 := a3, a4 := a4 }

/-- A port that answers both pin reads of pin 0. -/
def pins (tx rx : Bool) : Port := { Port.none with pins := [((.tx, 0), tx), ((.rx, 0), rx)] }

/-- The registers after `SOLVE(500000, 60000000, 1, 1000)` (section 2.1, first row). -/
def t500 : Timing :=
  { Timing.zero with
    brp := 5, prop := 8, ps1 := 8, ps2 := 7, rjw := 4, flags := 2, rate := 500000, clk := 60000000, div := 1
    factor := 1 }

/-- The registers after `SOLVEFD(500000, 60000000, 1, 1000, 4)` (section 2.2, second row). -/
def tFd : Timing :=
  { Timing.zero with
    brp := 1, prop := 55, ps1 := 32, ps2 := 32, rjw := 32, flags := 6, rate := 500000, clk := 60000000, div := 1
    factor := 4, dprop := 13, dps1 := 8, dps2 := 8, drjw := 8 }

/-- Parameters with one primary filter and no secondary one. -/
def small : Params := { Config.defaults with nPrimaryMax := 1, nSecondaryMax := 0 }

/-- The frame `(id, STD, kind, len, data)`. -/
def frame (id : BitVec 29) (kind : FrameKind) (len : BitVec 7) (bytes : List Byte) : Frame where
  id := id
  ext := .std
  kind := kind
  len := len
  data := Vector.ofFn fun j : Fin 64 => bytes.getD j.val 0
  idx := 0

/-- A ring of capacity 2 with one frame, `0x201` with one byte `0x11` (section 2.11). -/
def ring1 : Ring := { cap := 2, rd := 1, cnt := 1, peak := 1, mem := [(1, frame 0x201 .data 1 [0x11])] }

/-- Running in classic mode with one filter on `0x100` (program P2), one frame received. -/
def runC : State :=
  { State.resetWith small with
    life := .running, timing := t500, rxcap := 2, txcap := 2, rxq := ring1, txq := qCreate 2
    np := 1, sp := [(0, { mw := 0xFFF80000, aw := 0x08000000, cb := 0x2000 })]
    act := { ActCfg.zero with np := 1 }
    nslot := 1, slot := [(0, { mw := 0xFFF80000, aw := 0x08000000 })], ncb := 1, cbt := [(0, 0x2000)] }

/-- Running in FD mode, 64-byte class, two receive mailboxes (program P5 with `R = 2`). -/
def runF : State :=
  { State.reset with
    life := .running, mode := .fd, timing := tFd, rxcap := 2, txcap := 2, rxq := ring1, txq := qCreate 2
    fdPayload := 3, fdRxmb := 2, act := { ActCfg.zero with nf := 1, payload := 3, rxmb := 2 }
    nslot := 2
    slot := [(0, { mw := 0xFFF80000, aw := 0x08000000 }), (1, { mw := 0xFFF80000, aw := 0x08000000 })]
    ncb := 1, cbt := [(0, 0x3000)] }

/-- `runC` with a frame in `TXF` and port answers to mailbox reads. -/
def sending (fmt : Format) (kind : FrameKind) (id : BitVec 29) (len : BitVec 7) (codes : List (Nat × MbCode))
    (s : State) : State :=
  { s with
    txf := { FrameFile.zero with id := id, ext := fmt, kind := kind, len := len, d := Vector.replicate 16 0x04030201 }
    port := { Port.none with mbCodes := codes } }

/-- Ready for BEGIN: solved, no filters, valid pins. -/
def readyC : State := { State.resetWith small with timing := t500, port := pins true true }

/-- Ready for BEGINFD: solved, 64-byte class, two receive mailboxes, no filters, valid pins. -/
def readyF : State := { State.reset with timing := tFd, fdPayload := 3, fdRxmb := 2, port := pins true true }

/-! ## Well-formedness: what the checks refuse (R9, R15, R100) -/

theorem test_wf_host_isrc : Instr.WellFormed .host .isrc = false := by decide
theorem test_wf_host_isrFd : Instr.WellFormed .host .isrFd = false := by decide
theorem test_wf_interrupt_nop : Instr.WellFormed .interrupt .nop = false := by decide
theorem test_wf_accepts : Instr.WellFormed .host .solve = true ∧ Instr.WellFormed .interrupt .isrc = true := by decide
theorem test_params_defaults : Config.defaults.wf = true := by decide
theorem test_params_seaBase : Params.wf { Config.defaults with seaBase := 2 } = false := by decide
theorem test_params_nPrimary : Params.wf { Config.defaults with nPrimaryMax := 0 } = false := by decide
theorem test_params_nFilters : Params.wf { Config.defaults with nSecondaryMax := 223 } = false := by decide
theorem test_params_remoteFirst : Params.wf { Config.defaults with mbTxRemoteFirst := 64 } = false := by decide
theorem test_params_txData : Params.wf { Config.defaults with mbTxData := 64 } = false := by decide
theorem test_params_nMb : Params.wf { Config.defaults with nMb := 65 } = false := by decide
theorem test_params_shift_low : Params.wf { Config.defaults with fdShiftStd := 0 } = false := by decide
theorem test_params_shift_high : Params.wf { Config.defaults with fdShiftStd := 20 } = false := by decide
theorem test_params_fdMb8 : Params.wf { Config.defaults with fdMbTotal8 := 65 } = false := by decide
theorem test_params_fdMb16 : Params.wf { Config.defaults with fdMbTotal16 := 2 } = false := by decide
theorem test_params_fdMb32 : Params.wf { Config.defaults with fdMbTotal32 := 2 } = false := by decide
theorem test_params_fdMb64 : Params.wf { Config.defaults with fdMbTotal64 := 2 } = false := by decide
theorem test_instantiate_refuses : State.instantiate { Config.defaults with nPrimaryMax := 0 } = none := by decide

/-! ## Decoding: words written from R100 to R102 -/

theorem test_decode_bts :
    [0x10, 0x11, 0x12, 0x13, 0x14, 0x15, 0x16, 0x17, 0x18, 0x19].map decode
      = [.ok .solve, .ok .solveFd, .ok .check, .ok .actual, .ok .exact, .ok .ppm, .ok .sample, .ok .dactual,
         .ok .dexact, .ok .dsample] := by decide

theorem test_decode_fme :
    [0x20, 0x121, 0x222, 0x320, 0x23, 0x24, 0x25, 0x26, 0x27].map decode
      = [.ok (.encp .data .std), .ok (.encs .remote .std), .ok (.encf .data .ext), .ok (.encp .remote .ext),
         .ok .encany, .ok .fpushp, .ok .fpushs, .ok .fpushf, .ok .fclear] := by decide

theorem test_decode_cfg :
    [0x00, 0x30, 0x31, 0x32, 0x033, 0x133, 0xE33].map decode
      = [.ok .nop, .ok .beginCmd, .ok .beginFd, .ok .endCmd, .ok (.gsclr 0), .ok (.gsclr 1), .ok (.gsclr 0xE)] := by
  decide

theorem test_decode_sfa :
    [0x40, 0x41, 0x42, 0x43, 0x44, 0x144, 0x45, 0x145].map decode
      = [.ok .send, .ok .sendFd, .ok .recv, .ok .recvFd, .ok (.dispatch false), .ok (.dispatch true),
         .ok (.dispatchFd false), .ok (.dispatchFd true)] := by decide

/-- The edges of the reserved opcode ranges (R104). -/
theorem test_decode_reserved :
    [0x01, 0x0F, 0x1A, 0x1F, 0x28, 0x2F, 0x34, 0x3F, 0x46, 0xFF].map decode
      = List.replicate 10 (.error .reservedOpcode) := by decide

/-- The lowest and the highest must-be-zero bit of each immediate form (R102; section 2.12). -/
theorem test_decode_nonzero_immediate :
    [0x110, 0x80000010, 0x420, 0x80000020, 0x1033, 0x80000033, 0x244, 0x80000045].map decode
      = List.replicate 8 (.error .nonzeroImmediate) := by decide

theorem test_decodeTableWord : decodeTableWord 8 0x33 = some (.gsclr 0) ∧ decodeTableWord 32 0xE33 = some (.gsclr 0xE)
    ∧ decodeTableWord 40 0x33 = none := by decide

theorem test_withFetchWord_step :
    (after (step (State.reset.withFetchWord 32 0x12))).r0 = 0x155
      ∧ (after (step (State.reset.withFetchWord 8 0x32))).err = .badState := by decide

/-! ## The bit-timing solver -/

/-- Section 2.1, first row. -/
theorem test_solve : (run .solve (args 500000 60000000 1 1000 0)).timing = t500
    ∧ (run .solve (args 500000 60000000 1 1000 0)).r0 = 1 := by decide

/-- Section 2.1: the fallback, rate 1. -/
theorem test_solve_fallback :
    let t := (run .solve (args 1 60000000 1 1000 0)).timing
    t.brp = 256 ∧ t.prop = 8 ∧ t.ps1 = 8 ∧ t.ps2 = 8 ∧ t.rjw = 4 ∧ t.flags = 1 := by decide

/-- Section 2.2, second row. -/
theorem test_solveFd : (run .solveFd (args 500000 60000000 1 1000 4)).timing = tFd := by decide

/-- Section 2.2, third row: no exact pair. -/
theorem test_solveFd_inexact :
    let t := (run .solveFd (args 1000000 60000000 1 1000 8)).timing
    t.brp = 1 ∧ t.prop = 22 ∧ t.ps1 = 22 ∧ t.ps2 = 19 ∧ t.dprop = 2 ∧ t.dps1 = 2 ∧ t.dps2 = 3 ∧ t.flags = 4 := by
  decide

/-- Section 2.4. -/
theorem test_check_reset : (run .check State.reset).r0 = 0x155 := by decide

/-- Section 2.4: `T_RJW = 8`, `T_BRP = 300`. -/
theorem test_check_bits :
    (run .check { State.reset with timing := { t500 with rjw := 8, brp := 300 } }).r0 = 0x602
      ∧ (run .check { State.reset with timing := { tFd with dps2 := 9 } }).r0 = 0x20000 := by decide

/-- Section 2.1, the row of 4294967295: the operand maxima (ACTUAL 3368601, PPM 999215, SAMPLE 60). -/
def tMax : Timing :=
  { Timing.zero with
    brp := 1, prop := 1, ps1 := 1, ps2 := 2, rjw := 2, rate := 4294967295, clk := 4294967295, div := 255, factor := 1 }

theorem test_actual : (run .actual { State.reset with timing := tMax }).r0 = 3368601 := by decide
theorem test_exact : (run .exact { State.reset with timing := tMax }).r0 = 0
    ∧ (run .exact { State.reset with timing := t500 }).r0 = 1 := by decide
theorem test_ppm : (run .ppm { State.reset with timing := tMax }).r0 = 999215 := by decide

/-- Section 2.1, rate 1: the raw figure saturates. -/
theorem test_ppm_saturates :
    (run .ppm { State.reset with
      timing := { t500 with brp := 256, prop := 8, ps1 := 8, ps2 := 8, rate := 1 } }).r0 = 0xFFFFFFFF := by decide

/-- Section 2.1: 125000 with triple sampling. -/
theorem test_sample : (run .sample { State.reset with timing := { t500 with flags := 3 } }).r0 = 66 := by decide

/-- Section 2.2, second row, and section 2.4: refused on a classic configuration. -/
theorem test_dactual : (run .dactual { State.reset with timing := tFd }).r0 = 2000000
    ∧ (run .dactual { State.reset with timing := t500 }).err = .badOperand := by decide
theorem test_dexact : (run .dexact { State.reset with timing := tFd }).r0 = 1
    ∧ (run .dexact { State.reset with timing := t500 }).err = .badOperand := by decide
theorem test_dsample : (run .dsample { State.reset with timing := tFd }).r0 = 73
    ∧ (run .dsample { State.reset with timing := t500 }).err = .badOperand := by decide

/-! ## The filter-mask encoder (section 2.5) -/

theorem test_encp : (run (.encp .remote .std) (args 0x7F0 0x120 0 0 0)).r0 = 0xFF800000
    ∧ (run (.encp .remote .std) (args 0x7F0 0x120 0 0 0)).r1 = 0x89000000 := by decide

/-- Both operands too wide, and acceptance outside mask (P6). -/
theorem test_encp_soft_error :
    (run (.encp .data .std) (args 0xFFFFFFFF 0xFFFFFFFF 0 0 0)).r1 = 0x3FF80001
      ∧ (run (.encp .data .std) (args 0x700 0x123 0 0 0)).r1 = 0x09180001 := by decide

theorem test_encs : (run (.encs .data .std) (args 0x7FF 0x200 0 0 0)).r0 = 0xFFF80000
    ∧ (run (.encs .data .std) (args 0x7FF 0x200 0 0 0)).r1 = 0x10000000 := by decide

theorem test_encf_shift :
    let s := { args 0x7FF 0x100 0 0 0 with par := { Config.defaults with fdShiftStd := 18 } }
    (run (.encf .data .std) s).r0 = 0xDFFC0000 ∧ (run (.encf .data .std) s).r1 = 0x04000000 := by decide

theorem test_encf_ext : (run (.encf .data .ext) (args 0x1FFFFFFF 0x18DAF110 0 0 0)).r1 = 0x71B5E220 := by decide

theorem test_encany : (run .encany { State.reset with r0 := 5, r1 := 7 }).r0 = 0
    ∧ (run .encany { State.reset with r0 := 5, r1 := 7 }).r1 = 0 := by decide

/-- Section 2.6. -/
theorem test_fpushp :
    let t := run .fpushp { args 0 0 0x2000 0 0 with r0 := 0xFFF80000, r1 := 0x08000000 }
    t.np = 1 ∧ t.sp = [(0, { mw := 0xFFF80000, aw := 0x08000000, cb := 0x2000 })] := by decide

/-- Section 2.6: saturation, nothing stored. -/
theorem test_fpushp_saturates : (run .fpushp { State.reset with np := 255 }).np = 255
    ∧ (run .fpushp { State.reset with np := 255 }).sp = [] := by decide

theorem test_fpushs : (run .fpushs { State.reset with ns := 1, r0 := 3 }).ns = 2
    ∧ (run .fpushs { State.reset with ns := 1, r0 := 3 }).ss = [(1, { mw := 3, aw := 0, cb := 0 })] := by decide

/-- R47: 64 entries are stored. -/
theorem test_fpushf_limit : (run .fpushf { State.reset with nf := 64 }).nf = 65
    ∧ (run .fpushf { State.reset with nf := 64 }).sf = []
    ∧ (run .fpushf { State.reset with nf := 63 }).sf ≠ [] := by decide

theorem test_fclear : (run .fclear runC).np = 0 ∧ (run .fclear runC).sp = runC.sp := by decide

/-! ## The life cycle (section 2.8) -/

theorem test_nop_clears_err : (run .nop { State.reset with err := .badState }).err = .none := by decide

theorem test_begin_reset :
    (run .beginCmd { State.reset with port := pins true true }).r0 = 0x02000155
      ∧ (run .beginCmd { State.reset with port := pins true true }).gstat = 1 := by decide

/-- Both pins invalid; the wait points are read in `test_begin_waits`. -/
theorem test_begin_pins : (run .beginCmd { readyC with port := pins false false }).r0 = 0x0C000000 := by decide

/-- `CMDSTAT` at each wait point. -/
theorem test_begin_waits :
    cmdstatWord (run .beginCmd readyC) = 0x109
      ∧ cmdstatWord (takeAck .frozen (run .beginCmd readyC)) = 0x209
      ∧ cmdstatWord (takeAck .unfrozen (takeAck .frozen (run .beginCmd readyC))) = 0x002 := by decide

theorem test_beginFd_waits :
    cmdstatWord (run .beginFd readyF) = 0x10D
      ∧ cmdstatWord (takeAck .frozen (run .beginFd readyF)) = 0x20D
      ∧ cmdstatWord (takeAck .unfrozen (takeAck .frozen (run .beginFd readyF))) = 0x006 := by decide

/-- Not `FD_CAPABLE`, 13 receive mailboxes of 12 allowed. -/
theorem test_beginFd_capable :
    (run .beginFd { readyF with par := { Config.defaults with fdCapable := false }, fdRxmb := 13 }).r0
      = 0x01800000 := by decide

theorem test_end : cmdstatWord (run .endCmd runC) = 0x309
    ∧ cmdstatWord (takeAck .frozen (run .endCmd runC)) = 0x000
    ∧ (run .endCmd State.reset).err = .badState := by decide

theorem test_gsclr : (run (.gsclr 8) { State.reset with gstat := 0xE }).gstat = 6
    ∧ (run (.gsclr 0xF) { State.reset with gstat := 0xD }).gstat = 1 := by decide

/-! ## The arbiter -/

/-- Section 2.9, first row. -/
theorem test_send :
    (run .send (sending .std .data 0x123 4 [(63, .inactive)] runC)).out
      = [.mbWriteTx 63 0x0C040000 0x048C0000 [0x01020304, 0]] := by decide

/-- Section 2.9: the remote scan. -/
theorem test_send_remote :
    (run .send (sending .std .remote 0x321 8 [(38, .txpend), (39, .txpend), (40, .full)] runC)).out
      = [.mbWriteTx 40 0x0C180000 0x0C840000 [0, 0]] := by decide

/-- Section 2.9, `R = 2` here: the scan starts at mailbox 3. -/
theorem test_sendFd_remote :
    (run .sendFd (sending .std .remote 0x100 0 [(3, .txpend), (4, .full)] runF)).out
      = [.mbWriteTx 4 0x0C100000 0x04000000 (List.replicate 16 0), .mbSetInactive 0, .mbSetInactive 0] := by decide

/-- Section 2.9: a length outside the set is refused, one above the class is not. -/
theorem test_sendFd_length :
    (run .sendFd (sending .std .fdNoBrs 0x100 10 [] runF)).err = .badOperand
      ∧ (run .sendFd (sending .std .fdBrs 0x100 12 [] { runF with act := { runF.act with payload := 0 } })).r0 = 4 := by
  decide

/-- Section 2.11. -/
theorem test_recv : (run .recv runC).r0 = 1 ∧ readReg .rxfId (run .recv runC) = 0x201
    ∧ readReg .rxfCtl (run .recv runC) = 0x100 ∧ readReg (.rxfD 0) (run .recv runC) = 0x11
    ∧ (run .recv runC).rxq.cnt = 0 := by decide

theorem test_recvFd : (run .recvFd runF).r0 = 1 ∧ (run .recvFd runC).r0 = 0 := by decide

theorem test_dispatch : (run (.dispatch true) runC).r1 = 0x2000
    ∧ (run (.dispatch true) runC).out
        = [.matchNotify 0, .callbackInvoke 0x2000 (frame 0x201 .data 1 [0x11])] := by decide

theorem test_dispatchFd : (run (.dispatchFd false) runF).r1 = 0x3000
    ∧ (run (.dispatchFd false) runF).out = [.callbackInvoke 0x3000 (frame 0x201 .data 1 [0x11])] := by decide

/-- `runC` with a sample of the classic event word and one FIFO frame. -/
def sampled (w : BitVec 4) (s : State) : State :=
  { s with port := { Port.none with
      flags := [w], fifoFrames := [{ cs := 0x0C010000, idw := 0x080C0000, dw0 := 0x33000000, dw1 := 0, hit := 0 }] } }

/-- Section 2.10: the receive part. -/
theorem test_isrc_receive : (run .isrc (sampled 1 runC)).rxq.cnt = 2
    ∧ (run .isrc (sampled 1 runC)).out = [.flagsClear 1] := by decide

/-- Section 2.10: a full ring with all three warnings, and the drain of an empty ring. -/
theorem test_isrc_full :
    (run .isrc (sampled 0xF { runC with rxq := { ring1 with cap := 1, rd := 0 } })).gstat = 0xE
      ∧ (run .isrc (sampled 0xF { runC with rxq := { ring1 with cap := 1, rd := 0 } })).out
          = [.mbSetInactive 63, .flagsClear 0xF] := by decide

/-- Section 2.10, last FD row but one, `M = 14`: mailboxes 2 and 1 of `R = 2`, room for one frame; and the transmit
mailbox 13. -/
def sampledF : State :=
  { runF with
    port := { Port.none with
      flagsLo := [0x2006], flagsHi := [0]
      mbFrames := [(1, { cs := 0xCC090000, idw := 0x04000000, dw := Vector.replicate 16 0x01020304 }),
                   (2, { cs := 0x0C000000, idw := 0x04000000, dw := Vector.replicate 16 0 })] } }

theorem test_isrFd : (run .isrFd sampledF).rxq.cnt = 2 ∧ (run .isrFd sampledF).gstat = 8
    ∧ (run .isrFd sampledF).out
        = [.mbRearm 1 0x08000000, .mbRearm 2 0x08000000, .mbSetInactive 13, .flagsClearFd 0x2006] := by decide

/-- R218: a flagged mailbox 0 does nothing. -/
theorem test_isrFd_reserved :
    let s := { runF with port := { Port.none with flagsLo := [1], flagsHi := [0], timers := [7] } }
    (run .isrFd s).out = [.flagsClearFd 1] ∧ (run .isrFd s).rxq = runF.rxq ∧ (run .isrFd s).port = Port.none := by
  decide

/-! ## Images (section 2.7) and matching (section 2.5) -/

theorem test_pack :
    let f := frame 0x100 .fdBrs 12 [1, 2, 3, 4, 5, 6, 7, 8, 9, 10, 11, 12]
    packCs f = 0xCC090000 ∧ packIdw f = 0x04000000
      ∧ packDw 4 f = [0x01020304, 0x05060708, 0x090A0B0C, 0] := by decide

theorem test_unpack :
    unpack .classic 0xCC0F0000 0x04000000 [0x01020304, 0x05060708] = frame 0x100 .data 8 [1, 2, 3, 4, 5, 6, 7, 8]
      ∧ (unpack .fd 0x8C0D0000 0x04000000 [0x01020304, 0x05060708]).len = 32 := by decide

theorem test_filterMatch :
    let p : FilterPair := { mw := 0xFFF80000, aw := 0x08000000 }
    filterMatch 19 p (frame 0x100 .data 0 []) = true ∧ filterMatch 19 p (frame 0x101 .data 0 []) = false
      ∧ filterMatch 19 p (frame 0x100 .remote 0 []) = false
      ∧ filterMatch 19 p { frame 0x100 .data 0 [] with ext := .ext } = false := by decide

/-! ## Host accesses (R61 to R63) -/

/-- `s` with one move of the outside waiting. -/
def with1 (e : Input) (s : State) : State := { s with inputs := [e] }

theorem test_host_write_masks :
    readReg .txfCtl (after (step (with1 (.busWrite 0x104 4 0xFFFFFFFF) State.reset))) = 0x00FF7F07
      ∧ readReg .tFactor (after (step (with1 (.busWrite 0x054 4 0xFFFFFFFF) State.reset))) = 0xF := by decide

theorem test_host_bad_access :
    step (with1 (.busWrite 0x010 2 5) State.reset) = .next State.reset
      ∧ step (with1 (.busWrite 0x068 4 5) State.reset) = .next State.reset := ⟨rfl, rfl⟩

/-! ## Witnesses: states and operands that meet the hypotheses of the obligations

Where a statement has several clauses there is a witness for each, at the edges of its range. -/

/-- The host's next move is the command word `w`. -/
def issuing (w : Word) (s : State) : State := { s with inputs := [commandWrite s.par w] }

/-- The edges of every reserved range, and the edge bits of every immediate. -/
theorem test_witness_IllegalWordsRefused :
    (∀ w ∈ ([0x01, 0x0F, 0x1A, 0x1F, 0x28, 0x2F, 0x34, 0x3F, 0x46, 0xFF, 0x100, 0x80000010, 0x420, 0x422, 0x1033,
        0x80000033, 0x244, 0x80000045] : List Word), illegalWord w)
      ∧ (∀ w ∈ ([0x00, 0x10, 0x19, 0x20, 0x322, 0x23, 0x27, 0x30, 0xF33, 0x40, 0x45, 0x145] : List Word),
          ¬ illegalWord w)
      ∧ (issuing 0x46 State.reset).busy = false
      ∧ (issuing 0x46 State.reset).inputs = commandWrite (issuing 0x46 State.reset).par 0x46 :: [] := by
  simp [illegalWord, reservedOpcode, mustBeZero, issuing, State.reset, State.resetWith]

theorem test_witness_StepIssuesCommand :
    (issuing 0xE33 runC).busy = false
      ∧ (issuing 0xE33 runC).inputs = commandWrite (issuing 0xE33 runC).par 0xE33 :: []
      ∧ decode 0xE33 = .ok (.gsclr 0xE) := by decide

theorem test_witness_StepRunsHandler :
    ((with1 .irq runC).inputs = .irq :: [] ∧ (with1 .irq runC).life = .running ∧ (with1 .irq runC).mode = .classic)
      ∧ ((with1 .irq runF).inputs = .irq :: [] ∧ (with1 .irq runF).life = .running ∧ (with1 .irq runF).mode = .fd)
      ∧ (with1 .irq State.reset).inputs = .irq :: [] ∧ (with1 .irq State.reset).life ≠ .running := by decide

theorem test_witness_BusyIgnoresHostWrites :
    (with1 (.busWrite 0 4 0x10) (run .beginCmd readyC)).busy = true
      ∧ (with1 (.busWrite 0 4 0x10) (run .beginCmd readyC)).inputs = .busWrite 0 4 0x10 :: [] := by decide

/-- A read-write register with reserved bits, a read-only one, and the last of the map. -/
theorem test_witness_RegisterWriteReadBack :
    ∀ r ∈ ([.txfCtl, .cmdstat, .a0, .rxfD 15] : List HostReg),
      (with1 (.busWrite (regOffset r) 4 0xFFFFFFFF) runC).busy = false ∧ r ≠ .cmd
        ∧ (with1 (.busWrite (regOffset r) 4 0xFFFFFFFF) runC).inputs
            = .busWrite (runC.par.seaBase + regOffset r) 4 0xFFFFFFFF :: [] := by decide

/-- A read of the last register; a 2-byte access, an offset between registers, one past the map. -/
theorem test_witness_HostReadsAndBadAccesses :
    (with1 (.busRead 0x1C4 4) runC).inputs = .busRead (runC.par.seaBase + regOffset (.rxfD 15)) 4 :: []
      ∧ (∀ r : HostReg, ¬ ((2 : Nat) = 4 ∧ 0x010 = State.reset.par.seaBase + regOffset r))
      ∧ (∀ r : HostReg, ¬ ((4 : Nat) = 4 ∧ 0x068 = State.reset.par.seaBase + regOffset r))
      ∧ ∀ r : HostReg, ¬ ((4 : Nat) = 4 ∧ 0x1C8 = State.reset.par.seaBase + regOffset r) := by
  have h : ∀ a, (∀ r ∈ hostRegs, a ≠ 0 + regOffset r) →
      ∀ r : HostReg, ¬ ((4 : Nat) = 4 ∧ a = State.reset.par.seaBase + regOffset r) := by
    intro a ha r hr
    refine ha r ?_ hr.2
    cases r
    case txfD k => simp [hostRegs]
    case rxfD k => simp [hostRegs]
    all_goals decide
  exact ⟨by decide, by simp, h _ (by decide), h _ (by decide)⟩

theorem test_witness_PlatformReset : (with1 .reset runC).inputs = .reset :: [] := rfl

theorem test_witness_ResetMeetsInv : Config.defaults.wf = true ∧ small.wf = true := by decide

/-! ### Good states -/

theorem ring1_wf : RingWf ring1 where
  rd_lt := by decide
  cnt_le_peak := by decide
  peak_le_cap := by decide
  mem_wf := by decide
  mem_lt := by decide
  live := by decide

theorem qCreate_wf : RingWf (qCreate 2) where
  rd_lt := by decide
  cnt_le_peak := by decide
  peak_le_cap := by decide
  mem_wf := by decide
  mem_lt := by decide
  live := by decide

/-- A full ring whose read position is its last entry. -/
def ringFull : Ring :=
  { cap := 2, rd := 1, cnt := 2, peak := 2
    mem := [(0, frame 0x202 .data 0 []), (1, frame 0x201 .data 1 [0x11])] }

theorem ringFull_wf : RingWf ringFull where
  rd_lt := by decide
  cnt_le_peak := by decide
  peak_le_cap := by decide
  mem_wf := by decide
  mem_lt := by decide
  live := by decide

theorem ringZero_wf : RingWf Ring.zero where
  rd_lt := by decide
  cnt_le_peak := by decide
  peak_le_cap := by decide
  mem_wf := by decide
  mem_lt := by decide
  live := by decide

theorem runC_inv : Inv (with1 .irq runC) where
  par_wf := by decide
  life := by unfold LifeInv; decide
  initError := by unfold InitErrorInv; decide
  idle := fun h => absurd h (by decide)
  rings := ⟨ring1_wf, qCreate_wf⟩
  frames := by unfold FramesInv FramesGood; decide
  stage := by
    refine ⟨⟨?_, ?_, ?_⟩, ⟨?_, ?_, ?_⟩, ⟨?_, ?_, ?_⟩⟩ <;> first | decide | (unfold Listed; decide)
  pending := fun h => absurd h (by decide)
  active := by
    intro _
    refine ⟨⟨?_, ?_, ?_, ?_, ?_⟩, ?_⟩ <;> first | decide | (unfold Listed; decide) | exact ⟨by decide, by decide, by decide, by decide⟩

/-- In `RUNNING`, with a step of the handler. -/
theorem test_witness_StepKeepsInv : ∃ t, Inv (with1 .irq runC) ∧ step (with1 .irq runC) = .next t :=
  ⟨_, runC_inv, rfl⟩

theorem test_witness_ReachableStatesAreGood :
    Reachable { State.resetWith small with inputs := [.irq], port := pins true true } :=
  .outside _ _ _ (.reset small (by decide))

theorem test_witness_RefusalTable :
    ∃ t, exec .endCmd State.reset = .next t ∧ Instr.isCommand .endCmd = true ∧ t.err ≠ .none :=
  ⟨_, rfl, rfl, by decide⟩

theorem test_witness_WritersOfEachState : ∃ t u, exec .nop runC = .next t ∧ exec .isrc runC = .next u := ⟨_, _, rfl, rfl⟩

theorem test_witness_OutOnlyGrows :
    ∃ t, (with1 .irq runC).inputs = .irq :: [] ∧ Input.irq ≠ .reset ∧ step (with1 .irq runC) = .next t :=
  ⟨_, rfl, by decide, rfl⟩

theorem test_witness_LifeTransitions :
    ∃ t, LifeInv (with1 .irq runC) ∧ (with1 .irq runC).inputs = .irq :: [] ∧ step (with1 .irq runC) = .next t :=
  ⟨_, runC_inv.life, rfl, rfl⟩

theorem test_witness_UnexpectedAckIgnored :
    ((with1 (.ack .frozen) runC).inputs = .ack .frozen :: [] ∧ runC.waitpt ≠ .beginFrozen ∧ runC.waitpt ≠ .endFrozen)
      ∧ (with1 (.ack .unfrozen) (run .endCmd runC)).inputs = .ack .unfrozen :: []
      ∧ (run .endCmd runC).waitpt ≠ .beginUnfrozen := by decide

/-! ### The solver -/

/-- The bounds of SOLVE, and the corner pairs of its ranges. -/
theorem test_witness_SearchLeastError :
    (1 : Nat) ≤ 500000 ∧ (1 : Nat) ≤ 60000000 ∧ 60000000 / (500000 * 25 * 1) ≤ 256 ∧ 1 / (1 * 5 * 1) ≤ 1
      ∧ 32000 / (1 * 25 * 5) ≤ 256 := by decide

/-- The clauses of R122: (b) and (c) on a rate too slow, with the edge `P = pMax`; (d) on an exact pair; (e) on a rate
too fast. -/
theorem test_witness_SearchProperties :
    256 < 60000000 / (1 * 25 * 1) ∧ ¬ 256 < 256 * 25 / (1 * 25 * 1) ∧ 256 < 257 * 25 / (1 * 25 * 1)
      ∧ 256 < 60000000 / (1 * 5 * 1) ∧ 500000 * 24 * 5 * 1 = 60000000 ∧ 59 < 12 * 5 * 1 := by decide

theorem test_witness_ApportionLaw : 5 ≤ 5 ∧ 25 ≤ 25 ∧ 48 ≤ 48 ∧ 129 ≤ 129 ∧ apportion 5 8 8 = (1, 1, 2) := by decide

theorem test_witness_SolveResult :
    ¬ badSolveOperands (args 1 1 1 0 0) ∧ ¬ badSolveOperands (args 0xFFFFFFFF 0xFFFFFFFF 255 0xFFFFFFFF 0)
      ∧ badSolveOperands (args 1 1 256 0 0) := by
  unfold badSolveOperands
  decide

theorem test_witness_SolveFdResult :
    ¬ (badSolveOperands (args 1 1 1 0 1) ∨ (args 1 1 1 0 1).a4 = 0 ∨ 8 < (args 1 1 1 0 1).a4.toNat)
      ∧ ¬ (badSolveOperands (args 1 1 255 0 8) ∨ (args 1 1 255 0 8).a4 = 0 ∨ 8 < (args 1 1 255 0 8).a4.toNat)
      ∧ (args 1 1 1 0 0).a4 = 0 ∧ 8 < (args 1 1 1 0 9).a4.toNat := by
  unfold badSolveOperands
  decide

theorem test_witness_SolveThenCheckIsZero :
    (¬ badSolveOperands (args 500000 60000000 1 1000 4)
        ∧ ∃ t, exec .solve (args 500000 60000000 1 1000 4) = .next t)
      ∧ ¬ (badSolveOperands (args 500000 60000000 1 1000 4) ∨ (args 500000 60000000 1 1000 4).a4 = 0
            ∨ 8 < (args 500000 60000000 1 1000 4).a4.toNat)
      ∧ ∃ t, exec .solveFd (args 500000 60000000 1 1000 4) = .next t :=
  ⟨⟨by unfold badSolveOperands; decide, _, rfl⟩, by unfold badSolveOperands; decide, _, rfl⟩

/-- One whose `BITOK` is 1, and one whose value is below the tolerance. -/
theorem test_witness_ToleranceLaw :
    ¬ badSolveOperands (args 500000 60000000 1 1000 0)
      ∧ (run .solve (args 500000 60000000 1 1000 0)).timing.bitok = true
      ∧ (run .ppm (run .solve (args 500000 60000000 1 1000 0))).r0.toNat < 1000 := by
  unfold badSolveOperands
  decide

theorem test_witness_CheckResult : t500.fd = false ∧ tFd.fd = true := by decide

/-- Both outcomes of ACTUAL and of PPM. -/
theorem test_witness_QueryResults :
    (t500.div ≠ 0 ∧ t500.brp ≠ 0 ∧ t500.rate.toNat * (1 + 8 + 8 + 7) * t500.brp.toNat * t500.div.toNat ≠ 0)
      ∧ Timing.zero.div = 0 ∧ ({ t500 with div := 0 } : Timing).brp ≠ 0 ∧ ({ t500 with brp := 0 } : Timing).div ≠ 0 := by
  decide

theorem test_witness_DataQueryResults :
    (tFd.fd = true ∧ tFd.div ≠ 0 ∧ tFd.brp ≠ 0) ∧ t500.fd = false
      ∧ ({ tFd with div := 0 } : Timing).fd = true ∧ ({ tFd with brp := 0 } : Timing).fd = true := by decide

/-! ### The filter encoder -/

theorem test_witness_EncodeResult :
    1 ≤ Config.defaults.fdShiftStd ∧ Config.defaults.fdShiftStd ≤ 19
      ∧ Params.wf { Config.defaults with fdShiftStd := 1 } = true := by decide

theorem test_witness_EncodedSubset : (1 : Nat) ≤ 1 ∧ (1 : Nat) ≤ 19 ∧ 19 ≤ 19 := by decide

/-- Both ends of the offset range, with a frame the filter accepts and one it does not. -/
theorem test_witness_EncodedAccepts :
    (encFilter .data .std 0x7FF 0x201 19).aw.getLsbD 0 = false
      ∧ (encFilter .data .std 0x7FF 0x201 1).aw.getLsbD 0 = false
      ∧ idOk (frame 0x201 .data 1 [0x11]) = true ∧ idOk (frame 0x7FF .remote 0 []) = true := by decide

theorem test_witness_GsclrResult : (1 : Nat) ≤ 1 ∧ 3 < 4 := by decide

/-! ### The life cycle -/

theorem readyC_noBit : ∀ n, n < 32 → ¬ beginBit readyC n := by
  intro n hn
  interval_cases n <;>
    simp [beginBit, classicBit, someSoftError, pinAnswers, readyC, t500, small, pins, State.resetWith, Config.defaults,
      portPinValid, takeKeyed, Timing.bitok, Timing.triple, Timing.zero, Port.none]

theorem readyF_noBit : ∀ n, n < 32 → ¬ beginFdBit readyF n := by
  intro n hn
  interval_cases n <;>
    simp [beginFdBit, fdBit, someSoftError, pinAnswers, readyF, tFd, pins, State.reset, State.resetWith,
      Config.defaults, portPinValid, takeKeyed, Timing.bitok, Timing.triple, Timing.zero, Port.none, fdMbTotal]

theorem test_witness_ConfigErrorWord :
    readyC.life = .uninit ∧ readyC.timing.fd = false ∧ readyF.life = .uninit ∧ readyF.timing.fd = true := by decide

/-- Each kind of BEGIN with a clean configuration, and with an error. -/
theorem test_witness_BeginPhaseA :
    (readyC.life = .uninit ∧ readyC.timing.fd = false ∧ ∀ n, n < 32 → ¬ beginBit readyC n)
      ∧ (State.reset.life = .uninit ∧ State.reset.timing.fd = false ∧ ∃ n, n < 32 ∧ beginBit State.reset n)
      ∧ (readyF.life = .uninit ∧ readyF.timing.fd = true ∧ ∀ n, n < 32 → ¬ beginFdBit readyF n)
      ∧ ∃ n, n < 32 ∧ beginFdBit { readyF with fdRxmb := 13 } n :=
  ⟨⟨rfl, rfl, readyC_noBit⟩, ⟨rfl, rfl, 0, by decide, rfl⟩, ⟨rfl, rfl, readyF_noBit⟩, 23, by decide, by
    show fdMbTotal _ _ - 2 < _
    decide⟩

theorem test_witness_BeginRun :
    let s := { readyC with inputs := [commandWrite readyC.par 0x30, .ack .frozen, .ack .unfrozen] }
    s.life = .uninit ∧ s.busy = false ∧ s.timing.fd = false ∧ (∀ n, n < 32 → ¬ beginBit s n)
      ∧ s.inputs = commandWrite s.par 0x30 :: .ack .frozen :: .ack .unfrozen :: [] :=
  ⟨rfl, rfl, rfl, readyC_noBit, rfl⟩

theorem test_witness_BeginFdRun :
    let s := { readyF with inputs := [commandWrite readyF.par 0x31, .ack .frozen, .ack .unfrozen] }
    s.life = .uninit ∧ s.busy = false ∧ s.timing.fd = true ∧ (∀ n, n < 32 → ¬ beginFdBit s n) ∧ s.par.wf = true
      ∧ s.inputs = commandWrite s.par 0x31 :: .ack .frozen :: .ack .unfrozen :: [] :=
  ⟨rfl, rfl, rfl, readyF_noBit, by decide, rfl⟩

theorem test_witness_EndRun :
    let s := { runC with inputs := [commandWrite runC.par 0x32, .ack .frozen] }
    s.life = .running ∧ s.busy = false ∧ s.inputs = commandWrite s.par 0x32 :: .ack .frozen :: []
      ∧ State.reset.life ≠ .running := by decide

/-! ### The arbiter -/

/-- A frame of each kind, at the length bounds of each mode. -/
theorem test_witness_SendResult :
    ¬ illFormedClassic (sending .std .data 0x7FF 8 [(63, .inactive)] runC).txf
      ∧ ¬ illFormedClassic (sending .ext .remote 0x1FFFFFFF 8 [] runC).txf
      ∧ illFormedClassic (sending .std .data 0x800 8 [] runC).txf
      ∧ illFormedClassic (sending .std .data 0x7FF 9 [] runC).txf
      ∧ illFormedClassic (sending .std .fdBrs 0x7FF 8 [] runC).txf
      ∧ State.reset.life ≠ .running ∧ runF.mode = .fd ∧ runC.life = .running ∧ runC.mode = .classic := by
  unfold illFormedClassic
  decide

/-- The data path: the mailbox inactive and the queue empty; the queue full; neither. The remote path: a claimable
mailbox and none. -/
theorem test_witness_SendEffect :
    (portMbCode 63 (sending .std .data 0x123 4 [(63, .inactive)] runC).port).1 = .inactive
      ∧ runC.txq.cnt = 0 ∧ runC.txq.cnt ≠ runC.txq.cap ∧ RingWf runC.txq
      ∧ (portMbCode 63 (sending .std .data 0x123 4 [(63, .txpend)] runC).port).1 ≠ .inactive
      ∧ ringFull.cnt = ringFull.cap
      ∧ (scanMailboxes [3, 4] (sending .std .remote 0x100 0 [(3, .txpend), (4, .full)] runF).port).1 = some 4
      ∧ (scanMailboxes [3] (sending .std .remote 0x100 0 [(3, .txpend), (4, .full)] runF).port).1 = none :=
  ⟨by decide, by decide, by decide, qCreate_wf, by decide, by decide, by decide, by decide⟩

theorem test_witness_SendFdResult :
    ¬ illFormedFd (sending .std .fdBrs 0x7FF 64 [] runF).txf
      ∧ ¬ illFormedFd (sending .std .remote 0x7FF 8 [] runF).txf
      ∧ illFormedFd (sending .std .fdBrs 0x7FF 9 [] runF).txf
      ∧ illFormedFd (sending .std .data 0x7FF 12 [] runF).txf
      ∧ illFormedFd (sending .std .data 0x800 8 [] runF).txf
      ∧ runC.mode = .classic ∧ runF.life = .running ∧ runF.mode = .fd
      ∧ (sending .std .fdBrs 0x7FF 64 [] runF).txf.len.toNat ≤ 8 * 2 ^ runF.act.payload.toNat
      ∧ 8 * 2 ^ (2 : BitVec 2).toNat < (sending .std .fdBrs 0x7FF 64 [] runF).txf.len.toNat := by
  unfold illFormedFd
  decide

theorem test_witness_NotRunningNoOp : State.reset.life ≠ .running ∧ (run .beginCmd readyC).life ≠ .running := by decide

/-- One queued frame, none, and the other mode. -/
theorem test_witness_RecvResult :
    (runC.life = .running ∧ runC.mode = .classic ∧ RingWf runC.rxq
        ∧ queued runC.rxq = [frame 0x201 .data 1 [0x11]])
      ∧ (runF.mode = .fd ∧ RingWf runF.rxq ∧ runF.mode ≠ .classic)
      ∧ RingWf (qCreate 2) ∧ queued (qCreate 2) = [] :=
  ⟨⟨rfl, rfl, ring1_wf, by decide⟩, ⟨rfl, ring1_wf, by decide⟩, qCreate_wf, rfl⟩

/-- A frame with a callback, a frame whose index is beyond the table, and the other mode. -/
theorem test_witness_DispatchResult :
    (runC.life = .running ∧ runC.mode = .classic ∧ RingWf runC.rxq
        ∧ callbackFor runC (frame 0x201 .data 1 [0x11]) = 0x2000)
      ∧ callbackFor { runC with ncb := 0 } (frame 0x201 .data 1 [0x11]) = 0
      ∧ runF.mode ≠ .classic ∧ RingWf (qCreate 2) ∧ queued (qCreate 2) = [] :=
  ⟨⟨rfl, rfl, ring1_wf, by decide⟩, by decide, by decide, qCreate_wf, rfl⟩

/-- A sample with every event, and one with none; room and no room. -/
theorem test_witness_IsrcResult :
    (runC.life = .running ∧ runC.mode = .classic ∧ RingWf runC.rxq ∧ RingWf runC.txq)
      ∧ (portFlags (sampled 0xF runC).port).1 = 0xF ∧ (portFlags (sampled 0 runC).port).1 = 0
      ∧ runC.rxq.cnt ≠ runC.rxq.cap ∧ RingWf ringFull ∧ ringFull.cnt = ringFull.cap :=
  ⟨⟨rfl, rfl, ring1_wf, qCreate_wf⟩, by decide, by decide, by decide, ringFull_wf, by decide⟩

/-- Two receive mailboxes and the transmit mailbox flagged; and the least and the most receive mailboxes. -/
theorem test_witness_IsrFdResult :
    (sampledF.life = .running ∧ sampledF.mode = .fd ∧ RingWf sampledF.rxq ∧ RingWf sampledF.txq
        ∧ sampledF.act.rxmb.toNat + 2 ≤ fdMbTotal sampledF.par sampledF.act.payload)
      ∧ (portFlagsLo sampledF.port).1.getLsbD 13 = true ∧ (portFlagsLo sampledF.port).1.getLsbD 12 = false
      ∧ 0 + 2 ≤ fdMbTotal sampledF.par 3 ∧ 12 + 2 ≤ fdMbTotal sampledF.par 3 :=
  ⟨⟨rfl, rfl, ring1_wf, qCreate_wf, by decide⟩, by decide, by decide, by decide, by decide⟩

/-- Pushes that fit, one that does not, and the ring of capacity 0. -/
theorem test_witness_RingFifo :
    (RingWf ring1 ∧ (pushAll ring1 [frame 0x202 .data 0 []]).isSome = true)
      ∧ (RingWf ringFull ∧ pushAll ringFull [frame 0x202 .data 0 []] = none)
      ∧ RingWf Ring.zero :=
  ⟨⟨ring1_wf, by decide⟩, ⟨ringFull_wf, by decide⟩, ringZero_wf⟩

/-- A classic and an FD frame at their length bounds. -/
theorem test_witness_PackUnpackRoundTrip :
    (let f := frame 0x7FF .data 8 [1, 2, 3, 4, 5, 6, 7, 8]
     norm f = f ∧ f.idx = 0 ∧ classicOk f = true)
      ∧ let f := frame 0x7FF .fdBrs 64 (List.replicate 64 0xA5)
        norm f = f ∧ f.idx = 0 ∧ fdOk f = true ∧ f.len.toNat ≤ payloadBytes 3 := by decide

/-- A byte on each side of the payload length, and the first byte of a remote frame. -/
theorem test_witness_RegisterFileFrames :
    beyondPayload .data 8 8 ∧ ¬ beyondPayload .data 8 7 ∧ beyondPayload .remote 8 0 ∧ ¬ beyondPayload .fdBrs 64 63 := by
  unfold beyondPayload
  decide

/-- The ends of the bit ranges, the widest identifiers, the least and the greatest length. -/
theorem test_witness_FrameImageLayout :
    (15 < 32 ∧ (15 < 16 ∨ 20 ≤ 15)) ∧ (31 < 32 ∧ (31 < 16 ∨ 20 ≤ 31))
      ∧ (frame 0x100 .data 0 []).len.toNat ∈ lengthOfCode ∧ (frame 0x100 .fdBrs 64 []).len.toNat ∈ lengthOfCode
      ∧ ((frame 0x7FF .data 0 []).ext = .std ∧ (frame 0x7FF .data 0 []).id.toNat ≤ 0x7FF)
      ∧ (fun f : Frame => f.ext = .ext) { frame 0x1FFFFFFF .data 0 [] with ext := .ext } := by decide

/-- An FD frame, the same control word in classic mode, and one without `EDL`; a byte on each side of the length. -/
theorem test_witness_UnpackReadsImage :
    (Mode.fd = .fd ∧ (0xCC0F0000 : Word).getLsbD 31 = true)
      ∧ ¬ (Mode.classic = .fd ∧ (0xCC0F0000 : Word).getLsbD 31 = true)
      ∧ ¬ (Mode.fd = .fd ∧ (0x0C0F0000 : Word).getLsbD 31 = true)
      ∧ (let f := unpack .fd 0x0C0F0000 0 [0x01020304, 0x05060708]
         ¬ beyondPayload f.kind f.len 7 ∧ beyondPayload f.kind f.len 8) := by
  unfold beyondPayload
  decide

end Sys2Proof.Tests
end

/-! The state's own statements: which operation writes which state, the reset state is good and every step keeps a state
good, and the frames of the register files. -/

namespace Sys2Proof.Machine

/-! ## Which operation writes which state (R21, R25, R31, R46 to R48, R98, R211) -/

/-- The operations that write the timing registers (R31). -/
def setsTiming : Instr → Bool
  | .solve | .solveFd => true
  | _ => false

/-- The operations that write the primary staging list (R47). -/
def setsPrimary : Instr → Bool
  | .fpushp | .fclear => true
  | _ => false

/-- The operations that write the secondary staging list (R47). -/
def setsSecondary : Instr → Bool
  | .fpushs | .fclear => true
  | _ => false

/-- The operations that write the FD staging list (R47). -/
def setsFd : Instr → Bool
  | .fpushf | .fclear => true
  | _ => false

/-- The operations that write `RXF` (R44). -/
def setsRxf : Instr → Bool
  | .recv | .recvFd | .dispatch _ | .dispatchFd _ => true
  | _ => false

/-- The operations that write the rings (R98). -/
def setsRings : Instr → Bool
  | .send | .sendFd | .recv | .recvFd | .dispatch _ | .dispatchFd _ | .isrc | .isrFd => true
  | _ => false

/-- The operations that write the life cycle and `INIT_ERROR` (R171). -/
def setsLife : Instr → Bool
  | .beginCmd | .beginFd | .endCmd => true
  | _ => false

theorem setsRings_of_setsRxf {i : Instr} (h : setsRxf i = true) : setsRings i = true := by
  revert h
  cases i <;> simp [setsRxf, setsRings]

/-- `s` with the fields that operation `i` may write taken from `t`. -/
def writtenFrom (i : Instr) (s t : State) : State :=
  { s with
    r0 := if i.isCommand then t.r0 else s.r0
    r1 := if i.isCommand then t.r1 else s.r1
    err := if i.isCommand then t.err else s.err
    timing := if setsTiming i then t.timing else s.timing
    np := if setsPrimary i then t.np else s.np
    sp := if setsPrimary i then t.sp else s.sp
    ns := if setsSecondary i then t.ns else s.ns
    ss := if setsSecondary i then t.ss else s.ss
    nf := if setsFd i then t.nf else s.nf
    sf := if setsFd i then t.sf else s.sf
    rxf := if setsRxf i then t.rxf else s.rxf
    rxq := if setsRings i then t.rxq else s.rxq
    txq := if setsRings i then t.txq else s.txq
    life := if setsLife i then t.life else s.life
    mode := if setsLife i then t.mode else s.mode
    busy := if setsLife i then t.busy else s.busy
    waitpt := if setsLife i then t.waitpt else s.waitpt
    gstat := t.gstat
    out := t.out
    port := t.port }

/-- `t` is `s` but for what operation `i` may write. -/
def WritesOnly (i : Instr) (s t : State) : Prop :=
  t = writtenFrom i s t ∧ (setsLife i = false → t.gstat.getLsbD 0 = s.gstat.getLsbD 0)

theorem WritesOnly.ite {i : Instr} {s t u : State} (c : Prop) [Decidable c] (ht : WritesOnly i s t)
    (hu : WritesOnly i s u) : WritesOnly i s (if c then t else u) := by
  split
  · exact ht
  · exact hu

theorem writesOnly_accept {i : Instr} (hi : i.isCommand = true) (s : State) : WritesOnly i s (accept s) :=
  ⟨by simp [writtenFrom, hi, accept], fun _ => rfl⟩

theorem writesOnly_refuse {i : Instr} (hi : i.isCommand = true) (c : ErrCode) (s : State) :
    WritesOnly i s (refuse c s) :=
  ⟨by simp [writtenFrom, hi, refuse], fun _ => rfl⟩

theorem writesOnly_setR0 {i : Instr} (hi : i.isCommand = true) (v : Word) (s : State) :
    WritesOnly i s (setR0 v (accept s)) :=
  ⟨by simp [writtenFrom, hi, accept, setR0], fun _ => rfl⟩

theorem writesOnly_setPair {i : Instr} (hi : i.isCommand = true) (p : FilterPair) (s : State) :
    WritesOnly i s (setPair p s) :=
  ⟨by simp [writtenFrom, hi, accept, setR0, setR1, setPair], fun _ => rfl⟩

theorem writesOnly_storeTiming {i : Instr} (hi : i.isCommand = true) (ht : setsTiming i = true) (t : Timing)
    (s : State) : WritesOnly i s (storeTiming t s) :=
  ⟨by simp [writtenFrom, hi, ht, accept, setR0, setTiming, storeTiming], fun _ => rfl⟩

theorem writesOnly_beginPhaseA {i : Instr} (hi : i.isCommand = true) (hl : setsLife i = true) (m : Mode)
    (e : Word × Port) (s : State) : WritesOnly i s (beginPhaseA m e s) := by
  refine .ite _ ⟨?_, ?_⟩ ⟨?_, ?_⟩ <;>
    simp [writtenFrom, hi, hl, accept, setR0, setPort, setInitError, setLife, setMode, emit]

/-- A command of the arbiter writes `RXF` only if it delivers a frame. -/
theorem ArbiterOnly.writesOnly {i : Instr} {s t : State} (h : ArbiterOnly s t) (hi : i.isCommand = true)
    (hq : setsRings i = true) (hr : setsRxf i = true ∨ t.rxf = s.rxf) : WritesOnly i s t := by
  obtain ⟨ht, hg, -⟩ := h
  refine ⟨?_, fun _ => hg⟩
  rw [ht]
  obtain hr | hr := hr <;> simp [writtenFrom, hi, hq, hr]

theorem HandlerOnly.writesOnly {i : Instr} {s t : State} (h : HandlerOnly s t) (hq : setsRings i = true) :
    WritesOnly i s t := by
  obtain ⟨ht, hg, -⟩ := h
  refine ⟨?_, fun _ => hg⟩
  rw [ht]
  simp [writtenFrom, hq]

theorem execSend_rxf {s t : State} (h : execSend s = .next t) : t.rxf = s.rxf := by
  obtain rfl := Host.Outcome.next.inj h
  repeat' split
  all_goals simp [sendFrame_rxf]

theorem execSendFd_rxf {s t : State} (h : execSendFd s = .next t) : t.rxf = s.rxf := by
  obtain rfl := Host.Outcome.next.inj h
  repeat' split
  all_goals simp [sendFrame_rxf]

/-- Every operation writes only what it may. -/
theorem exec_writesOnly {i : Instr} {s t : State} (h : exec i s = .next t) : WritesOnly i s t := by
  cases i
  case send => exact (arbiterOnly_send h).writesOnly rfl rfl (.inr (execSend_rxf h))
  case sendFd => exact (arbiterOnly_sendFd h).writesOnly rfl rfl (.inr (execSendFd_rxf h))
  case isrc => exact (handlerOnly_isrc h).writesOnly rfl
  case isrFd => exact (handlerOnly_isrFd h).writesOnly rfl
  all_goals obtain rfl := Host.Outcome.next.inj h
  case nop => exact writesOnly_accept rfl _
  case solve | solveFd => exact .ite _ (writesOnly_refuse rfl _ _) (writesOnly_storeTiming rfl rfl _ _)
  case check | exact | sample => exact writesOnly_setR0 rfl _ _
  case actual | ppm | dexact | dsample => exact .ite _ (writesOnly_refuse rfl _ _) (writesOnly_setR0 rfl _ _)
  case dactual =>
    exact .ite _ (writesOnly_refuse rfl _ _) (.ite _ (writesOnly_refuse rfl _ _) (writesOnly_setR0 rfl _ _))
  case encp | encs | encf | encany => exact writesOnly_setPair rfl _ _
  case fpushp | fpushs | fpushf | fclear => exact ⟨rfl, fun _ => rfl⟩
  case beginCmd | beginFd =>
    exact .ite _ (writesOnly_refuse rfl _ _)
      (.ite _ (writesOnly_refuse rfl _ _) (writesOnly_beginPhaseA rfl rfl _ _ _))
  case endCmd => exact .ite _ (writesOnly_refuse rfl _ _) ⟨rfl, nofun⟩
  case gsclr clr => exact ⟨rfl, fun _ => by simp [setGstat]⟩
  case recv | recvFd => exact (arbiterOnly_recvIn _ _).writesOnly rfl rfl (.inl rfl)
  case dispatch | dispatchFd => exact (arbiterOnly_dispatchIn _ _ _).writesOnly rfl rfl (.inl rfl)

/-- Settles O17: each clause reads one field off what `exec_writesOnly` allows the operation. -/
theorem writersOfEachState : Obligations.WritersOfEachState := by
  intro i s t h
  obtain ⟨ht, hg⟩ := exec_writesOnly h
  refine ⟨?_, fun h1 h2 => ?_, fun h1 h2 => ?_, fun h1 h2 => ?_, fun h1 h2 => ?_, fun h1 h2 h3 h4 => ?_,
    fun h1 h2 h3 => ?_, fun hi => ?_⟩
  · rw [ht]
    exact ⟨rfl, rfl, rfl, rfl, rfl, rfl, rfl, rfl, rfl, rfl, rfl, rfl, rfl, rfl, rfl, rfl, rfl, rfl, rfl, rfl⟩
  · rw [ht]; simp [writtenFrom, setsTiming]
  · rw [ht]; simp [writtenFrom, setsPrimary]
  · rw [ht]; simp [writtenFrom, setsSecondary]
  · rw [ht]; simp [writtenFrom, setsFd]
  · rw [ht]; simp [writtenFrom, setsRxf]
  · have hi : setsLife i = false := by simp [setsLife]
    refine ⟨?_, ?_, ?_, ?_, hg hi⟩ <;> (rw [ht]; simp [writtenFrom, hi])
  · cases i
    case isrc | isrFd => exact ht
    all_goals cases hi

/-! ## The invariant under a few updates -/

/-- The moves still to come, the port and the last word read are no part of the invariant. -/
theorem Inv.outside {s : State} (hi : Inv s) (inputs : List Input) (port : Port) (busData : Word) :
    Inv { s with inputs := inputs, port := port, busData := busData } :=
  ⟨hi.par_wf, hi.life, hi.initError, hi.idle, hi.rings, hi.frames, hi.stage, hi.pending, hi.active⟩

theorem Inv.configuring_of_waitpt {s : State} (hi : Inv s) (hw : s.waitpt ≠ .none) : s.life = .configuring := by
  obtain ⟨-, hwait⟩ := hi.life
  exact hwait.2 hw

theorem Inv.rxf_norm {s : State} (hi : Inv s) : norm (readFile s.rxf) = readFile s.rxf := by
  obtain ⟨-, -, h⟩ := hi.frames
  exact h

/-- A good state that is not busy waits for nothing (R171). -/
theorem Inv.waitpt_of_not_busy {s : State} (hi : Inv s) (hb : s.busy = false) : s.waitpt = .none := by
  obtain ⟨hbusy, -⟩ := hi.life
  by_contra hw
  simp [hbusy.2 (hi.configuring_of_waitpt hw)] at hb

/-- A good state in `RUNNING` waits for nothing (R171). -/
theorem Inv.waitpt_of_running {s : State} (hi : Inv s) (hl : s.life = .running) : s.waitpt = .none := by
  by_contra hw
  simp [hi.configuring_of_waitpt hw] at hl

/-- What stays within `RunFrame` keeps a state good when it waits for nothing and, outside `RUNNING`, the rings stay as they
are. -/
theorem Inv.of_runFrame {s t : State} (hi : Inv s) (hw : s.waitpt = .none) (h : RunFrame s t)
    (hq : s.life ≠ .running → t.rxq = s.rxq ∧ t.txq = s.txq) : Inv t := by
  obtain ⟨hrings, hframes⟩ := h.rings hi.rings hi.frames
  obtain ⟨hsp, hss, hsf, hnp, hns, hnf⟩ := h.stage
  have hwt : t.waitpt = .none := h.waitpt.trans hw
  refine
    { par_wf := h.par ▸ hi.par_wf, life := ?_, initError := ?_, idle := fun ht => ?_, rings := hrings
      frames := hframes, stage := ?_, pending := fun hp => by simp [hwt] at hp, active := ?_ }
  · simpa only [LifeInv, h.life, h.busy, h.waitpt] using hi.life
  · simpa only [InitErrorInv, h.gstat, h.life] using hi.initError
  · have hl : s.life = .uninit := by simpa [h.life, hwt] using ht
    obtain ⟨hrx, htx⟩ := hq (by simp [hl])
    simpa only [Inactive, hrx, htx, h.nslot, h.slot, h.ncb, h.cbt, h.act] using hi.idle (.inl hl)
  · simpa only [StageInv, h.par, hsp, hss, hsf, hnp, hns, hnf] using hi.stage
  · simpa only [ActiveInv, h.life, h.waitpt, h.nslot, h.slot, h.ncb, h.cbt, h.mode, h.par, h.act] using hi.active

/-- A refusal keeps a state that waits for nothing good (R230). -/
theorem Inv.refuse {s : State} (hi : Inv s) (hw : s.waitpt = .none) (c : ErrCode) : Inv (refuse c s) :=
  hi.of_runFrame hw (runFrame_refuse c s) fun _ => ⟨rfl, rfl⟩

/-- The staging lists of a state that waits for nothing may become any good ones (R47). -/
theorem Inv.restage {s : State} (hi : Inv s) (hw : s.waitpt = .none) {err : ErrCode} {np ns nf : Byte}
    {sp ss sf : Memory FilterEntry} (hp : StageWf s.par.nPrimaryMax np sp) (hs : StageWf s.par.nSecondaryMax ns ss)
    (hf : StageWf Config.stageFd nf sf) :
    Inv { s with err := err, np := np, sp := sp, ns := ns, ss := ss, nf := nf, sf := sf } :=
  ⟨hi.par_wf, hi.life, hi.initError, hi.idle, hi.rings, hi.frames, ⟨hp, hs, hf⟩, fun h => by simp [hw] at h,
    hi.active⟩

/-- An empty staging list is good (R51). -/
theorem stageWf_nil (limit : Nat) : StageWf limit 0 [] := ⟨.nil, nofun, fun i hi => by simp at hi⟩

/-- FCLEAR keeps a staging list good: it counts no entry (R163). -/
theorem stageWf_clear {limit : Nat} {n : Byte} {m : Memory FilterEntry} (h : StageWf limit n m) : StageWf limit 0 m :=
  ⟨h.mem_wf, h.mem_lt, fun i hi => by simp at hi⟩

/-! ## Operations outside the life cycle -/

theorem recvFrame_of_not_running {m : Mode} {s : State} (hl : s.life ≠ .running) : recvFrame m s = none := by
  simp [recvFrame, hl]

/-- Outside `RUNNING` no operation writes a ring (R46, R205, R212). -/
theorem exec_rings_of_not_running {i : Instr} {s t : State} (hl : s.life ≠ .running) (h : exec i s = .next t) :
    t.rxq = s.rxq ∧ t.txq = s.txq := by
  by_cases hi : setsRings i = true
  · cases i
    case send | sendFd =>
      obtain rfl := Host.Outcome.next.inj h
      rw [if_pos hl]
      split <;> simp
    case recv | recvFd =>
      obtain rfl := Host.Outcome.next.inj h
      simp [recvIn, recvFrame_of_not_running (s := accept s) hl]
    case dispatch | dispatchFd =>
      obtain rfl := Host.Outcome.next.inj h
      simp [dispatchIn, recvFrame_of_not_running (s := accept s) hl]
    case isrc | isrFd =>
      obtain rfl := Host.Outcome.next.inj h
      simp [hl]
    all_goals cases hi
  · obtain ⟨ht, -⟩ := exec_writesOnly h
    rw [ht]
    simp [writtenFrom, hi]

theorem runFrame_isrc {s t : State} (h : execIsrc s = .next t) : RunFrame s t := by
  obtain rfl := Host.Outcome.next.inj h
  split
  · exact (runFrame_port _ _).trans (runFrame_isrcRun _ _)
  · exact .refl s

theorem runFrame_isrFd {s t : State} (h : execIsrFd s = .next t) : RunFrame s t := by
  obtain rfl := Host.Outcome.next.inj h
  split
  · exact (((runFrame_port _ _).trans (runFrame_isrFdLoop _ _ _)).trans (runFrame_port _ _)).trans (runFrame_emit _ _)
  · exact .refl s

/-- The operations that write neither the staging lists nor the life cycle. -/
def framed (i : Instr) : Bool := !(setsPrimary i || setsSecondary i || setsFd i || setsLife i)

/-- Every operation that writes neither the staging lists nor the life cycle stays within `RunFrame`. -/
theorem exec_runFrame {i : Instr} {s t : State} (hi : framed i = true) (h : exec i s = .next t) : RunFrame s t := by
  by_cases hq : setsRings i = true
  · cases i
    case send => exact runFrame_send h
    case sendFd => exact runFrame_sendFd h
    case isrc => exact runFrame_isrc h
    case isrFd => exact runFrame_isrFd h
    all_goals obtain rfl := Host.Outcome.next.inj h
    case recv | recvFd => exact runFrame_recvIn _ _
    case dispatch | dispatchFd => exact runFrame_dispatchIn _ _ _
    all_goals cases hq
  · simp only [framed, Bool.not_eq_true', Bool.or_eq_false_iff] at hi
    obtain ⟨⟨⟨hp, hs⟩, hf⟩, hl⟩ := hi
    have hr : ¬ setsRxf i = true := fun hr => hq (setsRings_of_setsRxf hr)
    obtain ⟨ht, hg⟩ := exec_writesOnly h
    rw [ht]
    apply RunFrame.of_fields
    case gstat => exact hg hl
    all_goals simp [writtenFrom, hp, hs, hf, hl, hq, hr]

/-! ## The life cycle -/

/-- The validations of phase A (R175, R180), by mode. -/
def Valid : Mode → State → Prop
  | .classic => ValidClassic
  | .fd => ValidFd

theorem pendingInv_iff {s : State} : PendingInv s ↔ (s.waitpt = .beginFrozen → Valid s.mode s) := by
  unfold PendingInv
  cases s.mode <;> rfl

/-- Waiting for `Frozen` with validated registers is good (R171, R175, R180). -/
theorem Inv.awaitFrozen {s : State} (hi : Inv s) (hl : s.life = .uninit) {m : Mode} (hv : Valid m s) {r0 : Word}
    {err : ErrCode} {out : List Action} {port : Port} :
    Inv { s with
      r0 := r0, err := err, out := out, port := port, mode := m
      life := .configuring, busy := true, waitpt := .beginFrozen } where
  par_wf := hi.par_wf
  life := by simp [LifeInv]
  initError := nofun
  idle := fun _ => hi.idle (.inl hl)
  rings := hi.rings
  frames := hi.frames
  stage := hi.stage
  pending := pendingInv_iff.2 fun _ => by cases m <;> exact hv
  active := nofun

/-- A failed BEGIN or BEGINFD sets `INIT_ERROR` in `UNINIT`, which is good (R28). -/
theorem Inv.initFailed {s : State} (hi : Inv s) (hl : s.life = .uninit) (hw : s.waitpt = .none) {r0 : Word}
    {err : ErrCode} {gstat : BitVec 4} {port : Port} :
    Inv { s with r0 := r0, err := err, gstat := gstat, port := port } where
  par_wf := hi.par_wf
  life := hi.life
  initError := fun _ => by simp [hl]
  idle := hi.idle
  rings := hi.rings
  frames := hi.frames
  stage := hi.stage
  pending := fun h => by simp [hw] at h
  active := hi.active

/-- Phase A of BEGIN and BEGINFD keeps a state good when an error word of 0 means valid registers (R175, R180). -/
theorem inv_beginPhaseA {s : State} (hi : Inv s) (hl : s.life = .uninit) (hw : s.waitpt = .none) {m : Mode}
    {e : Word × Port} (hv : e.1 = 0 → Valid m s) : Inv (beginPhaseA m e s) := by
  simp only [beginPhaseA, setInitError, emit, setLife, setMode, setR0, accept, setPort]
  split
  · exact hi.initFailed hl hw
  · rename_i he
    exact hi.awaitFrozen hl (hv (by simpa using he))

/-- An error word is 0 when none of its conditions holds. -/
theorem flagWord_cons_eq_zero {b : Bool} {n : Nat} {l : List (Bool × Nat)} (hn : n < 32) :
    flagWord ((b, n) :: l) = 0 ↔ b = false ∧ flagWord l = 0 := by
  rw [flagWord, word_or_eq_zero, bitAt_eq_zero hn]

theorem validClassic_of_beginError {s : State} (hf : s.timing.fd = false) (h : (beginError s).1 = 0) :
    ValidClassic s := by
  simp (disch := decide) only [beginError, word_or_eq_zero, flagWord_cons_eq_zero] at h
  obtain ⟨⟨⟨hc, hb, -⟩, hfe⟩, -⟩ := h
  exact ⟨hc, by simpa using hb, hf, hfe⟩

theorem validFd_of_beginFdError {s : State} (hp : s.par.wf = true) (hf : s.timing.fd = true)
    (h : (beginFdError s).1 = 0) : ValidFd s := by
  simp (disch := decide) only [beginFdError, word_or_eq_zero, flagWord_cons_eq_zero, decide_eq_false_iff_not] at h
  obtain ⟨⟨⟨hc, hb, hcap, hr, -⟩, hfe⟩, -⟩ := h
  have hm := fdMbTotal_bounds hp s.fdPayload
  exact ⟨hc, by simpa using hb, hf, by simpa using hcap, by omega, hfe⟩

/-- The two refusals and phase A that BEGIN and BEGINFD share keep a state good (R175, R180). -/
theorem inv_begin {s : State} (hi : Inv s) (hw : s.waitpt = .none) {c : Prop} [Decidable c] {m : Mode} {e : Word × Port}
    (hv : ¬ c → e.1 = 0 → Valid m s) :
    Inv (if s.life ≠ .uninit then refuse .badState s else if c then refuse .badOperand s else beginPhaseA m e s) := by
  split
  · exact hi.refuse hw _
  · rename_i hl
    split
    · exact hi.refuse hw _
    · rename_i hc
      exact inv_beginPhaseA hi (by simpa using hl) hw (hv hc)

/-- BEGIN keeps a state good (R175). -/
theorem inv_execBegin {s t : State} (hi : Inv s) (hw : s.waitpt = .none) (h : execBegin s = .next t) : Inv t := by
  obtain rfl := Host.Outcome.next.inj h
  exact inv_begin hi hw fun hf => validClassic_of_beginError (by simpa using hf)

/-- BEGINFD keeps a state good (R180). -/
theorem inv_execBeginFd {s t : State} (hi : Inv s) (hw : s.waitpt = .none) (h : execBeginFd s = .next t) : Inv t := by
  obtain rfl := Host.Outcome.next.inj h
  exact inv_begin hi hw fun hf => validFd_of_beginFdError hi.par_wf (by simpa using hf)

/-- Phase A of END keeps a state good: the configuration stays active until phase B (R179, R181). -/
theorem inv_execEnd {s t : State} (hi : Inv s) (hw : s.waitpt = .none) (h : execEnd s = .next t) : Inv t := by
  obtain rfl := Host.Outcome.next.inj h
  split
  · exact hi.refuse hw _
  · rename_i hl
    have hl : s.life = .running := by simpa using hl
    exact
      { par_wf := hi.par_wf, life := by simp [LifeInv], initError := fun _ => by simp, idle := fun h => by simp at h
        rings := hi.rings, frames := hi.frames, stage := hi.stage, pending := fun h => by simp at h
        active := fun _ => hi.active (.inl hl) }

/-- Every operation keeps a good state that waits for nothing good. -/
theorem inv_exec {i : Instr} {s t : State} (hi : Inv s) (hw : s.waitpt = .none) (h : exec i s = .next t) : Inv t := by
  obtain ⟨hp, hs, hf⟩ := hi.stage
  obtain ⟨hp255, hs255, -⟩ := Params.filter_bounds hi.par_wf
  cases i
  case beginCmd => exact inv_execBegin hi hw h
  case beginFd => exact inv_execBeginFd hi hw h
  case endCmd => exact inv_execEnd hi hw h
  case fpushp =>
    obtain rfl := Host.Outcome.next.inj h
    exact hi.restage hw (stageWf_push _ hp (by omega)) hs hf
  case fpushs =>
    obtain rfl := Host.Outcome.next.inj h
    exact hi.restage hw hp (stageWf_push _ hs (by omega)) hf
  case fpushf =>
    obtain rfl := Host.Outcome.next.inj h
    exact hi.restage hw hp hs (stageWf_push _ hf (by decide))
  case fclear =>
    obtain rfl := Host.Outcome.next.inj h
    exact hi.restage hw (stageWf_clear hp) (stageWf_clear hs) (stageWf_clear hf)
  all_goals exact hi.of_runFrame hw (exec_runFrame rfl h) fun hl => exec_rings_of_not_running hl h

/-! ## Phases B and C (R175, R177, R180, R181) -/

/-- A classic configuration without filter errors counts no more entries than it may, none of them with its soft error
flag set (R173). -/
theorem counts_of_filterErrC {s : State} (h : filterErrC s = 0) :
    s.np.toNat ≤ s.par.nPrimaryMax ∧ s.ns.toNat ≤ s.par.nSecondaryMax
      ∧ (∀ i, i < s.np.toNat → (readFilter s.sp i).aw.getLsbD 0 = false)
      ∧ ∀ i, i < s.ns.toNat → (readFilter s.ss i).aw.getLsbD 0 = false := by
  simp (disch := decide) only [filterErrC, flagWord_cons_eq_zero, decide_eq_false_iff_not] at h
  obtain ⟨hnp, hns, hp, hs, -⟩ := h
  exact ⟨by omega, by omega, fun i hi => nonconform_false hp (by omega), fun i hi => nonconform_false hs (by omega)⟩

/-- The same of the FD list, when there are no more receive mailboxes than the list stores entries (R173). -/
theorem counts_of_filterErrF {s : State} {r : Nat} (hr : r ≤ Config.stageFd) (h : filterErrF r s = 0) :
    s.nf.toNat ≤ r ∧ ∀ i, i < s.nf.toNat → (readFilter s.sf i).aw.getLsbD 0 = false := by
  simp (disch := decide) only [filterErrF, flagWord_cons_eq_zero, decide_eq_false_iff_not] at h
  obtain ⟨hnf, hf, -⟩ := h
  exact ⟨by omega, fun i hi => nonconform_false hf (by omega)⟩

theorem slotC_soft_clear {s : State} (h : filterErrC s = 0) (k : Nat) : (slotC s k).aw.getLsbD 0 = false := by
  obtain ⟨-, -, hp, hs⟩ := counts_of_filterErrC h
  have hfill : (fillC s).aw.getLsbD 0 = false := by
    simp only [fillC]
    split
    · exact hp 0 ‹_›
    · split
      · exact hs 0 ‹_›
      · rfl
  simp only [slotC]
  split <;> split
  · exact hp k ‹_›
  · exact hfill
  · exact hs _ ‹_›
  · exact hfill

theorem slotF_soft_clear {s : State} (hf : ∀ i, i < s.nf.toNat → (readFilter s.sf i).aw.getLsbD 0 = false)
    (k : Nat) : (slotF s k).aw.getLsbD 0 = false := by
  simp only [slotF, fillF]
  split
  · exact hf k ‹_›
  · split
    · exact hf 0 ‹_›
    · rfl

/-- Tables written whole without soft errors are good active tables (R48, R183). -/
theorem tablesWf_table {n k : Nat} {slot : Nat → FilterPair} {cb : Nat → Word}
    (h : ∀ i, (slot i).aw.getLsbD 0 = false) : TablesWf n (Memory.table n slot) k (Memory.table k cb) where
  slot_wf := table_wf _ _
  slot_listed := listed_table _ _
  soft_clear := fun i hi => by rw [readSlot_table _ hi]; exact h i
  cbt_wf := table_wf _ _
  cbt_listed := listed_table _ _

/-- A new ring holds no frame. -/
theorem framesGood_qCreate (cap : BitVec 16) : FramesGood (qCreate cap).mem := nofun

/-- Activating a configuration with good tables in phase B leaves a good state (R175, R180). -/
theorem Inv.activate {s : State} (hi : Inv s) (hw : s.waitpt = .beginFrozen) {nslot ncb : Nat}
    {slot : Memory FilterPair} {cbt : Memory Word} {act : ActCfg} {out : List Action} {rxcap txcap : BitVec 16}
    (ht : TablesWf nslot slot ncb cbt) (hc : CountsWf s.mode s.par act nslot ncb) :
    Inv { s with
      rxq := qCreate rxcap, txq := qCreate txcap, nslot := nslot, slot := slot, ncb := ncb, cbt := cbt, act := act
      out := out, waitpt := .beginUnfrozen } where
  par_wf := hi.par_wf
  life := by
    obtain ⟨hbusy, hwait⟩ := hi.life
    exact ⟨hbusy, by simp [hwait, hw]⟩
  initError := hi.initError
  idle := fun h => by
    have hl := hi.configuring_of_waitpt (by simp [hw])
    simp [hl] at h
  rings := ⟨ringWf_qCreate _, ringWf_qCreate _⟩
  frames := ⟨framesGood_qCreate _, framesGood_qCreate _, hi.rxf_norm⟩
  stage := hi.stage
  pending := nofun
  active := fun _ => ⟨ht, hc⟩

/-- Phase B of BEGIN keeps a state good (R175, R177). -/
theorem inv_beginPhaseB {s : State} (hi : Inv s) (hw : s.waitpt = .beginFrozen) (hm : s.mode = .classic) :
    Inv (beginPhaseB s) := by
  have hv : Valid s.mode s := pendingInv_iff.1 hi.pending hw
  rw [hm] at hv
  obtain ⟨-, -, -, hf⟩ := hv
  obtain ⟨hnp, hns, -, -⟩ := counts_of_filterErrC hf
  simp only [beginPhaseB, unfreeze, emitAll, setAct, fillSlotsC, setTables, createRings, setTxq, setRxq, setLife]
  refine hi.activate hw (tablesWf_table (slotC_soft_clear hf)) ?_
  rw [hm]
  exact ⟨rfl, rfl, hnp, hns⟩

/-- Phase B of BEGINFD keeps a state good (R177, R180). -/
theorem inv_beginFdPhaseB {s : State} (hi : Inv s) (hw : s.waitpt = .beginFrozen) (hm : s.mode = .fd) :
    Inv (beginFdPhaseB s) := by
  have hv : Valid s.mode s := pendingInv_iff.1 hi.pending hw
  rw [hm] at hv
  obtain ⟨-, -, -, -, hr, hf⟩ := hv
  have hM := fdMbTotal_bounds hi.par_wf s.fdPayload
  obtain ⟨hnf, hsoft⟩ := counts_of_filterErrF (by simp only [Config.stageFd]; omega) hf
  have hact : (s.fdRxmb.setWidth 6).toNat = s.fdRxmb.toNat := by
    simp only [BitVec.toNat_setWidth]
    omega
  simp only [beginFdPhaseB, unfreeze, emitAll, setAct, fillSlotsF, setTables, createRings, setTxq, setRxq, setLife]
  refine hi.activate hw (tablesWf_table (slotF_soft_clear hsoft)) ?_
  rw [hm]
  simp only [CountsWf, hact]
  exact ⟨trivial, trivial, hnf, hr⟩

/-- Phase C of BEGIN and BEGINFD keeps a state good: it clears `INIT_ERROR` as it enters `RUNNING` (R175, R180). -/
theorem inv_beginPhaseC {s : State} (hi : Inv s) (hw : s.waitpt = .beginUnfrozen) : Inv (beginPhaseC s) where
  par_wf := hi.par_wf
  life := by simp [LifeInv, beginPhaseC]
  initError := fun h => by simp [beginPhaseC] at h
  idle := fun h => by simp [beginPhaseC] at h
  rings := hi.rings
  frames := hi.frames
  stage := hi.stage
  pending := nofun
  active := fun _ => hi.active (.inr (.inl hw))

/-- Phase B of END keeps a state good: no configuration is active after it (R179, R181). -/
theorem inv_endPhaseB {s : State} (hi : Inv s) : Inv (endPhaseB s) := by
  simp only [endPhaseB, setLife, setAct, setTables, setTxq, setRxq, qDestroy_eq]
  exact
    { par_wf := hi.par_wf, life := by simp [LifeInv], initError := nofun
      idle := fun _ => ⟨rfl, rfl, rfl, rfl, rfl, rfl, rfl⟩, rings := ⟨ringWf_qCreate 0, ringWf_qCreate 0⟩
      frames := ⟨framesGood_qCreate 0, framesGood_qCreate 0, hi.rxf_norm⟩, stage := hi.stage
      pending := nofun, active := nofun }

/-- An acknowledgement keeps a state good, expected or not (R171). -/
theorem inv_takeAck {s : State} (hi : Inv s) (a : Ack) : Inv (takeAck a s) := by
  unfold takeAck
  split
  · rename_i hw
    split
    · rename_i hm
      exact inv_beginPhaseB hi hw hm
    · rename_i hm
      exact inv_beginFdPhaseB hi hw hm
  · rename_i hw
    exact inv_beginPhaseC hi hw
  · exact inv_endPhaseB hi
  all_goals exact hi

/-! ## Moves of the outside -/

/-- The reset state's `RXF` holds a frame in normal form (R43, R51). -/
theorem norm_readFile_zero : norm (readFile FrameFile.zero) = readFile FrameFile.zero := by decide

/-- Settles O12: after reset no configuration is active and every list is empty. -/
theorem resetMeetsInv : Obligations.ResetMeetsInv := fun _ hp =>
  { par_wf := hp
    life := by simp [LifeInv, State.resetWith]
    initError := nofun
    idle := fun _ => ⟨rfl, rfl, rfl, rfl, rfl, rfl, rfl⟩
    rings := ⟨ringWf_qCreate 0, ringWf_qCreate 0⟩
    frames := ⟨framesGood_qCreate 0, framesGood_qCreate 0, norm_readFile_zero⟩
    stage := ⟨stageWf_nil _, stageWf_nil _, stageWf_nil _⟩
    pending := nofun
    active := fun h => by simp [State.resetWith] at h }

/-- A host write to a register other than `CMD` stays within `RunFrame` (R63). -/
theorem runFrame_writeReg (r : HostReg) (v : Word) (s : State) : RunFrame s (writeReg r v s) := by
  cases r <;> (apply RunFrame.of_fields <;> rfl)

theorem writeReg_rings (r : HostReg) (v : Word) (s : State) :
    (writeReg r v s).rxq = s.rxq ∧ (writeReg r v s).txq = s.txq := by
  cases r <;> exact ⟨rfl, rfl⟩

/-- A word written to `CMD` keeps a good state that waits for nothing good (R26, R103). -/
theorem inv_issue {w : Word} {s t : State} (hi : Inv s) (hw : s.waitpt = .none) (h : issue w s = .next t) :
    Inv t := by
  unfold issue at h
  split at h
  · obtain rfl := Host.Outcome.next.inj h
    exact hi.refuse hw _
  · exact inv_exec hi hw h

/-- A host write keeps a state good (R63). -/
theorem inv_hostWrite {addr size : Nat} {v : Word} {s t : State} (hi : Inv s) (h : hostWrite addr size v s = .next t) :
    Inv t := by
  unfold hostWrite at h
  split at h
  · exact Host.Outcome.next.inj h ▸ hi
  · rename_i hb
    have hw := hi.waitpt_of_not_busy (by simpa using hb)
    split at h
    · exact Host.Outcome.next.inj h ▸ hi
    · exact inv_issue hi hw h
    · obtain rfl := Host.Outcome.next.inj h
      exact hi.of_runFrame hw (runFrame_writeReg _ _ _) fun _ => writeReg_rings _ _ _

/-- A turn of the interrupt agent keeps a state good (R212). -/
theorem inv_handlerTurn {s t : State} (hi : Inv s) (h : handlerTurn s = .next t) : Inv t := by
  by_cases hl : s.life = .running
  · have hw := hi.waitpt_of_running hl
    unfold handlerTurn at h
    split at h <;> exact inv_exec hi hw h
  · have ht : t = s := by
      unfold handlerTurn at h
      split at h <;> simpa [exec, execIsrc, execIsrFd, hl] using h.symm
    exact ht ▸ hi

/-- Whatever the outside does keeps a state good. -/
theorem inv_takeInput {e : Input} {s t : State} (hi : Inv s) (h : takeInput e s = .next t) : Inv t := by
  cases e with
  | busWrite addr size v => exact inv_hostWrite hi h
  | busRead addr size => exact Host.Outcome.next.inj h ▸ hi.outside _ _ _
  | irq => exact inv_handlerTurn hi h
  | ack what => exact Host.Outcome.next.inj h ▸ inv_takeAck hi what
  | reset => exact Host.Outcome.next.inj h ▸ (resetMeetsInv s.par hi.par_wf).outside _ _ _

/-- Settles O13, by cases on the next move of the outside. -/
theorem stepKeepsInv : Obligations.StepKeepsInv := by
  intro s t hi h
  cases hs : s.inputs with
  | nil =>
    simp only [step, hs, Host.Outcome.next.injEq] at h
    exact h ▸ hi
  | cons e rest =>
    rw [step_cons hs] at h
    exact inv_takeInput (hi.outside rest s.port s.busData) h

theorem Reachable.inv {s : State} (h : Reachable s) : Inv s := by
  induction h with
  | reset p hp => exact resetMeetsInv p hp
  | outside s inputs port _ ih => exact ih.outside inputs port s.busData
  | step s t _ h ih => exact stepKeepsInv s t ih h

/-- Settles O14, by induction on the run. -/
theorem reachableStatesAreGood : Obligations.ReachableStatesAreGood := fun _ h => ⟨h.inv, h.inv.initError⟩

/-- Settles O4: the host write to `CMD` issues the word, which decodes. -/
theorem stepIssuesCommand : Obligations.StepIssuesCommand := by
  refine ⟨fun s w i rest hb hs hd => ?_, fun s => rfl⟩
  rw [step_cons hs]
  have hissue : hostWrite _ 4 w { s with inputs := rest } = issue w { s with inputs := rest } := hostWrite_cmd w hb
  simp only [takeInput, commandWrite, hissue, issue, hd]

/-! ## Register files and the normal form (R40, R41, R43, R44) -/

/-- The bytes `norm` keeps are those `beyondPayload` does not name. -/
theorem beyondPayload_iff (f : Frame) (j : Fin 64) : beyondPayload f.kind f.len j ↔ payLen f ≤ j.val := by
  unfold beyondPayload payLen
  split <;> simp [*]

theorem norm_data_beyond {f : Frame} {j : Fin 64} (h : beyondPayload f.kind f.len j) : (norm f).data[j] = 0 := by
  rw [norm_data, if_neg (by have := (beyondPayload_iff f j).1 h; omega)]

theorem norm_data_within {f : Frame} {j : Fin 64} (h : ¬ beyondPayload f.kind f.len j) :
    (norm f).data[j] = f.data[j] := by
  rw [norm_data, if_pos (by rw [beyondPayload_iff] at h; omega)]

/-- A frame is in normal form exactly when its bytes beyond the payload are 0. -/
theorem norm_eq_self_iff (f : Frame) :
    norm f = f ↔ ∀ j : Fin 64, beyondPayload f.kind f.len j → f.data[j] = 0 := by
  constructor
  · intro h j hj
    rw [← h]
    exact norm_data_beyond hj
  · intro h
    exact norm_eq_self fun j hj => h j ((beyondPayload_iff f j).2 hj)

/-- `WriteRXF` stores the whole frame (R44). -/
theorem holds_fileOf (f : Frame) : Holds (fileOf f) f := by
  refine ⟨rfl, rfl, rfl, rfl, rfl, fun j => ?_⟩
  have h : (readFile (fileOf f)).data[j] = f.data[j] := by rw [readFile_fileOf]
  rwa [readFile_data] at h

/-- Settles O53, from the byte lemmas of the register files and of the normal form. -/
theorem registerFileFrames : Obligations.RegisterFileFrames :=
  ⟨fun t => ⟨rfl, rfl, rfl, rfl, rfl, readFile_data t⟩,
    fun f _ => ⟨fileOf f, rfl, holds_fileOf f⟩,
    fun f => ⟨norm_id f, norm_ext f, norm_kind f, norm_len f, norm_idx f,
      fun _ => ⟨norm_data_beyond, norm_data_within⟩⟩,
    norm_eq_self_iff⟩

end Sys2Proof.Machine

/-! The statements of the memory file: frame images, host accesses, rings, the output trace and the instances of a
system. -/

namespace Sys2Proof.Machine

/-! ## The image `Pack` makes (R72 to R74) -/

theorem classicKind_eq_false {k : FrameKind} : classicKind k = false ↔ k = .fdNoBrs ∨ k = .fdBrs := by
  cases k <;> simp [classicKind]

theorem bitOfFormat_eq_true {e : Format} : bitOfFormat e = true ↔ e = .ext := by
  cases e <;> simp [bitOfFormat]

theorem formatOfBit_eq_ext {b : Bool} : formatOfBit b = .ext ↔ b = true := by
  cases b <;> simp [formatOfBit]

theorem formatOfBit_bitOfFormat (e : Format) : formatOfBit (bitOfFormat e) = e := by cases e <;> rfl

/-- Bits 27:24 of the control word hold the code `0xC` (R72). -/
theorem getLsbD_transmitCode (n : Nat) : (0xC#32 <<< 24).getLsbD n = decide (n = 26 ∨ n = 27) := by
  by_cases hn : n < 32
  · exact (show ∀ n, n < 32 → (0xC#32 <<< 24).getLsbD n = decide (n = 26 ∨ n = 27) by decide) n hn
  · rw [BitVec.getLsbD_of_ge _ _ (by omega), eq_comm, decide_eq_false_iff_not]
    omega

/-- Bits 19:16 of the control word hold the length code (R72). -/
theorem getLsbD_lengthField (c : BitVec 4) (n : Nat) :
    (c.setWidth 32 <<< 16).getLsbD n = (decide (16 ≤ n ∧ n < 20) && c.getLsbD (n - 16)) := by
  by_cases hn : 16 ≤ n ∧ n < 20
  · simp [hn, show n < 32 by omega]
  · by_cases h16 : n < 16
    · simp [h16, hn]
    · simp [hn, BitVec.getLsbD_of_ge c (n - 16) (by omega)]

/-- Every bit of the control word of an image (R72). -/
theorem getLsbD_packCs (f : Frame) (n : Nat) :
    (packCs f).getLsbD n
      = ((decide (n = 31) && !classicKind f.kind) || (decide (n = 30) && f.kind == .fdBrs)
        || decide (n = 26 ∨ n = 27) || (decide (n = 22) && bitOfFormat f.ext)
        || (decide (n = 21) && bitOfFormat f.ext) || (decide (n = 20) && f.kind == .remote)
        || (decide (16 ≤ n ∧ n < 20) && (codeOfLen f.len).getLsbD (n - 16))) := by
  simp (disch := decide) only [packCs, BitVec.getLsbD_or, getLsbD_bitAt, getLsbD_transmitCode, getLsbD_lengthField]

theorem packCs_edl (f : Frame) : (packCs f).getLsbD 31 = !classicKind f.kind := by rw [getLsbD_packCs]; simp
theorem packCs_brs (f : Frame) : (packCs f).getLsbD 30 = (f.kind == .fdBrs) := by rw [getLsbD_packCs]; simp
theorem packCs_ide (f : Frame) : (packCs f).getLsbD 21 = bitOfFormat f.ext := by rw [getLsbD_packCs]; simp
theorem packCs_rtr (f : Frame) : (packCs f).getLsbD 20 = (f.kind == .remote) := by rw [getLsbD_packCs]; simp

/-- The length field of the control word is the code of the length (R72). -/
theorem packCs_code (f : Frame) : (packCs f).extractLsb' 16 4 = codeOfLen f.len := by
  refine BitVec.eq_of_getLsbD_eq fun i hi => ?_
  rw [BitVec.getLsbD_extractLsb', getLsbD_packCs]
  have hne : ∀ k, 20 ≤ k → 16 + i ≠ k := by omega
  simp [hi, hne, show 16 + i < 20 by omega]

/-- The bits the control word of an image has outside its length field (R72). -/
theorem controlBit_iff (f : Frame) (n : Nat) :
    controlBit f n ↔ (n = 31 ∧ (f.kind = .fdNoBrs ∨ f.kind = .fdBrs)) ∨ (n = 30 ∧ f.kind = .fdBrs)
      ∨ (n = 26 ∨ n = 27) ∨ (n = 22 ∧ f.ext = .ext) ∨ (n = 21 ∧ f.ext = .ext) ∨ (n = 20 ∧ f.kind = .remote) := by
  unfold controlBit
  split <;> simp_all

/-- Outside the length field the control word has the bits of R72. -/
theorem packCs_controlBit (f : Frame) {n : Nat} (h : n < 16 ∨ 20 ≤ n) :
    (packCs f).getLsbD n = true ↔ controlBit f n := by
  have hn : ¬ (16 ≤ n ∧ n < 20) := by omega
  simp [getLsbD_packCs, hn, controlBit_iff, classicKind_eq_false, bitOfFormat_eq_true, or_assoc]

theorem packIdw_ext {f : Frame} (h : f.ext = .ext) : packIdw f = f.id.setWidth 32 := by simp only [packIdw, h]

theorem packIdw_std {f : Frame} (h : f.ext = .std) : packIdw f = f.id.setWidth 32 <<< 18 := by simp only [packIdw, h]

theorem packIdw_ext_toNat {f : Frame} (h : f.ext = .ext) : (packIdw f).toNat = f.id.toNat := by
  rw [packIdw_ext h, BitVec.toNat_setWidth]
  omega

/-- A standard identifier stands in bits 28:18 (R73). -/
theorem packIdw_std_toNat {f : Frame} (h : f.ext = .std) (hid : f.id.toNat ≤ 0x7FF) :
    (packIdw f).toNat = f.id.toNat * 2 ^ 18 := by
  rw [packIdw_std h, BitVec.toNat_shiftLeft, BitVec.toNat_setWidth, Nat.shiftLeft_eq]
  omega

/-- Swapping the bytes of a word twice gives the word (R71). -/
theorem bswap_bswap (w : Word) : bswap (bswap w) = w := by
  have hbytes : w.extractLsb' 24 8 ++ w.extractLsb' 16 8 ++ w.extractLsb' 8 8 ++ w.extractLsb' 0 8 = w := by
    rw [BitVec.extractLsb'_append_extractLsb'_eq_extractLsb' (show 24 = 16 + 8 from rfl),
      BitVec.extractLsb'_append_extractLsb'_eq_extractLsb' (show 16 = 8 + 8 from rfl),
      BitVec.extractLsb'_append_extractLsb'_eq_extractLsb' (show 8 = 0 + 8 from rfl)]
    exact BitVec.extractLsb'_eq_self
  exact (bswap_append _ _ _ _).trans hbytes

theorem lengthOfCode_eq_lenSet : lengthOfCode = lenSet := rfl

/-- The code `Pack` writes stands for the length in the table of R74. -/
theorem lengthOfCode_codeOfLen {l : BitVec 7} (h : l.toNat ∈ lengthOfCode) :
    lengthOfCode[(codeOfLen l).toNat]? = some l.toNat := by
  have hl : lenOfCode (codeOfLen l) = l := lenOfCode_codeOfLen (List.contains_iff_mem.2 h)
  rw [lengthOfCode_eq_lenSet, lenSet_getElem, hl]

/-- Settles O54, from the bits of the control word and the bytes of a port word. -/
theorem frameImageLayout : Obligations.FrameImageLayout := by
  refine ⟨fun f n _ h => packCs_controlBit f h, fun f h => ?_, fun f => packIdw_ext_toNat, fun f => packIdw_std_toNat,
    fun f j => ?_, fun f k => (bswap_hostWord f k).symm, bswap_bswap, fun _ _ => rfl, by decide⟩
  · rw [packCs_code, lengthOfCode_codeOfLen h]
  · have hj : frameByte f j.val = f.data[j] := frameByte_of_lt f j.isLt
    exact ⟨(portByte_portWord f j).trans hj, (hostByte_hostWord f j).trans hj⟩

/-! ## The frame `Unpack` reads (R74) -/

/-- Byte `j` of an image's data words, 0 where the image has no word (R71, R74). -/
def imageByte (dw : List Word) (j : Nat) : Byte :=
  match dw[j / 4]? with
  | some w => portByte w j
  | none => 0

/-- The frame of an image before its bytes beyond the payload are cleared (R74). -/
def imageFrame (m : Mode) (cs idw : Word) (dw : List Word) : Frame where
  id := if cs.getLsbD 21 then idw.extractLsb' 0 29 else (idw.extractLsb' 18 11).setWidth 29
  ext := formatOfBit (cs.getLsbD 21)
  kind := unpackKind m cs
  len := unpackLen m cs
  data := Vector.ofFn fun j : Fin 64 => imageByte dw j.val
  idx := 0

/-- `Unpack` gives the normal form of the image's frame (R43, R74). -/
theorem unpack_eq_norm (m : Mode) (cs idw : Word) (dw : List Word) :
    unpack m cs idw dw = norm (imageFrame m cs idw dw) := rfl

theorem imageFrame_data (m : Mode) (cs idw : Word) (dw : List Word) (j : Fin 64) :
    (imageFrame m cs idw dw).data[j] = imageByte dw j.val := by simp [imageFrame]

/-- Whether `Unpack` reads an FD frame: `EDL` counts in FD mode only (R72, R74). -/
def readsFd (m : Mode) (cs : Word) : Prop := m = .fd ∧ cs.getLsbD 31 = true

/-- The kind `Unpack` reads from the control word of an FD frame. -/
theorem unpackKind_fd {m : Mode} {cs : Word} (h : readsFd m cs) :
    unpackKind m cs = if cs.getLsbD 30 then .fdBrs else .fdNoBrs := by
  obtain ⟨rfl, h31⟩ := h
  simp only [unpackKind, h31]
  cases cs.getLsbD 30 <;> rfl

/-- The kind `Unpack` reads from the control word of another frame. -/
theorem unpackKind_classic {m : Mode} {cs : Word} (h : ¬ readsFd m cs) :
    unpackKind m cs = if cs.getLsbD 20 then .remote else .data := by
  unfold readsFd at h
  simp only [unpackKind]
  rw [if_neg (by simp; tauto), if_neg (by simpa using h)]

/-- The length `Unpack` reads from the control word of an FD frame. -/
theorem unpackLen_fd {m : Mode} {cs : Word} (h : readsFd m cs) :
    unpackLen m cs = lenOfCode (cs.extractLsb' 16 4) := by
  obtain ⟨rfl, h31⟩ := h
  simp [unpackLen, h31]

/-- The length `Unpack` reads from the control word of another frame: a code above 8 reads 8. -/
theorem unpackLen_classic {m : Mode} {cs : Word} (h : ¬ readsFd m cs) :
    (unpackLen m cs).toNat = min (cs.extractLsb' 16 4).toNat 8 := by
  unfold readsFd at h
  simp only [unpackLen]
  rw [if_neg (by simpa using h), BitVec.toNat_ofNat]
  omega

/-- The identifier `Unpack` reads, as a number (R73). -/
theorem imageFrame_id_toNat (m : Mode) (cs idw : Word) (dw : List Word) : (imageFrame m cs idw dw).id.toNat
    = if cs.getLsbD 21 = true then idw.toNat % 2 ^ 29 else idw.toNat / 2 ^ 18 % 2 ^ 11 := by
  simp only [imageFrame]
  split
  · simp
  · simp [Nat.shiftRight_eq_div_pow]
    omega

/-- Which kind `Unpack` reads from which control word (R74). -/
theorem unpackKind_iff (m : Mode) (cs : Word) :
    (unpackKind m cs = .fdBrs ↔ readsFd m cs ∧ cs.getLsbD 30 = true)
      ∧ (unpackKind m cs = .fdNoBrs ↔ readsFd m cs ∧ cs.getLsbD 30 = false)
      ∧ (unpackKind m cs = .remote ↔ ¬ readsFd m cs ∧ cs.getLsbD 20 = true)
      ∧ (unpackKind m cs = .data ↔ ¬ readsFd m cs ∧ cs.getLsbD 20 = false) := by
  by_cases h : readsFd m cs
  · rw [unpackKind_fd h]
    cases cs.getLsbD 30 <;> simp [h]
  · rw [unpackKind_classic h]
    cases cs.getLsbD 20 <;> simp [h]

/-- Settles O55: the fields of the image's frame, and its bytes in normal form. -/
theorem unpackReadsImage : Obligations.UnpackReadsImage := by
  intro m cs idw dw
  obtain ⟨hbrs, hnoBrs, hremote, hdata⟩ := unpackKind_iff m cs
  refine ⟨formatOfBit_eq_ext, imageFrame_id_toNat m cs idw dw, hbrs, hnoBrs, hremote, hdata, fun h => ?_,
    unpackLen_classic, rfl, fun j => ⟨fun h => ?_, fun h => ?_⟩⟩
  · rw [unpack_len, unpackLen_fd h]
    exact lenSet_getElem _
  · rw [unpack_eq_norm]
    exact norm_data_beyond (f := imageFrame m cs idw dw) h
  · rw [unpack_eq_norm, norm_data_within (f := imageFrame m cs idw dw) h, imageFrame_data]
    rfl

/-! ## Round trip (R72 to R74) -/

/-- The image of a frame reads as an FD frame exactly when the frame is one; only FD mode sends those. -/
theorem readsFd_packCs {m : Mode} {f : Frame} (h : m = .classic → classicKind f.kind = true) :
    readsFd m (packCs f) ↔ classicKind f.kind = false := by
  rw [readsFd, packCs_edl]
  cases m <;> simp_all

/-- `Unpack` reads the kind `Pack` wrote. -/
theorem unpackKind_packCs {m : Mode} {f : Frame} (h : m = .classic → classicKind f.kind = true) :
    unpackKind m (packCs f) = f.kind := by
  have hfd := readsFd_packCs h
  cases hk : f.kind
  case data | remote =>
    rw [unpackKind_classic (by simp [hfd, hk, classicKind]), packCs_rtr, hk]
    rfl
  case fdNoBrs | fdBrs =>
    rw [unpackKind_fd (by simp [hfd, hk, classicKind]), packCs_brs, hk]
    rfl

/-- A length of at most 8 is its own code (R74). -/
theorem codeOfLen_toNat_of_le {l : BitVec 7} (h : l.toNat ≤ 8) : (codeOfLen l).toNat = l.toNat := by
  simp only [codeOfLen, h, if_true, BitVec.toNat_ofNat]
  omega

/-- `Unpack` reads the length `Pack` wrote. -/
theorem unpackLen_packCs {m : Mode} {f : Frame} (hf : fdOk f = true) (h : m = .classic → classicKind f.kind = true) :
    unpackLen m (packCs f) = f.len := by
  obtain ⟨-, hlen, hclassic⟩ := (fdOk_iff f).1 hf
  have hfd := readsFd_packCs h
  cases hk : classicKind f.kind
  · rw [unpackLen_fd (hfd.2 hk), packCs_code, lenOfCode_codeOfLen hlen]
  · have h8 := hclassic hk
    apply BitVec.eq_of_toNat_eq
    rw [unpackLen_classic (by simp [hfd, hk]), packCs_code, codeOfLen_toNat_of_le h8, min_eq_left h8]

/-- `Unpack` reads the identifier `Pack` wrote (R73). -/
theorem imageFrame_id_pack (m : Mode) {f : Frame} (dw : List Word) (hf : idOk f = true) :
    (imageFrame m (packCs f) (packIdw f) dw).id = f.id := by
  have hlt := f.id.isLt
  apply BitVec.eq_of_toNat_eq
  rw [imageFrame_id_toNat, packCs_ide]
  cases he : f.ext
  · have hid := (idOk_iff f).1 hf he
    rw [packIdw_std_toNat he hid, if_neg (by decide)]
    omega
  · rw [packIdw_ext_toNat he, if_pos (by decide)]
    omega

/-- The data words of an image hold the frame's bytes (R71). -/
theorem imageByte_packDw (f : Frame) {n : Nat} {j : Fin 64} (h : j.val < 4 * n) :
    imageByte (packDw n f) j.val = f.data[j] := by
  have hword : (packDw n f)[j.val / 4]? = some (portWord f (j.val / 4)) := by
    simp [packDw, show j.val / 4 < n by omega]
  simp only [imageByte, hword, portByte_portWord]
  exact frameByte_of_lt f j.isLt

/-- A frame a mode can send is well formed, of a kind of that mode, and no longer than its images (R42, R72). -/
theorem sendable_fits {m : Mode} {payload : BitVec 2} {f : Frame} (hc : m = .classic → classicOk f = true)
    (hf : m = .fd → fdOk f = true ∧ f.len.toNat ≤ payloadBytes payload) :
    fdOk f = true ∧ (m = .classic → classicKind f.kind = true) ∧ f.len.toNat ≤ 4 * imageWords m payload := by
  cases m
  · obtain ⟨-, hkind, hlen⟩ := (classicOk_iff f).1 (hc rfl)
    exact ⟨fdOk_of_classicOk (hc rfl), fun _ => hkind, hlen⟩
  · obtain ⟨hok, hlen⟩ := hf rfl
    have hwords : ∀ p : BitVec 2, 4 * imageWords .fd p = payloadBytes p := by decide
    exact ⟨hok, nofun, by rwa [hwords]⟩

theorem payLen_le (f : Frame) : payLen f ≤ f.len.toNat := by
  unfold payLen
  split <;> omega

/-- Settles O52: the frame of the image agrees with the packed frame in every field and in every byte of its payload. -/
theorem packUnpackRoundTrip : Obligations.PackUnpackRoundTrip := by
  intro m payload f hnorm hidx hc hf
  obtain ⟨hok, hkind, hlen⟩ := sendable_fits hc hf
  obtain ⟨hid, -, -⟩ := (fdOk_iff f).1 hok
  rw [unpack_eq_norm]
  conv_rhs => rw [← hnorm]
  refine (norm_congr (imageFrame_id_pack m _ hid).symm ?_ (unpackKind_packCs hkind).symm
    (unpackLen_packCs hok hkind).symm hidx fun j hj => ?_).symm
  · show f.ext = formatOfBit ((packCs f).getLsbD 21)
    rw [packCs_ide, formatOfBit_bitOfFormat]
  · have hpay := payLen_le f
    rw [imageFrame_data, imageByte_packDw f (by omega)]

/-! ## Host accesses (R61 to R63) -/

/-- Settles O6: the host write finds `BUSY` set. -/
theorem busyIgnoresHostWrites : Obligations.BusyIgnoresHostWrites := by
  intro s addr size v rest hbusy hs
  rw [step_cons hs]
  exact if_pos hbusy

theorem regOffset_bounds (r : HostReg) : regOffset r % 4 = 0 ∧ regOffset r < 0x200 := by
  cases r
  case txfD k | rxfD k => simp only [regOffset]; omega
  all_goals decide

/-- Settles O7, from the register an access reaches and the table of offsets. -/
theorem registerMap : Obligations.RegisterMap :=
  ⟨fun _ _ _ _ => busReg_eq_some, regOffset_bounds, rfl, rfl, rfl, rfl, fun _ => ⟨rfl, rfl⟩⟩

/-- An access the bus interface refuses reaches no register (R62). -/
theorem busReg_eq_none {p : Params} {addr size : Nat}
    (h : ∀ r : HostReg, ¬ (size = 4 ∧ addr = p.seaBase + regOffset r)) : busReg p addr size = none :=
  Option.eq_none_iff_forall_ne_some.2 fun r hr => h r (busReg_eq_some.1 hr)

/-! ## The fields of a register word (R21, R26 to R31, R36 to R41) -/

section Fields

open BitVec (extractLsb'_append_eq_left extractLsb'_append_eq_right)

/-- A field of a word with one more field below it stands that much higher. -/
theorem extract_high {m n i k : Nat} {x : BitVec m} {y : BitVec n} {f : BitVec k} (h : x.extractLsb' i k = f) :
    (x ++ y).extractLsb' (i + n) k = f := by
  rw [BitVec.extractLsb'_append_eq_of_le (by omega), Nat.add_sub_cancel, h]

/-- A one-bit field of a word. -/
theorem getLsbD_of_extract {n i : Nat} {w : BitVec n} {b : Bool} (h : w.extractLsb' i 1 = BitVec.ofBool b) :
    w.getLsbD i = b := by
  rw [BitVec.getLsbD_eq_extractLsb', h]
  cases b <;> rfl

/-- The bits of a word above its only field are 0. -/
theorem extract_setWidth_high {m i k : Nat} (x : BitVec m) (h : m ≤ i) :
    (x.setWidth 32).extractLsb' i k = 0 := by
  refine BitVec.eq_of_getLsbD_eq fun j hj => ?_
  simp [BitVec.getLsbD_of_ge x (i + j) (by omega)]

theorem kindCode_toNat (k : FrameKind) : (kindCode k).toNat = kindNumber k := by cases k <;> rfl

theorem modeBit_eq_true {m : Mode} : modeBit m = true ↔ m = .fd := by cases m <;> simp [modeBit]

/-- The `CTL` word shows the fields of its register file (R40). -/
theorem showsCtl_ctlWord (t : FrameFile) : ShowsCtl t (ctlWord t) := by
  have hext : (ctlWord t).getLsbD 0 = bitOfFormat t.ext := getLsbD_of_extract extractLsb'_append_eq_right
  have hkind : (ctlWord t).extractLsb' 1 2 = kindCode t.kind := extract_high extractLsb'_append_eq_right
  have hlow : (ctlWord t).extractLsb' 3 5 = 0 := extract_high (extract_high extractLsb'_append_eq_right)
  have hlen : (ctlWord t).extractLsb' 8 7 = t.len :=
    extract_high (extract_high (extract_high extractLsb'_append_eq_right))
  have hgap : (ctlWord t).getLsbD 15 = false :=
    getLsbD_of_extract (extract_high (extract_high (extract_high (extract_high extractLsb'_append_eq_right))))
  have hidx : (ctlWord t).extractLsb' 16 8 = t.idx :=
    extract_high (extract_high (extract_high (extract_high (extract_high extractLsb'_append_eq_right))))
  have htop : (ctlWord t).extractLsb' 24 8 = 0 :=
    extract_high (extract_high (extract_high (extract_high (extract_high extractLsb'_append_eq_left))))
  refine ⟨?_, ?_, hlow, hlen, hgap, hidx, htop⟩
  · rw [hext, bitOfFormat_eq_true]
  · rw [hkind, kindCode_toNat]

/-- `CMDSTAT` shows its fields (R27). -/
theorem showsFields_cmdstat (s : State) : ShowsFields .cmdstat s (cmdstatWord s) := by
  have hlife : (cmdstatWord s).extractLsb' 0 2 = lifeCode s.life := extractLsb'_append_eq_right
  have hmode : (cmdstatWord s).getLsbD 2 = modeBit s.mode :=
    getLsbD_of_extract (extract_high extractLsb'_append_eq_right)
  have hbusy : (cmdstatWord s).getLsbD 3 = s.busy :=
    getLsbD_of_extract (extract_high (extract_high extractLsb'_append_eq_right))
  have herr : (cmdstatWord s).extractLsb' 4 4 = errCodeNum s.err :=
    extract_high (extract_high (extract_high extractLsb'_append_eq_right))
  have hwait : (cmdstatWord s).extractLsb' 8 2 = waitCode s.waitpt :=
    extract_high (extract_high (extract_high (extract_high extractLsb'_append_eq_right)))
  have htop : (cmdstatWord s).extractLsb' 10 22 = 0 :=
    extract_high (extract_high (extract_high (extract_high extractLsb'_append_eq_left)))
  refine ⟨?_, ?_, hbusy, ?_, ?_, htop⟩
  · rw [hlife]
    cases s.life <;> rfl
  · rw [hmode, modeBit_eq_true]
  · rw [herr]
    cases s.err <;> rfl
  · rw [hwait]
    cases s.waitpt <;> rfl

/-- Every register's word shows its fields (R21, R26 to R31, R36 to R41). -/
theorem showsFields_readReg (r : HostReg) (s : State) : ShowsFields r s (readReg r s) := by
  cases r
  case tBrp | tProp | tPs1 | tPs2 | tRjw | tDiv | tFactor | tdProp | tdPs1 | tdPs2 | tdRjw | txfId | rxfId | rxqPeak
      | txqPeak =>
    exact BitVec.toNat_setWidth_of_le (by decide)
  case txfCtl | rxfCtl => exact showsCtl_ctlWord _
  case cmdstat => exact showsFields_cmdstat s
  case gstat =>
    exact ⟨(BitVec.extractLsb'_setWidth_of_le (by decide)).trans BitVec.extractLsb'_eq_self,
      extract_setWidth_high _ (by decide)⟩
  case tFlags =>
    refine ⟨?_, ?_, ?_, extract_setWidth_high _ (by decide)⟩ <;> exact BitVec.getLsbD_setWidth ..
  case fcount => exact ⟨extract_append0 .., extract_append1 .., extract_append2 .., extract_append3 ..⟩
  case qCfg | rxqStat | txqStat => exact ⟨extractLsb'_append_eq_right, extractLsb'_append_eq_left⟩
  case pinCfg =>
    exact ⟨extractLsb'_append_eq_right, extract_high extractLsb'_append_eq_right,
      extract_high extractLsb'_append_eq_left⟩
  case fdCfg =>
    exact ⟨extractLsb'_append_eq_right, extract_high extractLsb'_append_eq_right,
      extract_high (extract_high extractLsb'_append_eq_right), extract_high (extract_high extractLsb'_append_eq_left)⟩
  case actCfg =>
    exact ⟨extractLsb'_append_eq_right, extract_high extractLsb'_append_eq_right,
      extract_high (extract_high extractLsb'_append_eq_right),
      extract_high (extract_high (extract_high extractLsb'_append_eq_right)),
      extract_high (extract_high (extract_high extractLsb'_append_eq_left))⟩
  all_goals rfl

end Fields

/-- A host access at a register's offset reaches that register (R61). -/
theorem busReg_regOffset (p : Params) (r : HostReg) : busReg p (p.seaBase + regOffset r) 4 = some r :=
  busReg_eq_some.2 ⟨rfl, rfl⟩

/-- A host read of a register gives its word (R63). -/
theorem busRead_reg (r : HostReg) (s : State) : busRead (s.par.seaBase + regOffset r) 4 s = readReg r s := by
  simp only [busRead, busReg_regOffset]

/-- A write the bus interface refuses changes nothing (R62). -/
theorem hostWrite_of_no_reg {addr size : Nat} (v : Word) {s : State} (h : busReg s.par addr size = none) :
    hostWrite addr size v s = .next s := by
  simp only [hostWrite, h, ite_self]

/-- A read the bus interface refuses gives 0 (R62). -/
theorem busRead_of_no_reg {addr size : Nat} {s : State} (h : busReg s.par addr size = none) :
    busRead addr size s = 0 := by
  simp only [busRead, h]

theorem step_busRead {s : State} {addr size : Nat} {rest : List Input} (h : s.inputs = .busRead addr size :: rest) :
    step s = .next { s with inputs := rest, busData := busRead addr size s } := by
  rw [step_cons h]
  rfl

/-- Settles O9, from what each register's word shows and from the accesses that reach no register. -/
theorem hostReadsAndBadAccesses : Obligations.HostReadsAndBadAccesses := by
  refine ⟨fun s r rest hs => ?_, fun s r => showsFields_readReg r s, fun s addr size v rest hbad => ?_⟩
  · rw [step_busRead hs, busRead_reg]
  · have hnone := busReg_eq_none hbad
    refine ⟨fun hs => ?_, fun hs => ?_⟩
    · rw [step_cons hs]
      exact hostWrite_of_no_reg v hnone
    · rw [step_busRead hs, busRead_of_no_reg hnone]

/-! ## What a register write stores (R63) -/

theorem and_allBits (v : Word) : v &&& 0xFFFFFFFF = v := BitVec.and_allOnes

/-- The fields of `FD_CFG` are the word's defined bits (R37). -/
theorem fdCfgFields_eq_and (v : Word) :
    0#16 ++ v.extractLsb' 8 8 ++ 0#6 ++ v.extractLsb' 0 2 = v &&& 0x0000FF03 := by
  have hm : ∀ i, i < 32 → (0x0000FF03 : Word).getLsbD i = decide (i < 2 ∨ 8 ≤ i ∧ i < 16) := by decide
  refine BitVec.eq_of_getLsbD_eq fun i hi => ?_
  rw [BitVec.getLsbD_and, hm i hi]
  simp only [BitVec.getLsbD_append, BitVec.getLsbD_extractLsb']
  grind

/-- The fields of `PIN_CFG` are the word's defined bits (R38). -/
theorem pinCfgFields_eq_and (v : Word) : 0#16 ++ v.extractLsb' 8 8 ++ v.extractLsb' 0 8 = v &&& 0x0000FFFF := by
  have hm : ∀ i, i < 32 → (0x0000FFFF : Word).getLsbD i = decide (i < 16) := by decide
  refine BitVec.eq_of_getLsbD_eq fun i hi => ?_
  rw [BitVec.getLsbD_and, hm i hi]
  simp only [BitVec.getLsbD_append, BitVec.getLsbD_extractLsb']
  grind

/-- `CTL` of a written register file is the word cut to the defined bits (R40). -/
theorem ctlWord_writeCtl (v : Word) (t : FrameFile) : ctlWord (writeCtl v t) = v &&& 0x00FF7F07 := by
  have hm : ∀ i, i < 32 → (0x00FF7F07 : Word).getLsbD i = decide (i < 3 ∨ 8 ≤ i ∧ i < 15 ∨ 16 ≤ i ∧ i < 24) := by
    decide
  refine BitVec.eq_of_getLsbD_eq fun i hi => ?_
  rw [BitVec.getLsbD_and, hm i hi]
  simp only [ctlWord, writeCtl, kindCode_kindOfCode, bitOfFormat_formatOfBit, BitVec.getLsbD_append,
    BitVec.getLsbD_extractLsb', BitVec.getLsbD_ofBool]
  grind

/-- A read-write register reads the written value cut to its defined bits (R63). -/
theorem readReg_writeReg_same {r : HostReg} {m : Word} (h : definedBits r = some m) (v : Word) (s : State) :
    readReg r (writeReg r v s) = v &&& m := by
  cases r <;> cases h
  case a0 | a1 | a2 | a3 | a4 | tRate | tClk => exact (and_allBits v).symm
  case txfD k => exact (Vector.getElem_set_self ..).trans (and_allBits v).symm
  case txfCtl => exact ctlWord_writeCtl v s.txf
  case qCfg => exact BitVec.extractLsb'_append_extractLsb'.trans (and_allBits v).symm
  case fdCfg => exact fdCfgFields_eq_and v
  case pinCfg => exact pinCfgFields_eq_and v
  case tBrp => exact setWidth_setWidth_eq_and v 16 _ (by decide)
  case tFlags => exact setWidth_setWidth_eq_and v 3 _ (by decide)
  case tFactor => exact setWidth_setWidth_eq_and v 4 _ (by decide)
  case txfId => exact setWidth_setWidth_eq_and v 29 _ (by decide)
  all_goals exact setWidth_setWidth_eq_and v 8 _ (by decide)

/-- Distinct registers share no bit: a write to one leaves what the other reads (R61, R63). -/
theorem readReg_writeReg_other {r r' : HostReg} (h : r' ≠ r) (v : Word) (s : State) :
    readReg r' (writeReg r v s) = readReg r' s := by
  cases r
  case txfD k =>
    cases r'
    case txfD k' =>
      have hk : k.val ≠ k'.val := fun hk => h (congrArg _ (Fin.ext hk.symm))
      exact Vector.getElem_set_ne k.isLt k'.isLt hk
    all_goals rfl
  all_goals
    cases r' <;> try contradiction
    all_goals rfl

/-- A write changes read-write registers only (R63). -/
theorem writeReg_frame (r : HostReg) (v : Word) (s : State) :
    writeReg r v s = { s with
      a0 := (writeReg r v s).a0, a1 := (writeReg r v s).a1, a2 := (writeReg r v s).a2, a3 := (writeReg r v s).a3
      a4 := (writeReg r v s).a4, timing := (writeReg r v s).timing, rxcap := (writeReg r v s).rxcap
      txcap := (writeReg r v s).txcap, fdPayload := (writeReg r v s).fdPayload, fdRxmb := (writeReg r v s).fdRxmb
      txpin := (writeReg r v s).txpin, rxpin := (writeReg r v s).rxpin, txf := (writeReg r v s).txf } := by
  cases r <;> rfl

/-- A write to a read-only register is ignored (R63). -/
theorem writeReg_readOnly {r : HostReg} (h : definedBits r = none) (v : Word) (s : State) : writeReg r v s = s := by
  cases r
  case cmd | cmdstat | gstat | fcount | actCfg | r0 | r1 | rxqStat | rxqPeak | txqStat | txqPeak | rxfId | rxfCtl
      | rxfD =>
    rfl
  all_goals cases h

/-- Settles O8, from what a write stores, what it leaves, and the fields every register word shows. -/
theorem registerWriteReadBack : Obligations.RegisterWriteReadBack := by
  intro s r v rest hbusy hr hs
  refine ⟨writeReg r v { s with inputs := rest }, ?_, ?_, fun r' hr' => ?_,
    writeReg_frame r v { s with inputs := rest }⟩
  · rw [step_cons hs]
    exact hostWrite_reg v hbusy hr
  · split
    · rename_i m hm
      have hread := readReg_writeReg_same hm v { s with inputs := rest }
      exact ⟨hread, hread ▸ showsFields_readReg r _⟩
    · rename_i hm
      exact writeReg_readOnly hm v _
  · exact readReg_writeReg_other hr' v { s with inputs := rest }

/-! ## Rings (R66 to R68) -/

/-- Pushes that all find room append their frames to those the ring holds, in their order (R66, R68). -/
theorem queued_pushAll {q q' : Ring} {fs : List Frame} (hq : RingWf q) (h : pushAll q fs = some q') :
    RingWf q' ∧ q'.cap = q.cap ∧ queued q' = queued q ++ fs := by
  induction fs generalizing q with
  | nil =>
    obtain rfl : q = q' := by simpa [pushAll] using h
    exact ⟨hq, rfl, by simp⟩
  | cons f fs ih =>
    cases hp : qPush q f with
    | none => simp [pushAll, hp] at h
    | some r =>
      obtain ⟨hroom, rfl⟩ := qPush_eq_some.1 hp
      obtain ⟨hwf, hcap, hqueue⟩ := ih (ringWf_pushed f hq hroom) (by simpa [pushAll, hp] using h)
      exact ⟨hwf, hcap, by simp [hqueue, queued_pushed f hq hroom]⟩

/-- A sequence of pushes meets `FULL` exactly when it exceeds the room (R66). -/
theorem pushAll_eq_none {q : Ring} {fs : List Frame} (hq : RingWf q) :
    pushAll q fs = none ↔ q.cap.toNat < q.cnt.toNat + fs.length := by
  induction fs generalizing q with
  | nil => simpa [pushAll] using hq.cnt_le
  | cons f fs ih =>
    by_cases hfull : q.cnt = q.cap
    · simp [pushAll, qPush_eq_none.2 hfull, hfull]
    · have hp : qPush q f = some (pushed q f) := qPush_eq_some.2 ⟨hfull, rfl⟩
      have hcnt := pushed_cnt f (hq.cnt_lt hfull)
      simp only [pushAll, hp, ih (ringWf_pushed f hq hfull), hcnt, pushed_cap, List.length_cons]
      omega

/-- Popping as often as a ring holds frames gives them oldest first and leaves the ring empty (R67, R68). -/
theorem popAll_queued {q : Ring} (hq : RingWf q) :
    ∃ q', popAll (queued q).length q = some (queued q, q') ∧ q'.cnt = 0 ∧ q'.cap = q.cap := by
  generalize hfs : queued q = fs
  induction fs generalizing q with
  | nil => exact ⟨q, rfl, queued_nil.1 hfs, rfl⟩
  | cons f fs ih =>
    have hne : q.cnt ≠ 0 := fun h => by simp [queued_nil.2 h] at hfs
    obtain ⟨rfl, hrest⟩ := List.cons_eq_cons.1 ((queued_popped hq hne).symm.trans hfs)
    have hpop : qPop q = some (readFrame q.mem q.rd.toNat, popped q) := qPop_eq_some.2 ⟨hne, rfl, rfl⟩
    obtain ⟨q', hall, hempty, hcap⟩ := ih (ringWf_popped hq hne) hrest
    exact ⟨q', by simp [popAll, hpop, hall], hempty, hcap⟩

/-- Settles O51: the pushes lengthen the queue at its end, the pops take it from its head. -/
theorem ringFifo : Obligations.RingFifo := by
  refine fun q fs hq => ⟨fun q' h => ?_, pushAll_eq_none hq⟩
  obtain ⟨hwf, hcap, hqueue⟩ := queued_pushAll hq h
  obtain ⟨q'', hall, hempty, hcap'⟩ := popAll_queued hwf
  exact ⟨q'', hqueue ▸ hall, hempty, hcap'.trans hcap⟩

/-! ## The output trace (R77) -/

/-- An `OUT` left as it is has only grown. -/
theorem out_grows_of_eq {s t : State} (h : t.out = s.out) : s.out <+: t.out := ⟨[], by simp [h]⟩

/-- An acknowledgement only adds actions to `OUT`. -/
theorem takeAck_out (a : Ack) (s : State) : s.out <+: (takeAck a s).out := by
  unfold takeAck
  split
  · split <;> simp [beginPhaseB, beginFdPhaseB, unfreeze, fillSlotsC, fillSlotsF, createRings]
  · simp [beginPhaseC]
  · simp [endPhaseB]
  all_goals exact out_grows_of_eq rfl

/-- Phase A of BEGIN and BEGINFD only adds actions to `OUT`. -/
theorem beginPhaseA_out (m : Mode) (e : Word × Port) (s : State) : s.out <+: (beginPhaseA m e s).out := by
  simp only [beginPhaseA]
  split <;> simp [setInitError]

theorem ArbiterOnly.out {s t : State} (h : ArbiterOnly s t) : s.out <+: t.out := by
  obtain ⟨-, -, l, hl⟩ := h
  exact ⟨l, hl.symm⟩

theorem HandlerOnly.out {s t : State} (h : HandlerOnly s t) : s.out <+: t.out := h.arbiter.out

/-- Every operation only adds actions to `OUT`. -/
theorem exec_out {i : Instr} {s t : State} (h : exec i s = .next t) : s.out <+: t.out := by
  cases i
  case send => exact (arbiterOnly_send h).out
  case sendFd => exact (arbiterOnly_sendFd h).out
  case isrc => exact (handlerOnly_isrc h).out
  case isrFd => exact (handlerOnly_isrFd h).out
  all_goals obtain rfl := Host.Outcome.next.inj h
  case recv | recvFd => exact (arbiterOnly_recvIn _ _).out
  case dispatch | dispatchFd => exact (arbiterOnly_dispatchIn _ _ _).out
  case beginCmd | beginFd =>
    split
    · exact out_grows_of_eq rfl
    · split
      · exact out_grows_of_eq rfl
      · exact beginPhaseA_out _ _ _
  case endCmd => split <;> simp
  case solve | solveFd | actual | ppm | dexact | dsample => split <;> exact out_grows_of_eq rfl
  case dactual => split_ifs <;> exact out_grows_of_eq rfl
  all_goals exact out_grows_of_eq rfl

theorem writeReg_out (r : HostReg) (v : Word) (s : State) : (writeReg r v s).out = s.out := by
  cases r <;> rfl

/-- A host write only adds actions to `OUT`: those of the command it issues, if it issues one (R26, R63). -/
theorem hostWrite_out {addr size : Nat} {v : Word} {s t : State} (h : hostWrite addr size v s = .next t) :
    s.out <+: t.out := by
  unfold hostWrite at h
  split at h
  · exact out_grows_of_eq (Host.Outcome.next.inj h ▸ rfl)
  · split at h
    · exact out_grows_of_eq (Host.Outcome.next.inj h ▸ rfl)
    · unfold issue at h
      split at h
      · exact out_grows_of_eq (Host.Outcome.next.inj h ▸ rfl)
      · exact exec_out h
    · obtain rfl := Host.Outcome.next.inj h
      exact out_grows_of_eq (writeReg_out _ _ _)

/-- Every move of the outside but reset only adds actions to `OUT` (R77). -/
theorem takeInput_out {e : Input} {s t : State} (he : e ≠ .reset) (h : takeInput e s = .next t) : s.out <+: t.out := by
  cases e with
  | busWrite addr size v => exact hostWrite_out h
  | busRead addr size => exact out_grows_of_eq (Host.Outcome.next.inj h ▸ rfl)
  | irq =>
    simp only [takeInput, handlerTurn] at h
    split at h <;> exact exec_out h
  | ack what => exact Host.Outcome.next.inj h ▸ takeAck_out what s
  | reset => exact absurd rfl he

/-- Settles O18, by cases on the move. -/
theorem outOnlyGrows : Obligations.OutOnlyGrows := by
  intro s t e rest hs he h
  rw [step_cons hs] at h
  obtain ⟨l, hl⟩ := takeInput_out he h
  exact ⟨l, hl.symm⟩

/-! ## The instances of a system (R2, R99) -/

/-- A word written to `CMD` ends in a next state, legal or not (R103, R230). -/
theorem issue_next (w : Word) (s : State) : ∃ t, issue w s = .next t := by
  unfold issue
  split
  · exact ⟨_, rfl⟩
  · exact exec_next _ s

theorem hostWrite_next (addr size : Nat) (v : Word) (s : State) : ∃ t, hostWrite addr size v s = .next t := by
  unfold hostWrite
  split
  · exact ⟨_, rfl⟩
  · split
    · exact ⟨_, rfl⟩
    · exact issue_next v s
    · exact ⟨_, rfl⟩

theorem handlerTurn_next (s : State) : ∃ t, handlerTurn s = .next t := by
  unfold handlerTurn
  split <;> exact exec_next _ s

/-- Every move of the outside ends in a next state (R96). -/
theorem takeInput_next (e : Input) (s : State) : ∃ t, takeInput e s = .next t := by
  cases e with
  | busWrite addr size v => exact hostWrite_next addr size v s
  | irq => exact handlerTurn_next s
  | busRead | ack | reset => exact ⟨_, rfl⟩

/-- Every step answers a next state (R96). -/
theorem step_next (s : State) : ∃ t, step s = .next t := by
  unfold step
  split
  · exact ⟨_, rfl⟩
  · exact takeInput_next _ _

/-- Settles O21: the system stores the instance's next state in its own place. -/
theorem instancesIndependent : Obligations.InstancesIndependent := by
  intro k sys
  obtain ⟨t, ht⟩ := step_next sys[k]
  refine ⟨sys.set k t, by simp only [systemStep, ht], ?_, fun j hj => ?_⟩
  · rw [ht]
    exact congrArg _ (Vector.getElem_set_self k.isLt).symm
  · exact Vector.getElem_set_ne k.isLt j.isLt fun h => hj (Fin.ext h.symm)

end Sys2Proof.Machine

/-! The statements of the encoding file: the decoder and the encoder are inverse, and exactly the reserved opcodes and the
words with a must-be-zero bit set are refused (R100 to R104). -/

namespace Sys2Proof.Machine

/-! ## The fields of a command word (R100, R102) -/

theorem commandWord_fields (w : Word) : commandWord (opField w) (immField w) = w :=
  BitVec.extractLsb'_append_extractLsb' (w := 24) (len := 8)

theorem opField_toNat (w : Word) : (opField w).toNat = w.toNat % 256 := by simp [opField]

theorem getLsbD_immField (w : Word) {n : Nat} (hn : n < 24) : (immField w).getLsbD n = w.getLsbD (8 + n) := by
  simp [immField, hn]

theorem bitOfKind_kindOfBit (b : Bool) : bitOfKind (kindOfBit b) = b := by cases b <;> rfl

theorem ofBool_getLsbD {n : Nat} (v : BitVec n) (i : Nat) : BitVec.ofBool (v.getLsbD i) = v.extractLsb' i 1 := by
  ext j hj
  obtain rfl : j = 0 := by omega
  simp

/-- `NOTIFY` is the whole immediate when the must-be-zero bits are 0. -/
theorem notifyImm_getLsbD {imm : BitVec 24} (h : imm.extractLsb' 1 23 = 0#23) : notifyImm (imm.getLsbD 0) = imm := by
  rw [notifyImm, ofBool_getLsbD, ← h]
  exact BitVec.extractLsb'_append_extractLsb' (w := 23) (len := 1)

/-- `CLR` is the whole immediate when the must-be-zero bits are 0. -/
theorem append_extractLsb'_clr {imm : BitVec 24} (h : imm.extractLsb' 4 20 = 0#20) :
    0#20 ++ imm.extractLsb' 0 4 = imm := by
  rw [← h]
  exact BitVec.extractLsb'_append_extractLsb' (w := 20) (len := 4)

/-- `KIND` and `FORMAT` are the whole immediate when the must-be-zero bits are 0. -/
theorem filterImm_getLsbD {imm : BitVec 24} (h : imm.extractLsb' 2 22 = 0#22) :
    filterImm (kindOfBit (imm.getLsbD 0)) (formatOfBit (imm.getLsbD 1)) = imm := by
  rw [filterImm, bitOfKind_kindOfBit, bitOfFormat_formatOfBit, ofBool_getLsbD, ofBool_getLsbD, ← h,
    BitVec.extractLsb'_append_extractLsb'_eq_extractLsb' (start₂ := 2) (start₁ := 1) rfl]
  exact BitVec.extractLsb'_append_extractLsb' (w := 23) (len := 1)

/-! ## The immediate forms (R102) -/

theorem ite_eq_ok {c : Prop} [Decidable c] {e : DecodeError} {i j : Instr} :
    (if c then Except.ok j else .error e) = .ok i ↔ c ∧ j = i := by
  split <;> simp [*]

theorem exists_ite_eq_ok {c : Prop} [Decidable c] {e : DecodeError} {j : Instr} :
    (∃ i, (if c then Except.ok j else .error e) = .ok i) ↔ c := by
  simp only [ite_eq_ok, exists_and_left, exists_eq', and_true]

theorem decodePlain_eq_ok {imm : BitVec 24} {i j : Instr} : decodePlain imm j = .ok i ↔ imm = 0 ∧ j = i := ite_eq_ok

theorem decodeFilter_eq_ok {imm : BitVec 24} {i : Instr} {mk : FilterKind → Format → Instr} :
    decodeFilter imm mk = .ok i
      ↔ imm.extractLsb' 2 22 = 0 ∧ mk (kindOfBit (imm.getLsbD 0)) (formatOfBit (imm.getLsbD 1)) = i := ite_eq_ok

theorem decodeGsclr_eq_ok {imm : BitVec 24} {i : Instr} :
    decodeGsclr imm = .ok i ↔ imm.extractLsb' 4 20 = 0 ∧ .gsclr (imm.extractLsb' 0 4) = i := ite_eq_ok

theorem decodeNotify_eq_ok {imm : BitVec 24} {i : Instr} {mk : Bool → Instr} :
    decodeNotify imm mk = .ok i ↔ imm.extractLsb' 1 23 = 0 ∧ mk (imm.getLsbD 0) = i := ite_eq_ok

/-! ## The rows of the opcode map (R101, R104) -/

/-- Opcode `op` is in the map, and of its immediate the bits from `k` up must be 0. -/
def ImmediateBits (op k : Nat) : Prop :=
  ¬ reservedOpcode op ∧ ∀ n < 32, (mustBeZero op).getLsbD n = decide (8 + k ≤ n)

/-- What the decoder answers, `r`, on opcode `op` and immediate `imm`: one case per immediate form of R102, each with what
the encoder says of the same row, and one for the reserved opcodes. -/
inductive DecodeRow (op : Byte) (imm : BitVec 24) (r : Except DecodeError Instr) : Prop
  | plain (j : Instr) (hr : r = decodePlain imm j) (hbits : ImmediateBits op.toNat 0)
      (henc : encode j = some (commandWord op 0))
  | filter (mk : FilterKind → Format → Instr) (hr : r = decodeFilter imm mk) (hbits : ImmediateBits op.toNat 2)
      (henc : ∀ k f, encode (mk k f) = some (commandWord op (filterImm k f)))
  | gsclr (hr : r = decodeGsclr imm) (hbits : ImmediateBits op.toNat 4)
      (henc : ∀ c, encode (.gsclr c) = some (commandWord op (0#20 ++ c)))
  | notify (mk : Bool → Instr) (hr : r = decodeNotify imm mk) (hbits : ImmediateBits op.toNat 1)
      (henc : ∀ b, encode (mk b) = some (commandWord op (notifyImm b)))
  | reserved (hr : r = .error .reservedOpcode) (hop : reservedOpcode op.toNat)

/-- The decoder answers by the row of the word's opcode. -/
theorem decode_row (w : Word) : DecodeRow (opField w) (immField w) (decode w) := by
  have hlt := (opField w).isLt
  rw [← BitVec.setWidth_eq (opField w), ← BitVec.ofNat_toNat]
  simp only [decode]
  generalize (opField w).toNat = op at hlt
  split
  case h_12 | h_13 | h_14 => exact .filter _ rfl ⟨by simp [reservedOpcode], by decide⟩ fun _ _ => rfl
  case h_23 => exact .gsclr rfl ⟨by simp [reservedOpcode], by decide⟩ fun _ => rfl
  case h_28 | h_29 => exact .notify _ rfl ⟨by simp [reservedOpcode], by decide⟩ fun _ => rfl
  case h_30 =>
    refine .reserved rfl ?_
    rw [BitVec.toNat_ofNat, Nat.mod_eq_of_lt hlt, reservedOpcode]
    simp only [imp_false] at *
    omega
  all_goals exact .plain _ rfl ⟨by simp [reservedOpcode], by decide⟩ rfl

/-! ## The decoder and the encoder are inverse (R100 to R103) -/

/-- The word of an operation decodes to it, by evaluation at each value of its operands. -/
theorem decode_of_encode {i : Instr} {w : Word} (h : encode i = some w) : decode w = .ok i := by
  cases i with
  | encp k f | encs k f | encf k f => cases h; cases k <;> cases f <;> rfl
  | gsclr c => cases h; revert c; decide
  | dispatch n | dispatchFd n => cases h; cases n <;> rfl
  | isrc | isrFd => cases h
  | _ => cases h; rfl

/-- A word that decodes is the word of the operation it decodes to, row by row. -/
theorem encode_of_decode {i : Instr} {w : Word} (h : decode w = .ok i) : encode i = some w := by
  rw [← commandWord_fields w]
  cases decode_row w with
  | plain j hr _ henc =>
    obtain ⟨himm, rfl⟩ := decodePlain_eq_ok.1 (hr ▸ h)
    rw [henc, himm]
  | filter mk hr _ henc =>
    obtain ⟨himm, rfl⟩ := decodeFilter_eq_ok.1 (hr ▸ h)
    rw [henc, filterImm_getLsbD himm]
  | gsclr hr _ henc =>
    obtain ⟨himm, rfl⟩ := decodeGsclr_eq_ok.1 (hr ▸ h)
    rw [henc, append_extractLsb'_clr himm]
  | notify mk hr _ henc =>
    obtain ⟨himm, rfl⟩ := decodeNotify_eq_ok.1 (hr ▸ h)
    rw [henc, notifyImm_getLsbD himm]
  | reserved hr => cases hr ▸ h

theorem encode_isSome (i : Instr) : (encode i).isSome = i.isCommand := by cases i <;> rfl

/-- Settles O1: each direction is a lemma of its own, decoding by the rows of the opcode map and encoding by evaluation. -/
theorem decodeInvertsEncode : Obligations.DecodeInvertsEncode :=
  ⟨fun _ _ => ⟨encode_of_decode, decode_of_encode⟩, encode_isSome⟩

/-- Settles O3: each word is the word of its operation. -/
theorem commandWordSamples : Obligations.CommandWordSamples := by
  refine ⟨?_, ?_, ?_, ?_, ?_, ?_, ?_, ?_, ?_, ?_, ?_, ?_, ?_, ?_⟩ <;> exact decode_of_encode rfl

/-! ## The words refused (R102 to R104) -/

/-- The must-be-zero bits of a word, read in its immediate. -/
theorem and_mustBeZero_eq_zero {w m : Word} {k n : Nat} (hkn : k + n = 24)
    (hm : ∀ i < 32, m.getLsbD i = decide (8 + k ≤ i)) : w &&& m = 0 ↔ (immField w).extractLsb' k n = 0 := by
  rw [word_eq_zero_iff]
  constructor
  · intro h
    refine BitVec.eq_of_getLsbD_eq fun i hi => ?_
    have hbit := h (8 + (k + i)) (by omega)
    rw [BitVec.getLsbD_and, hm _ (by omega), decide_eq_true (by omega), Bool.and_true] at hbit
    rw [BitVec.getLsbD_extractLsb', getLsbD_immField w (by omega), hbit]
    simp
  · intro h i hi
    rw [BitVec.getLsbD_and, hm i hi]
    by_cases hk : 8 + k ≤ i
    · have hbit := congrArg (·.getLsbD (i - 8 - k)) h
      simp only [BitVec.getLsbD_extractLsb'] at hbit
      rw [getLsbD_immField w (by omega), show 8 + (k + (i - 8 - k)) = i by omega, decide_eq_true (by omega)] at hbit
      simpa [hk] using hbit
    · simp [hk]

theorem not_illegalWord_iff {w : Word} {k n : Nat} (h : ImmediateBits (opField w).toNat k) (hkn : k + n = 24) :
    ¬ illegalWord w ↔ (immField w).extractLsb' k n = 0 := by
  obtain ⟨hop, hm⟩ := h
  rw [opField_toNat] at hop hm
  rw [← and_mustBeZero_eq_zero hkn hm]
  simp [illegalWord, hop]

/-- A word decodes exactly when R102 to R104 do not refuse it, row by row. -/
theorem exists_decode_eq_ok (w : Word) : (∃ i, decode w = .ok i) ↔ ¬ illegalWord w := by
  cases decode_row w with
  | plain j hr hbits =>
    rw [hr, not_illegalWord_iff hbits (n := 24) rfl, BitVec.extractLsb'_eq_self]
    exact exists_ite_eq_ok
  | filter mk hr hbits =>
    rw [hr, not_illegalWord_iff hbits (n := 22) rfl]
    exact exists_ite_eq_ok
  | gsclr hr hbits =>
    rw [hr, not_illegalWord_iff hbits (n := 20) rfl]
    exact exists_ite_eq_ok
  | notify mk hr hbits =>
    rw [hr, not_illegalWord_iff hbits (n := 23) rfl]
    exact exists_ite_eq_ok
  | reserved hr hop =>
    rw [opField_toNat] at hop
    simp [hr, illegalWord, hop]

/-- An illegal word changes `ERR` and nothing else (R104). -/
theorem issue_illegalWord {w : Word} (h : illegalWord w) (s : State) :
    issue w s = .next { s with err := .illegalCommand } := by
  unfold issue
  split
  · rfl
  next i hi => exact absurd h ((exists_decode_eq_ok w).1 ⟨i, hi⟩)

/-- Settles O2: the decoder refuses by the rows of the opcode map, and a refused word reaches `CMD`. -/
theorem illegalWordsRefused : Obligations.IllegalWordsRefused := by
  refine ⟨exists_decode_eq_ok, fun s w rest hw hbusy hs => ?_⟩
  rw [step_cons hs]
  calc hostWrite (s.par.seaBase + regOffset .cmd) 4 w { s with inputs := rest }
      = issue w { s with inputs := rest } := hostWrite_cmd w hbusy
    _ = .next { s with inputs := rest, err := .illegalCommand } := issue_illegalWord hw _

end Sys2Proof.Machine

/-! The statements of the bit-timing solver's file: the search, the apportionment, what SOLVE and SOLVEFD leave in the
timing registers, and what CHECK and the queries answer. -/

namespace Sys2Proof.Machine

/-! ## The order of the search (R121) -/

/-- The error of a pair `(P, TQ)`, as R121 minimises it. -/
def pairError (b f d : Nat) (x : Nat × Nat) : Nat := ((f : Int) - (b * x.2 * x.1 * d : Nat)).natAbs

/-- The search prefers `x` to `y`, or they are one pair: least error, then largest count, then smallest prescaler. -/
def NoWorse (b f d : Nat) (x y : Nat × Nat) : Prop :=
  pairError b f d x < pairError b f d y
    ∨ (pairError b f d x = pairError b f d y ∧ (y.2 < x.2 ∨ (y.2 = x.2 ∧ x.1 ≤ y.1)))

section Search

variable {b f d pMax tqMax : Nat}

theorem NoWorse.refl (x : Nat × Nat) : NoWorse b f d x x := .inr ⟨rfl, .inr ⟨rfl, le_rfl⟩⟩

theorem NoWorse.trans {x y z : Nat × Nat} (hxy : NoWorse b f d x y) (hyz : NoWorse b f d y z) : NoWorse b f d x z := by
  unfold NoWorse at *
  omega

theorem pairError_of_le {x : Nat × Nat} (h : b * x.2 * x.1 * d ≤ f) :
    pairError b f d x = f - b * x.2 * x.1 * d := by
  unfold pairError
  omega

theorem pairError_of_ge {x : Nat × Nat} (h : f ≤ b * x.2 * x.1 * d) :
    pairError b f d x = b * x.2 * x.1 * d - f := by
  unfold pairError
  omega

/-- The prescaler found by floor division does not overshoot the clock, and the next one does. -/
theorem floor_bounds (hb : 1 ≤ b) (hd : 1 ≤ d) {tq : Nat} (htq : 1 ≤ tq) (p : Nat) :
    (p ≤ f / (b * tq * d) → b * tq * p * d ≤ f) ∧ (f / (b * tq * d) < p → f < b * tq * p * d) := by
  have hpos : 0 < b * tq * d := by positivity
  rw [show b * tq * p * d = p * (b * tq * d) by ring]
  exact ⟨(Nat.le_div_iff_mul_le hpos).1, (Nat.div_lt_iff_lt_mul hpos).1⟩

theorem floor_antitone (hb : 1 ≤ b) (hd : 1 ≤ d) {tq tq' : Nat} (htq' : 1 ≤ tq') (h : tq' ≤ tq) :
    f / (b * tq * d) ≤ f / (b * tq' * d) :=
  Nat.div_le_div_left (by gcongr) (by positivity)

/-- Up to the floor a larger prescaler is the better one. -/
theorem noWorse_below (hb : 1 ≤ b) (hd : 1 ≤ d) {tq p q : Nat} (htq : 1 ≤ tq) (hpq : p ≤ q)
    (hq : q ≤ f / (b * tq * d)) : NoWorse b f d (q, tq) (p, tq) := by
  obtain rfl | hlt := hpq.eq_or_lt
  · exact .refl _
  have hf : b * tq * q * d ≤ f := (floor_bounds hb hd htq q).1 hq
  have hprod : b * tq * p * d < b * tq * q * d := by gcongr
  left
  rw [pairError_of_le hf, pairError_of_le (x := (p, tq)) (hprod.le.trans hf)]
  dsimp only
  omega

/-- Above the floor a smaller prescaler is the better one. -/
theorem noWorse_above (hb : 1 ≤ b) (hd : 1 ≤ d) {tq p q : Nat} (htq : 1 ≤ tq) (hqp : q ≤ p)
    (hq : f / (b * tq * d) < q) : NoWorse b f d (q, tq) (p, tq) := by
  have hf : f < b * tq * q * d := (floor_bounds hb hd htq q).2 hq
  have hprod : b * tq * q * d ≤ b * tq * p * d := by gcongr
  have hp := pairError_of_ge (x := (p, tq)) (hf.le.trans hprod)
  have hq := pairError_of_ge (x := (q, tq)) hf.le
  unfold NoWorse
  dsimp only at *
  omega

/-! ## The loop of the search (R121) -/

theorem searchTake_of_none {best : SearchBest} (h : best.err = none) (e p tq : Nat) :
    searchTake best e p tq = { err := some e, p := p, tq := tq } := by
  simp only [searchTake, h]

theorem searchTake_of_lt {best : SearchBest} {e e' : Nat} (h : best.err = some e') (hlt : e < e') (p tq : Nat) :
    searchTake best e p tq = { err := some e, p := p, tq := tq } := by
  simp only [searchTake, h, hlt, if_true]

theorem searchTake_of_ge {best : SearchBest} {e e' : Nat} (h : best.err = some e') (hge : e' ≤ e) (p tq : Nat) :
    searchTake best e p tq = best := by
  simp only [searchTake, h, hge.not_gt, if_false]

/-- `best` holds the pair of `S` the search prefers, and no error while `S` is empty. -/
def BestOf (b f d : Nat) (S : Nat × Nat → Prop) (best : SearchBest) : Prop :=
  (best.err = none ∧ ∀ x, ¬ S x)
    ∨ (best.err = some (pairError b f d (best.p, best.tq)) ∧ S (best.p, best.tq)
        ∧ ∀ x, S x → NoWorse b f d (best.p, best.tq) x)

variable {S T : Nat × Nat → Prop} {best : SearchBest}

/-- Pairs that are no better than one already considered do not change what is best. -/
theorem BestOf.extend (h : BestOf b f d S best) (hST : ∀ x, S x → T x)
    (hTS : ∀ x, T x → ∃ y, S y ∧ NoWorse b f d y x) : BestOf b f d T best := by
  obtain ⟨hnone, hempty⟩ | ⟨hsome, hmem, hbest⟩ := h
  · refine .inl ⟨hnone, fun x hx => ?_⟩
    obtain ⟨y, hy, -⟩ := hTS x hx
    exact hempty y hy
  · refine .inr ⟨hsome, hST _ hmem, fun x hx => ?_⟩
    obtain ⟨y, hy, hyx⟩ := hTS x hx
    exact (hbest y hy).trans hyx

/-- A candidate later in the search than all pairs of `S`, taken when `c` holds. -/
theorem BestOf.take (h : BestOf b f d S best) {c : Prop} [Decidable c] {x : Nat × Nat} {e : Nat}
    (he : c → e = pairError b f d x) (hlate : ∀ y, S y → x.2 < y.2 ∨ (x.2 = y.2 ∧ y.1 ≤ x.1)) :
    BestOf b f d (fun y => S y ∨ (c ∧ y = x)) (if c then searchTake best e x.1 x.2 else best) := by
  by_cases hc : c
  swap
  · simpa [hc] using h
  obtain rfl := he hc
  simp only [hc, if_true, true_and]
  obtain ⟨hnone, hempty⟩ | ⟨hsome, hmem, hbest⟩ := h
  · rw [searchTake_of_none hnone]
    refine .inr ⟨rfl, .inr rfl, ?_⟩
    rintro y (hy | rfl)
    · exact absurd hy (hempty y)
    · exact .refl _
  obtain hlt | hge := lt_or_ge (pairError b f d x) (pairError b f d (best.p, best.tq))
  · rw [searchTake_of_lt hsome hlt]
    refine .inr ⟨rfl, .inr rfl, ?_⟩
    rintro y (hy | rfl)
    · exact NoWorse.trans (.inl hlt) (hbest y hy)
    · exact .refl _
  · rw [searchTake_of_ge hsome hge]
    refine .inr ⟨hsome, .inl hmem, ?_⟩
    rintro y (hy | rfl)
    · exact hbest y hy
    · exact hge.lt_or_eq.imp_right fun heq => ⟨heq, hlate _ hmem⟩

/-- The pairs the search has considered when it has gone down to the count `k`: all pairs in range whose count has a
candidate. -/
def Considered (b f d tqMax pMax k : Nat) (x : Nat × Nat) : Prop :=
  k ≤ x.2 ∧ x.2 ≤ tqMax ∧ 1 ≤ x.1 ∧ x.1 ≤ pMax ∧ f / (b * x.2 * d) ≤ pMax

/-- One count of the loop: its two candidates stand for all prescalers of that count. -/
theorem BestOf.searchAt (hb : 1 ≤ b) (hd : 1 ≤ d) {tq : Nat} (htq : 1 ≤ tq) (hmax : tq ≤ tqMax)
    (h : BestOf b f d (Considered b f d tqMax pMax (tq + 1)) best) :
    BestOf b f d (Considered b f d tqMax pMax tq) (searchAt b f d pMax tq best) := by
  have hfloor := floor_bounds (f := f) hb hd htq
  have hlow : BestOf b f d _ _ := h.take (c := 1 ≤ f / (b * tq * d) ∧ f / (b * tq * d) ≤ pMax)
    (x := (f / (b * tq * d), tq)) (fun _ => (pairError_of_le ((hfloor _).1 le_rfl)).symm)
    (fun y hy => .inl hy.1)
  have hboth : BestOf b f d _ _ := hlow.take (c := f / (b * tq * d) < pMax) (x := (f / (b * tq * d) + 1, tq))
    (fun _ => (pairError_of_ge ((hfloor _).2 (Nat.lt_succ_self _)).le).symm) (by
      rintro y (hy | ⟨-, rfl⟩)
      · exact .inl hy.1
      · exact .inr ⟨rfl, Nat.le_succ _⟩)
  refine hboth.extend ?_ ?_
  · rintro x ((⟨hlt, hle⟩ | ⟨⟨h1, h2⟩, rfl⟩) | ⟨hlt, rfl⟩)
    · exact ⟨(Nat.le_succ _).trans hlt, hle⟩
    · exact ⟨le_rfl, hmax, h1, h2, h2⟩
    · exact ⟨le_rfl, hmax, Nat.succ_pos _, hlt, hlt.le⟩
  · rintro ⟨p, tq'⟩ ⟨hle, hmax', hp1, hpMax, hcand⟩
    dsimp only at hle hmax' hp1 hpMax hcand
    obtain rfl | hlt := hle.eq_or_lt
    · obtain hp | hp := le_or_gt p (f / (b * tq * d))
      · exact ⟨_, .inl (.inr ⟨⟨hp1.trans hp, hcand⟩, rfl⟩), noWorse_below hb hd htq hp le_rfl⟩
      · exact ⟨_, .inr ⟨hp.trans_le hpMax, rfl⟩, noWorse_above hb hd htq hp (Nat.lt_succ_self _)⟩
    · exact ⟨(p, tq'), .inl (.inl ⟨hlt, hmax', hp1, hpMax, hcand⟩), .refl _⟩

/-- The loop from any count down to the last one. -/
theorem BestOf.searchDown (hb : 1 ≤ b) (hd : 1 ≤ d) {n : Nat} (hmax : 5 + n ≤ tqMax + 1)
    (h : BestOf b f d (Considered b f d tqMax pMax (5 + n)) best) :
    BestOf b f d (Considered b f d tqMax pMax 5) (searchDown b f d pMax n best) := by
  induction n generalizing best with
  | zero => exact h
  | succ n ih => exact ih (by omega) (BestOf.searchAt hb hd (tq := 5 + n) (by omega) (by omega) h)

/-- While every count is too slow for the prescaler's range the loop takes no candidate (R122 (c)). -/
theorem searchDown_of_noCandidate {n : Nat} (h : ∀ i, i < n → pMax < f / (b * (5 + i) * d)) (best : SearchBest) :
    searchDown b f d pMax n best = best := by
  induction n generalizing best with
  | zero => rfl
  | succ n ih =>
    have hn : pMax < f / (b * (5 + n) * d) := h n (Nat.lt_succ_self n)
    have hskip : searchAt b f d pMax (5 + n) best = best := by
      simp only [searchAt, hn.not_ge, hn.not_gt, and_false, if_false]
    rw [searchDown, Config.tqMin, hskip, ih fun i hi => h i (hi.trans (Nat.lt_succ_self n))]

/-! ## What the search returns (R121, R122) -/

/-- A count without a candidate is no better than the next one up: with `A = b * tq * d`, every pair of it has an error
of at least `A`, and of the two candidates of the next count, whose errors add up to `A + b * d`, one has an error
of at most `A`. -/
theorem exists_noWorse_succ (hb : 1 ≤ b) (hd : 1 ≤ d) {p tq : Nat} (htq : 1 ≤ tq) (hp1 : 1 ≤ p) (hp : p ≤ pMax)
    (hno : pMax < f / (b * tq * d)) : ∃ q, 1 ≤ q ∧ q ≤ pMax ∧ NoWorse b f d (q, tq + 1) (p, tq) := by
  have hA : b * tq * p * d + b * tq * d ≤ f := by
    have := (floor_bounds hb hd htq (p + 1)).1 (by omega : p + 1 ≤ f / (b * tq * d))
    rwa [show b * tq * (p + 1) * d = b * tq * p * d + b * tq * d by ring] at this
  have herr : pairError b f d (p, tq) = f - b * tq * p * d := pairError_of_le (by dsimp only; omega)
  have hnext := floor_bounds (f := f) hb hd (Nat.succ_pos tq)
  have hc : b * (tq + 1) * d = b * tq * d + b * d := by ring
  have hcA : b * d ≤ b * tq * d := by gcongr; exact Nat.le_mul_of_pos_right _ htq
  generalize hq : f / (b * (tq + 1) * d) = q at hnext
  obtain hpq | hqp := le_or_gt p q
  · have hle : b * (tq + 1) * p * d ≤ f := (hnext p).1 hpq
    have hprod : b * tq * p * d < b * (tq + 1) * p * d := by gcongr; exact Nat.lt_succ_self tq
    refine ⟨p, hp1, hp, .inl ?_⟩
    rw [herr, pairError_of_le hle]
    dsimp only
    omega
  · have hlow : b * (tq + 1) * q * d ≤ f := (hnext q).1 le_rfl
    have hhigh : f < b * (tq + 1) * (q + 1) * d := (hnext (q + 1)).2 (Nat.lt_succ_self q)
    have elow := pairError_of_le (x := (q, tq + 1)) hlow
    have ehigh := pairError_of_ge (x := (q + 1, tq + 1)) hhigh.le
    have hsum : b * (tq + 1) * (q + 1) * d = b * (tq + 1) * q * d + b * (tq + 1) * d := by ring
    dsimp only at elow ehigh
    obtain hsmall | hsmall := le_or_gt (f - b * (tq + 1) * q * d) (b * tq * d)
    · have hq1 : 1 ≤ q := by
        by_contra hq0
        obtain rfl : q = 0 := by omega
        have : b * tq * d ≤ b * tq * p * d := Nat.mul_le_mul_right d (Nat.le_mul_of_pos_right _ hp1)
        have : 0 < b * d := by positivity
        rw [mul_zero, zero_mul, Nat.sub_zero] at hsmall
        omega
      exact ⟨q, hq1, by omega, by unfold NoWorse; omega⟩
    · exact ⟨q + 1, by omega, by omega, by unfold NoWorse; omega⟩

/-- A pair whose count has no candidate is no better than some pair considered (R122 (b), (c)). -/
theorem exists_considered (hb : 1 ≤ b) (hd : 1 ≤ d) (hmax : f / (b * tqMax * d) ≤ pMax) {x : Nat × Nat}
    (hp1 : 1 ≤ x.1) (hp : x.1 ≤ pMax) (htq : 5 ≤ x.2) (hle : x.2 ≤ tqMax) :
    ∃ y, Considered b f d tqMax pMax 5 y ∧ NoWorse b f d y x := by
  obtain ⟨p, tq⟩ := x
  dsimp only at hp1 hp htq hle
  induction hle using Nat.decreasingInduction generalizing p with
  | self => exact ⟨(p, tqMax), ⟨htq, le_rfl, hp1, hp, hmax⟩, .refl _⟩
  | of_succ tq hlt ih =>
    obtain hcand | hno := le_or_gt (f / (b * tq * d)) pMax
    · exact ⟨(p, tq), ⟨htq, hlt.le, hp1, hp, hcand⟩, .refl _⟩
    · obtain ⟨q, hq1, hq, hqp⟩ := exists_noWorse_succ hb hd (by omega) hp1 hp hno
      obtain ⟨y, hy, hyq⟩ := ih q hq1 hq (by omega)
      exact ⟨y, hy, hyq.trans hqp⟩

/-- The search returns a pair in range that is no worse than any other, unless the slowest setting is too fast. -/
theorem search_best (hb : 1 ≤ b) (hd : 1 ≤ d) (hpMax : 1 ≤ pMax) (htqMax : 5 ≤ tqMax)
    (hmax : f / (b * tqMax * d) ≤ pMax) :
    Considered b f d tqMax pMax 5 (search b f d tqMax pMax)
      ∧ ∀ x : Nat × Nat, 1 ≤ x.1 → x.1 ≤ pMax → 5 ≤ x.2 → x.2 ≤ tqMax →
          NoWorse b f d (search b f d tqMax pMax) x := by
  have hstart : BestOf b f d (Considered b f d tqMax pMax (5 + (tqMax + 1 - 5)))
      { err := none, p := pMax, tq := tqMax } :=
    .inl ⟨rfl, fun _ ⟨hdown, hle, _⟩ => by omega⟩
  obtain ⟨-, hempty⟩ | ⟨-, hmem, hbest⟩ := hstart.searchDown hb hd (by omega)
  · exact absurd ⟨htqMax, le_rfl, le_rfl, hpMax, hmax⟩ (hempty (1, tqMax))
  · refine ⟨hmem, fun x hp1 hp htq hle => ?_⟩
    obtain ⟨y, hy, hyx⟩ := exists_considered hb hd hmax hp1 hp htq hle
    exact (hbest y hy).trans hyx

/-- With every count too slow for the prescaler's range the search falls back to the slowest setting (R122 (b)). -/
theorem search_fallback (hb : 1 ≤ b) (hd : 1 ≤ d) (hslow : pMax < f / (b * tqMax * d)) :
    search b f d tqMax pMax = (pMax, tqMax) := by
  have hall : ∀ i, i < tqMax + 1 - 5 → pMax < f / (b * (5 + i) * d) := fun i hi =>
    hslow.trans_le (floor_antitone hb hd (by omega) (by omega))
  unfold search
  rw [Config.tqMin, searchDown_of_noCandidate hall]

/-- R122 (a): also of the fallback the pair is in range. -/
theorem search_inRange (hb : 1 ≤ b) (hd : 1 ≤ d) (htqMax : 5 ≤ tqMax) (hpMax : 1 ≤ pMax) :
    1 ≤ (search b f d tqMax pMax).1 ∧ (search b f d tqMax pMax).1 ≤ pMax
      ∧ 5 ≤ (search b f d tqMax pMax).2 ∧ (search b f d tqMax pMax).2 ≤ tqMax := by
  obtain hmax | hslow := le_or_gt (f / (b * tqMax * d)) pMax
  · obtain ⟨⟨htq, hle, hp1, hp, -⟩, -⟩ := search_best hb hd hpMax htqMax hmax
    exact ⟨hp1, hp, htq, hle⟩
  · rw [search_fallback hb hd hslow]
    exact ⟨hpMax, le_rfl, htqMax, le_rfl⟩

/-- R122 (d): an exact pair is found, with the largest count. -/
theorem search_exact (hb : 1 ≤ b) (hd : 1 ≤ d) (htqMax : 5 ≤ tqMax) {p tq : Nat} (hp1 : 1 ≤ p) (hp : p ≤ pMax)
    (htq : 5 ≤ tq) (hle : tq ≤ tqMax) (hexact : b * tq * p * d = f) :
    b * (search b f d tqMax pMax).2 * (search b f d tqMax pMax).1 * d = f ∧ tq ≤ (search b f d tqMax pMax).2 := by
  have hmax : f / (b * tqMax * d) ≤ pMax := by
    refine Nat.div_le_of_le_mul ?_
    calc f = b * tq * d * p := by rw [← hexact]; ring
      _ ≤ b * tqMax * d * pMax := by gcongr
  obtain ⟨-, hbest⟩ := search_best hb hd (hp1.trans hp) htqMax hmax
  have hzero : pairError b f d (p, tq) = 0 := by simp [pairError, hexact]
  have hno := hbest (p, tq) hp1 hp htq hle
  unfold NoWorse at hno
  rw [hzero] at hno
  unfold pairError at hno
  dsimp only at hno
  omega

/-- R122 (e): of a rate too fast for every count the fastest setting has the least error. -/
theorem search_fastest (hb : 1 ≤ b) (hd : 1 ≤ d) (htqMax : 5 ≤ tqMax) (hpMax : 1 ≤ pMax) (hfast : f < b * 5 * d) :
    search b f d tqMax pMax = (1, 5) := by
  have hmax : f / (b * tqMax * d) ≤ pMax := by
    rw [Nat.div_eq_of_lt (hfast.trans_le (by gcongr))]
    exact Nat.zero_le _
  obtain ⟨⟨htq, -, hp1, -, -⟩, hbest⟩ := search_best hb hd hpMax htqMax hmax
  have hno := hbest (1, 5) le_rfl hpMax le_rfl htqMax
  rw [← Nat.mul_one (b * 5)] at hfast
  generalize search b f d tqMax pMax = r at *
  obtain ⟨p, tq⟩ := r
  dsimp only at htq hp1
  have hbase := pairError_of_ge (b := b) (f := f) (d := d) (x := (1, 5)) hfast.le
  have hprod : b * 5 * 1 * d ≤ b * tq * p * d := by gcongr
  have herr := pairError_of_ge (b := b) (f := f) (d := d) (x := (p, tq)) (hfast.le.trans hprod)
  dsimp only at hbase herr
  have heq : b * tq * p * d = b * 5 * 1 * d := by
    unfold NoWorse at hno
    omega
  have hcancel : tq * p = 5 := by
    have : b * d * (tq * p) = b * d * 5 := by linarith
    exact Nat.eq_of_mul_eq_mul_left (by positivity) this
  have : p = 1 := by nlinarith
  subst this
  simpa using hcancel

end Search

/-- Settles O22: the pair `Search` returns is the best of all pairs in range. -/
theorem searchLeastError : Obligations.SearchLeastError := by
  intro b f d tqMax pMax hb _ hd htqMax hpMax hmax p tq hp1 hp htq hle
  exact (search_best hb hd hpMax htqMax hmax).2 (p, tq) hp1 hp htq hle

/-- Settles O23: range, fallback, early stop, exact pair and fastest setting, each a lemma of its own. -/
theorem searchProperties : Obligations.SearchProperties := by
  intro b f d tqMax pMax hb _ hd htqMax hpMax
  refine ⟨search_inRange hb hd htqMax hpMax, ⟨fun h => h tqMax htqMax le_rfl, fun h tq htq hle => ?_⟩,
    search_fallback hb hd, fun tq htq hle hno => ⟨fun tq' htq' hle' => ?_, ?_⟩, fun p tq hp1 hp htq hle =>
    search_exact hb hd htqMax hp1 hp htq hle, search_fastest hb hd htqMax hpMax⟩
  · exact h.trans_le (floor_antitone hb hd (by omega) hle)
  · exact hno.trans_le (floor_antitone hb hd htq' hle')
  · exact searchDown_of_noCandidate fun i hi => hno.trans_le (floor_antitone hb hd (by omega) (by omega))

/-! ## The apportionment (R123, R124) -/

theorem apportion_sum {tq : Nat} (htq : 5 ≤ tq) (ps2Max ps1Max : Nat) :
    1 + (apportion tq ps2Max ps1Max).1 + (apportion tq ps2Max ps1Max).2.1 + (apportion tq ps2Max ps1Max).2.2 = tq := by
  simp only [apportion]
  omega

/-- A classic bit, or the data phase of an FD bit. -/
theorem apportion_bounds_short {tq : Nat} (htq : 5 ≤ tq) (hle : tq ≤ 48) :
    let g := apportion tq 8 8
    1 ≤ g.1 ∧ g.1 ≤ 31 ∧ 1 ≤ g.2.1 ∧ g.2.1 ≤ 8 ∧ 2 ≤ g.2.2 ∧ g.2.2 ≤ 8 := by
  simp only [apportion]
  omega

theorem apportion_prop_classic {tq : Nat} (hle : tq ≤ 25) : (apportion tq 8 8).1 ≤ 8 := by
  simp only [apportion]
  omega

/-- The arbitration phase of an FD bit. -/
theorem apportion_bounds_long {tq : Nat} (htq : 5 ≤ tq) (hle : tq ≤ 129) :
    let g := apportion tq 32 32
    1 ≤ g.1 ∧ g.1 ≤ 64 ∧ 1 ≤ g.2.1 ∧ g.2.1 ≤ 32 ∧ 2 ≤ g.2.2 ∧ g.2.2 ≤ 32 := by
  simp only [apportion]
  omega

/-- Settles O24: the sum, and the bounds of the two pairs of maxima. -/
theorem apportionLaw : Obligations.ApportionLaw := fun _ htq =>
  ⟨fun ps2Max ps1Max => ⟨rfl, rfl, apportion_sum htq ps2Max ps1Max⟩,
    fun hle => ⟨apportion_sum htq 8 8, apportion_bounds_short htq hle⟩, apportion_prop_classic,
    fun hle => ⟨apportion_sum htq 32 32, apportion_bounds_long htq hle⟩⟩

/-! ## Register values -/

theorem boolWord_eq_oneIf (b : Bool) : boolWord b = oneIf b := by cases b <;> rfl

theorem bool_toNat_eq_ite (b : Bool) : b.toNat = if b then 1 else 0 := by cases b <;> rfl

theorem toNat_ofNat_of_lt {w n : Nat} (h : n < 2 ^ w) : (BitVec.ofNat w n).toNat = n := by
  rw [BitVec.toNat_ofNat, Nat.mod_eq_of_lt h]

theorem toNat_setWidth_of_lt {w v : Nat} {x : BitVec w} (h : x.toNat < 2 ^ v) : (x.setWidth v).toNat = x.toNat := by
  rw [BitVec.toNat_setWidth, Nat.mod_eq_of_lt h]

/-! ## The consistency words (R132 to R134) -/

/-- Bit `n` of an error word whose conditions stand at the positions from `k` on. -/
theorem getLsbD_flagWord_zipIdx (l : List Bool) (k n : Nat) (h : k + l.length ≤ 32) :
    (flagWord (l.zipIdx k)).getLsbD n = (decide (k ≤ n) && l.getD (n - k) false) := by
  induction l generalizing k with
  | nil => simp [flagWord]
  | cons b l ih =>
    simp only [List.length_cons] at h
    rw [List.zipIdx_cons, getLsbD_flagWord_cons b _ n (by omega), ih (k + 1) (by omega)]
    obtain hlt | rfl | hgt := lt_trichotomy n k
    · simp [hlt.ne, hlt.not_ge, (hlt.trans k.lt_succ_self).not_ge]
    · simp
    · obtain ⟨m, rfl⟩ := Nat.exists_eq_add_of_lt hgt
      simp [show k + m + 1 - k = m + 1 by omega, show k + m + 1 - (k + 1) = m by omega, hgt.le, hgt.ne']

/-- The conditions of the classic consistency word, bit 0 first (R133). -/
def classicConditions (t : Timing) : List Bool :=
  [t.brp.toNat == 0, decide (256 < t.brp.toNat), t.prop.toNat == 0, decide (8 < t.prop.toNat),
   t.ps1.toNat == 0, decide (8 < t.ps1.toNat), t.ps2.toNat == 0, decide (8 < t.ps2.toNat),
   t.rjw.toNat == 0, decide (4 < t.rjw.toNat), decide (t.ps2.toNat < t.rjw.toNat), t.ps1.toNat == 1 && t.triple]

/-- The conditions of the FD consistency word, bit 0 first (R134). -/
def fdConditions (t : Timing) : List Bool :=
  [t.brp.toNat == 0, decide (1024 < t.brp.toNat), t.prop.toNat == 0, decide (64 < t.prop.toNat),
   t.ps1.toNat == 0, decide (32 < t.ps1.toNat), t.ps2.toNat == 0, decide (32 < t.ps2.toNat),
   t.rjw.toNat == 0, decide (32 < t.rjw.toNat), decide (t.ps2.toNat < t.rjw.toNat), t.ps1.toNat == 1 && t.triple,
   t.dprop.toNat == 0, decide (31 < t.dprop.toNat), t.dps1.toNat == 0, decide (8 < t.dps1.toNat),
   t.dps2.toNat == 0, decide (8 < t.dps2.toNat), t.drjw.toNat == 0, decide (8 < t.drjw.toNat),
   decide (t.dps2.toNat < t.drjw.toNat)]

theorem getLsbD_consistencyC (t : Timing) (n : Nat) :
    (consistencyC t).getLsbD n = (classicConditions t).getD n false := by
  have h := getLsbD_flagWord_zipIdx (classicConditions t) 0 n (by simp [classicConditions])
  exact h.trans (by simp)

theorem getLsbD_consistencyF (t : Timing) (n : Nat) :
    (consistencyF t).getLsbD n = (fdConditions t).getD n false := by
  have h := getLsbD_flagWord_zipIdx (fdConditions t) 0 n (by simp [fdConditions])
  exact h.trans (by simp)

theorem consistencyC_bit (t : Timing) (n : Nat) : (consistencyC t).getLsbD n = true ↔ classicBit t n := by
  rw [getLsbD_consistencyC]
  obtain hlt | hge := lt_or_ge n 12
  · interval_cases n <;> simp [classicConditions, classicBit, BitVec.toNat_eq]
  · obtain ⟨m, rfl⟩ := Nat.exists_eq_add_of_le' hge
    simp [classicConditions, classicBit]

theorem consistencyF_bit (t : Timing) (n : Nat) : (consistencyF t).getLsbD n = true ↔ fdBit t n := by
  rw [getLsbD_consistencyF]
  obtain hlt | hge := lt_or_ge n 21
  · interval_cases n <;> simp [fdConditions, fdBit, BitVec.toNat_eq]
  · obtain ⟨m, rfl⟩ := Nat.exists_eq_add_of_le' hge
    simp [fdConditions, fdBit]

/-- The word CHECK answers for a configuration, by its kind (R132). -/
def consistencyWord (t : Timing) : Word := if t.fd then consistencyF t else consistencyC t

theorem exec_check (s : State) :
    exec .check s = .next { s with err := .none, r0 := consistencyWord s.timing } := rfl

/-- Settles O29: the consistency words bit by bit. -/
theorem checkResult : Obligations.CheckResult := by
  refine ⟨decode_of_encode rfl, fun s => ⟨_, exec_check s, fun hfd n => ?_, fun hfd n => ?_⟩⟩
  · simpa [consistencyWord, hfd] using consistencyC_bit s.timing n
  · simpa [consistencyWord, hfd] using consistencyF_bit s.timing n

/-! ## The queries (R135 to R141) -/

/-- A quotient of a register is a register value. -/
theorem toNat_ofNat_div (x : Word) (n : Nat) : (BitVec.ofNat 32 (x.toNat / n)).toNat = x.toNat / n :=
  toNat_ofNat_of_lt ((Nat.div_le_self _ _).trans_lt x.isLt)

/-- A percentage is a register value. -/
theorem toNat_ofNat_percentage {k n : Nat} (h : k ≤ n) : (BitVec.ofNat 32 (100 * k / n)).toNat = 100 * k / n := by
  have : 100 * k / n ≤ 100 := Nat.div_le_of_le_mul (by omega)
  exact toNat_ofNat_of_lt (by omega)

/-- `W` of the timing registers, the clock cycles of one wished bit (R136, R137). -/
def clockCount (t : Timing) : Nat := t.rate.toNat * tqA t * t.brp.toNat * t.div.toNat

/-- What PPM answers (R137). -/
def ppmValue (t : Timing) : Nat :=
  min (((t.clk.toNat : Int) - (clockCount t : Nat)).natAbs * 1000000 / clockCount t) 0xFFFFFFFF

theorem toNat_ofNat_ppmValue (t : Timing) : (BitVec.ofNat 32 (ppmValue t)).toNat = ppmValue t := by
  have : ppmValue t < 2 ^ 32 := by simp only [ppmValue]; omega
  exact toNat_ofNat_of_lt this

theorem exec_ppm_of_zero {s : State} (h : clockCount s.timing = 0) :
    exec .ppm s = .next { s with err := .badOperand } :=
  congrArg Host.Outcome.next (if_pos h)

theorem exec_ppm_of_ne_zero {s : State} (h : clockCount s.timing ≠ 0) :
    exec .ppm s = .next { s with err := .none, r0 := BitVec.ofNat 32 (ppmValue s.timing) } := by
  rw [ppmValue, ← absDiff_eq_natAbs, Nat.mul_comm (absDiff _ _)]
  exact congrArg Host.Outcome.next (if_neg h)

/-- Settles O30: each query's value is in range of `R0`. -/
theorem queryResults : Obligations.QueryResults := by
  refine ⟨⟨decode_of_encode rfl, decode_of_encode rfl, decode_of_encode rfl, decode_of_encode rfl⟩, fun s =>
    ⟨fun h => congrArg Host.Outcome.next (if_pos h),
      fun hdiv hbrp => ⟨_, congrArg Host.Outcome.next (if_neg (not_or.2 ⟨hdiv, hbrp⟩)), toNat_ofNat_div _ _⟩, ?_,
      exec_ppm_of_zero, fun h => ⟨_, exec_ppm_of_ne_zero h, toNat_ofNat_ppmValue _⟩, _, rfl, ?_⟩⟩
  · rw [← boolWord_eq_oneIf]
    rfl
  · rw [← bool_toNat_eq_ite]
    exact toNat_ofNat_percentage (by simp only [tqA]; omega)

/-- A query of the data phase on a classic configuration (R139 to R141). -/
theorem refused_of_classic {s t : State} (h : s.timing.fd = false) :
    (done (if !s.timing.fd then refuse .badOperand s else t) : Host.Outcome State Fault Refusal)
      = .next { s with err := .badOperand } := by
  rw [h]
  rfl

theorem done_of_fd {s t : State} (h : s.timing.fd = true) :
    (done (if !s.timing.fd then refuse .badOperand s else t) : Host.Outcome State Fault Refusal) = .next t := by
  rw [h]
  rfl

/-- Settles O31: as O30, on the data phase and behind the check of `T_FLAGS.FD`. -/
theorem dataQueryResults : Obligations.DataQueryResults := by
  refine ⟨⟨decode_of_encode rfl, decode_of_encode rfl, decode_of_encode rfl⟩, fun s => ⟨?_, fun hfd hdiv hbrp =>
    ⟨_, ?_, toNat_ofNat_div _ _⟩, fun hfd => ⟨refused_of_classic hfd, refused_of_classic hfd⟩, fun hfd => ?_,
    fun hfd => ⟨_, done_of_fd hfd, toNat_ofNat_percentage (by simp only [tqD]; omega)⟩⟩⟩
  · intro h
    cases hfd : s.timing.fd
    · exact refused_of_classic hfd
    · exact (done_of_fd hfd).trans (congrArg Host.Outcome.next (if_pos (by simpa [hfd] using h)))
  · exact (done_of_fd hfd).trans (congrArg Host.Outcome.next (if_neg (not_or.2 ⟨hdiv, hbrp⟩)))
  · rw [← boolWord_eq_oneIf]
    exact done_of_fd hfd

/-! ## SOLVE and SOLVEFD (R120, R126, R130) -/

theorem solveBad_iff (s : State) : solveBad s = true ↔ badSolveOperands s := by
  simp [solveBad, badSolveOperands, Config.divMax, BitVec.toNat_eq, or_assoc]

theorem solveFdBad_iff (s : State) : solveFdBad s = true ↔ badSolveOperands s ∨ s.a4 = 0 ∨ 8 < s.a4.toNat := by
  simp [solveFdBad, solveBad_iff, Config.factorMax, BitVec.toNat_eq, or_assoc]

/-- The operands SOLVE accepts (R130). -/
theorem operands_of_not_bad {s : State} (h : ¬ badSolveOperands s) :
    1 ≤ s.a0.toNat ∧ 1 ≤ s.a2.toNat ∧ s.a2.toNat ≤ 255 := by
  unfold badSolveOperands at h
  bv_omega

/-- The factors SOLVEFD accepts (R130). -/
theorem factor_of_not_bad {s : State} (h : ¬ (badSolveOperands s ∨ s.a4 = 0 ∨ 8 < s.a4.toNat)) :
    ¬ badSolveOperands s ∧ 1 ≤ s.a4.toNat ∧ s.a4.toNat ≤ 8 := by
  obtain ⟨hops, hfactor⟩ := not_or.1 h
  exact ⟨hops, by bv_omega⟩

theorem storeTiming_eq (t : Timing) (s : State) :
    storeTiming t s = { s with err := .none, r0 := oneIf t.bitok, timing := t } := by
  rw [storeTiming, boolWord_eq_oneIf]
  rfl

theorem exec_solve_of_bad {s : State} (h : badSolveOperands s) : exec .solve s = .next { s with err := .badOperand } :=
  congrArg Host.Outcome.next (if_pos ((solveBad_iff s).2 h))

theorem exec_solve_of_not_bad {s : State} (h : ¬ badSolveOperands s) :
    let t := solveTiming s.a0 s.a1 s.a2 s.a3
    exec .solve s = .next { s with err := .none, r0 := oneIf t.bitok, timing := t } := by
  rw [← solveBad_iff] at h
  exact congrArg Host.Outcome.next ((if_neg h).trans (storeTiming_eq _ _))

theorem exec_solveFd_of_bad {s : State} (h : badSolveOperands s ∨ s.a4 = 0 ∨ 8 < s.a4.toNat) :
    exec .solveFd s = .next { s with err := .badOperand } :=
  congrArg Host.Outcome.next (if_pos ((solveFdBad_iff s).2 h))

theorem exec_solveFd_of_not_bad {s : State} (h : ¬ (badSolveOperands s ∨ s.a4 = 0 ∨ 8 < s.a4.toNat)) :
    let t := solveFdTiming s.a0 s.a1 s.a2 s.a3 s.a4
    exec .solveFd s = .next { s with err := .none, r0 := oneIf t.bitok, timing := t } := by
  rw [← solveFdBad_iff] at h
  exact congrArg Host.Outcome.next ((if_neg h).trans (storeTiming_eq _ _))

theorem tripleFlag_iff (f d p tq ps1 : Nat) :
    tripleFlag f d p tq ps1 = true ↔ f / (d * p * tq) ≤ 125000 ∧ 2 ≤ ps1 := by
  rw [tripleFlag, Bool.and_eq_true, decide_eq_true_iff, decide_eq_true_iff]
  rfl

theorem tolOk_iff (f w tol : Nat) :
    tolOk f w tol = true ↔ ((f : Int) - (w : Nat)).natAbs * 1000000 ≤ w * tol := by
  rw [← absDiff_eq_natAbs, Nat.mul_comm (absDiff f w)]
  exact decide_eq_true_iff

theorem timingFlags_triple_iff (f d p tq ps1 : Nat) (b c : Bool) :
    (timingFlags (tripleFlag f d p tq ps1) b c).getLsbD 0 = true ↔ f / (d * p * tq) ≤ 125000 ∧ 2 ≤ ps1 := by
  rw [timingFlags_triple, tripleFlag_iff]

theorem timingFlags_bitok_iff (f w tol : Nat) (a c : Bool) :
    (timingFlags a (tolOk f w tol) c).getLsbD 1 = true
      ↔ ((f : Int) - (w : Nat)).natAbs * 1000000 ≤ w * tol := by
  rw [timingFlags_bitok, tolOk_iff]

/-- The pair SOLVE searches (R120). -/
theorem solve_search_inRange {s : State} (h : ¬ badSolveOperands s) :
    let r := search s.a0.toNat s.a1.toNat s.a2.toNat 25 256
    1 ≤ r.1 ∧ r.1 ≤ 256 ∧ 5 ≤ r.2 ∧ r.2 ≤ 25 := by
  obtain ⟨hb, hd, -⟩ := operands_of_not_bad h
  exact search_inRange hb hd (by decide) (by decide)

/-- The pair SOLVEFD searches, and the count of the arbitration phase (R126, R128). -/
theorem solveFd_search_inRange {s : State} (h : ¬ (badSolveOperands s ∨ s.a4 = 0 ∨ 8 < s.a4.toNat)) :
    let k := s.a4.toNat
    let r := search (s.a0.toNat * k) s.a1.toNat s.a2.toNat (min 48 (129 / k)) 1024
    1 ≤ r.1 ∧ r.1 ≤ 1024 ∧ 5 ≤ r.2 ∧ r.2 ≤ 48 ∧ 5 ≤ r.2 * k ∧ r.2 * k ≤ 129 := by
  obtain ⟨hops, hk1, hk8⟩ := factor_of_not_bad h
  obtain ⟨hb, hd, -⟩ := operands_of_not_bad hops
  have hrange : 16 ≤ 129 / s.a4.toNat := (Nat.le_div_iff_mul_le hk1).2 (by omega)
  obtain ⟨hp1, hp, htq, hle⟩ := search_inRange (f := s.a1.toNat) (pMax := 1024)
    (Nat.mul_pos hb hk1) hd (show 5 ≤ min 48 (129 / s.a4.toNat) by omega) (by decide)
  exact ⟨hp1, hp, htq, hle.trans (min_le_left _ _), htq.trans (Nat.le_mul_of_pos_right _ hk1),
    (Nat.le_div_iff_mul_le hk1).1 (hle.trans (min_le_right _ _))⟩

/-- Settles O25: every field fits its register by the bounds of the search and of the apportionment. -/
theorem solveResult : Obligations.SolveResult := by
  refine ⟨decode_of_encode rfl, fun s => exec_solve_of_bad, fun s h => ⟨_, exec_solve_of_not_bad h, ?_⟩⟩
  obtain ⟨-, -, hd⟩ := operands_of_not_bad h
  obtain ⟨-, hp, htq, hle⟩ := solve_search_inRange h
  obtain ⟨-, hprop, -, hps1, -, hps2⟩ := apportion_bounds_short htq (by omega)
  exact ⟨toNat_ofNat_of_lt (hp.trans_lt (by decide)), toNat_ofNat_of_lt (hprop.trans_lt (by decide)),
    toNat_ofNat_of_lt (hps1.trans_lt (by decide)), toNat_ofNat_of_lt (hps2.trans_lt (by decide)),
    toNat_ofNat_of_lt ((min_le_right _ 4).trans_lt (by decide)), rfl, rfl,
    toNat_setWidth_of_lt (hd.trans_lt (by decide)), rfl, rfl, rfl, rfl, rfl, timingFlags_fd _ _ _,
    timingFlags_triple_iff _ _ _ _ _ _ _, timingFlags_bitok_iff _ _ _ _ _⟩

/-- Settles O26: as O25, with both phases. -/
theorem solveFdResult : Obligations.SolveFdResult := by
  refine ⟨decode_of_encode rfl, fun s => exec_solveFd_of_bad, fun s h => ⟨_, exec_solveFd_of_not_bad h, ?_⟩⟩
  obtain ⟨hops, -, hk⟩ := factor_of_not_bad h
  obtain ⟨-, -, hd⟩ := operands_of_not_bad hops
  obtain ⟨-, hp, htq, hle, htqa, hlea⟩ := solveFd_search_inRange h
  obtain ⟨-, hprop, -, hps1, -, hps2⟩ := apportion_bounds_long htqa hlea
  obtain ⟨-, hdprop, -, hdps1, -, hdps2⟩ := apportion_bounds_short htq hle
  exact ⟨toNat_ofNat_of_lt (hp.trans_lt (by decide)), toNat_ofNat_of_lt (hprop.trans_lt (by decide)),
    toNat_ofNat_of_lt (hps1.trans_lt (by decide)), toNat_ofNat_of_lt (hps2.trans_lt (by decide)),
    toNat_ofNat_of_lt ((min_le_right _ 32).trans_lt (by decide)), toNat_ofNat_of_lt (hdprop.trans_lt (by decide)),
    toNat_ofNat_of_lt (hdps1.trans_lt (by decide)), toNat_ofNat_of_lt (hdps2.trans_lt (by decide)),
    toNat_ofNat_of_lt ((min_le_right _ 8).trans_lt (by decide)), rfl, rfl,
    toNat_setWidth_of_lt (hd.trans_lt (by decide)), toNat_setWidth_of_lt (hk.trans_lt (by decide)),
    timingFlags_fd _ _ _, timingFlags_triple_iff _ _ _ _ _ _ _, timingFlags_bitok_iff _ _ _ _ _⟩

/-! ## What a solved configuration guarantees (R129) -/

/-- The classic bounds of R131, with the rule of R125. -/
def ClassicBounds (t : Timing) : Prop :=
  (1 ≤ t.brp.toNat ∧ t.brp.toNat ≤ 256) ∧ (1 ≤ t.prop.toNat ∧ t.prop.toNat ≤ 8)
    ∧ (1 ≤ t.ps1.toNat ∧ t.ps1.toNat ≤ 8) ∧ (1 ≤ t.ps2.toNat ∧ t.ps2.toNat ≤ 8)
    ∧ (1 ≤ t.rjw.toNat ∧ t.rjw.toNat ≤ 4 ∧ t.rjw.toNat ≤ t.ps2.toNat) ∧ (t.triple = true → 2 ≤ t.ps1.toNat)

/-- The bounds of R131 for the two phases of FD, with the rule of R125. -/
def FdBounds (t : Timing) : Prop :=
  (1 ≤ t.brp.toNat ∧ t.brp.toNat ≤ 1024) ∧ (1 ≤ t.prop.toNat ∧ t.prop.toNat ≤ 64)
    ∧ (1 ≤ t.ps1.toNat ∧ t.ps1.toNat ≤ 32) ∧ (1 ≤ t.ps2.toNat ∧ t.ps2.toNat ≤ 32)
    ∧ (1 ≤ t.rjw.toNat ∧ t.rjw.toNat ≤ 32 ∧ t.rjw.toNat ≤ t.ps2.toNat) ∧ (t.triple = true → 2 ≤ t.ps1.toNat)
    ∧ (1 ≤ t.dprop.toNat ∧ t.dprop.toNat ≤ 31) ∧ (1 ≤ t.dps1.toNat ∧ t.dps1.toNat ≤ 8)
    ∧ (1 ≤ t.dps2.toNat ∧ t.dps2.toNat ≤ 8) ∧ (1 ≤ t.drjw.toNat ∧ t.drjw.toNat ≤ 8 ∧ t.drjw.toNat ≤ t.dps2.toNat)

/-- No bit of the consistency word is set within the bounds (R133). -/
theorem ClassicBounds.not_classicBit {t : Timing} (h : ClassicBounds t) (n : Nat) : ¬ classicBit t n := by
  obtain ⟨hbrp, hprop, hps1, hps2, hrjw, htriple⟩ := h
  unfold classicBit
  split
  case h_12 =>
    rintro ⟨hone, hset⟩
    have := htriple hset
    bv_omega
  case h_13 => exact not_false
  all_goals bv_omega

/-- No bit of the consistency word is set within the bounds (R134). -/
theorem FdBounds.not_fdBit {t : Timing} (h : FdBounds t) (n : Nat) : ¬ fdBit t n := by
  obtain ⟨hbrp, hprop, hps1, hps2, hrjw, htriple, hdprop, hdps1, hdps2, hdrjw⟩ := h
  unfold fdBit
  split
  case h_12 =>
    rintro ⟨hone, hset⟩
    have := htriple hset
    bv_omega
  case h_22 => exact not_false
  all_goals bv_omega

theorem ClassicBounds.consistencyWord_eq_zero {t : Timing} (h : ClassicBounds t) (hfd : t.fd = false) :
    consistencyWord t = 0 := by
  rw [consistencyWord, hfd, word_eq_zero_iff]
  exact fun n _ => Bool.eq_false_iff.2 fun hn => h.not_classicBit n ((consistencyC_bit t n).1 hn)

theorem FdBounds.consistencyWord_eq_zero {t : Timing} (h : FdBounds t) (hfd : t.fd = true) :
    consistencyWord t = 0 := by
  rw [consistencyWord, hfd, word_eq_zero_iff]
  exact fun n _ => Bool.eq_false_iff.2 fun hn => h.not_fdBit n ((consistencyF_bit t n).1 hn)

/-- CHECK on an accepted command's state whose configuration is consistent. -/
theorem exec_check_of_consistent {t : State} (herr : t.err = .none) (h : consistencyWord t.timing = 0) :
    exec .check t = .next { t with r0 := 0 } := by
  rw [exec_check, h, ← herr]

/-- What SOLVE leaves (R129 (a) to (d)). -/
theorem solve_bounds {s t : State} (h : ¬ badSolveOperands s) (hst : exec .solve s = .next t) :
    t.err = .none ∧ t.timing.fd = false ∧ ClassicBounds t.timing := by
  obtain ⟨-, -, hsolve⟩ := solveResult
  obtain ⟨u, hu, hbrp, hprop, hps1, hps2, hrjw, -, -, -, -, -, -, -, -, hfd, htriple, -⟩ := hsolve s h
  obtain rfl := Host.Outcome.next.inj (hst.symm.trans hu)
  obtain ⟨hp1, hp, htq, hle⟩ := solve_search_inRange h
  have hseg := apportion_bounds_short htq (by omega)
  have hclassic := apportion_prop_classic hle
  refine ⟨rfl, hfd, ?_⟩
  simp only [ClassicBounds, hbrp, hprop, hps1, hps2, hrjw, htriple]
  omega

/-- What SOLVEFD leaves (R129 (a) to (d)). -/
theorem solveFd_bounds {s t : State} (h : ¬ (badSolveOperands s ∨ s.a4 = 0 ∨ 8 < s.a4.toNat))
    (hst : exec .solveFd s = .next t) : t.err = .none ∧ t.timing.fd = true ∧ FdBounds t.timing := by
  obtain ⟨-, -, hsolve⟩ := solveFdResult
  obtain ⟨u, hu, hbrp, hprop, hps1, hps2, hrjw, hdprop, hdps1, hdps2, hdrjw, -, -, -, -, hfd, htriple, -⟩ := hsolve s h
  obtain rfl := Host.Outcome.next.inj (hst.symm.trans hu)
  obtain ⟨hp1, hp, htq, hle, htqa, hlea⟩ := solveFd_search_inRange h
  have hseg := apportion_bounds_long htqa hlea
  have hdseg := apportion_bounds_short htq hle
  refine ⟨rfl, hfd, ?_⟩
  simp only [FdBounds, hbrp, hprop, hps1, hps2, hrjw, hdprop, hdps1, hdps2, hdrjw, htriple]
  omega

/-- Settles O27: the fields are within the bounds of R131, and CHECK answers 0 within them. -/
theorem solveThenCheckIsZero : Obligations.SolveThenCheckIsZero := by
  refine ⟨fun s t h hst => ?_, fun s t h hst => ?_⟩
  · obtain ⟨herr, hfd, hbounds⟩ := solve_bounds h hst
    have hcheck := exec_check_of_consistent herr (hbounds.consistencyWord_eq_zero hfd)
    obtain ⟨⟨hbrp, hbrp'⟩, -, -, -, ⟨hrjw, -, hrjw'⟩, htriple⟩ := hbounds
    exact ⟨hbrp, hbrp', hrjw, hrjw', htriple, hcheck⟩
  · obtain ⟨herr, hfd, hbounds⟩ := solveFd_bounds h hst
    have hcheck := exec_check_of_consistent herr (hbounds.consistencyWord_eq_zero hfd)
    obtain ⟨⟨hbrp, hbrp'⟩, -, -, -, ⟨hrjw, -, hrjw'⟩, htriple, -, -, -, hdrjw, -, hdrjw'⟩ := hbounds
    exact ⟨hbrp, hbrp', hrjw, hrjw', hdrjw, hdrjw', htriple, hcheck⟩

/-! ## The tolerance (R127, R137) -/

/-- `BITOK` is the comparison of R127 with the `W` of the timing registers. -/
def BitokByTolerance (t : Timing) (tol : Word) : Prop :=
  t.bitok = true
    ↔ ((t.clk.toNat : Int) - (clockCount t : Nat)).natAbs * 1000000 ≤ clockCount t * tol.toNat

/-- PPM rounds its quotient down, so `BITOK` bounds it, and it bounds `BITOK` only below the tolerance. -/
theorem BitokByTolerance.ppmValue_bounds {t : Timing} {tol : Word} (h : BitokByTolerance t tol)
    (hpos : clockCount t ≠ 0) :
    (t.bitok = true → ppmValue t ≤ tol.toNat) ∧ (ppmValue t < tol.toNat → t.bitok = true) := by
  have htol := tol.isLt
  unfold BitokByTolerance at h
  rw [h, ppmValue]
  generalize ((t.clk.toNat : Int) - (clockCount t : Nat)).natAbs * 1000000 = n
  refine ⟨fun hle => (min_le_left _ _).trans (Nat.div_le_of_le_mul hle), fun hlt => ?_⟩
  have hquot : n / clockCount t < tol.toNat := by omega
  rw [Nat.mul_comm]
  exact ((Nat.div_lt_iff_lt_mul (Nat.pos_of_ne_zero hpos)).1 hquot).le

/-- PPM directly after an accepted command. -/
theorem exec_ppm_tolerance {t : State} {tol : Word} (herr : t.err = .none) (hpos : clockCount t.timing ≠ 0)
    (h : BitokByTolerance t.timing tol) :
    ∃ v, exec .ppm t = .next { t with r0 := v }
      ∧ (t.timing.bitok = true → v.toNat ≤ tol.toNat) ∧ (v.toNat < tol.toNat → t.timing.bitok = true) := by
  refine ⟨BitVec.ofNat 32 (ppmValue t.timing), ?_, ?_⟩
  · rw [exec_ppm_of_ne_zero hpos, ← herr]
  · rw [toNat_ofNat_ppmValue]
    exact h.ppmValue_bounds hpos

theorem clockCount_ne_zero {t : Timing} (hrate : 1 ≤ t.rate.toNat) (hbrp : 1 ≤ t.brp.toNat) (hdiv : 1 ≤ t.div.toNat) :
    clockCount t ≠ 0 := by
  have : 0 < tqA t := by unfold tqA; omega
  unfold clockCount
  positivity

theorem solve_bitok {s t : State} (h : ¬ badSolveOperands s) (hst : exec .solve s = .next t) :
    clockCount t.timing ≠ 0 ∧ BitokByTolerance t.timing s.a3 := by
  obtain ⟨-, -, hsolve⟩ := solveResult
  obtain ⟨u, hu, hbrp, hprop, hps1, hps2, -, hrate, hclk, hdiv, -, -, -, -, -, -, -, hbitok⟩ := hsolve s h
  obtain rfl := Host.Outcome.next.inj (hst.symm.trans hu)
  obtain ⟨hb, hd, -⟩ := operands_of_not_bad h
  obtain ⟨hp1, -, htq, -⟩ := solve_search_inRange h
  refine ⟨clockCount_ne_zero (by rwa [hrate]) (by rwa [hbrp]) (by rwa [hdiv]), ?_⟩
  rw [BitokByTolerance, clockCount, tqA, hclk, hrate, hbrp, hdiv, hprop, hps1, hps2, apportion_sum htq]
  exact hbitok

theorem solveFd_bitok {s t : State} (h : ¬ (badSolveOperands s ∨ s.a4 = 0 ∨ 8 < s.a4.toNat))
    (hst : exec .solveFd s = .next t) : clockCount t.timing ≠ 0 ∧ BitokByTolerance t.timing s.a3 := by
  obtain ⟨-, -, hsolve⟩ := solveFdResult
  obtain ⟨u, hu, hbrp, hprop, hps1, hps2, -, -, -, -, -, hrate, hclk, hdiv, -, -, -, hbitok⟩ := hsolve s h
  obtain rfl := Host.Outcome.next.inj (hst.symm.trans hu)
  obtain ⟨hb, hd, -⟩ := operands_of_not_bad (factor_of_not_bad h).1
  obtain ⟨hp1, -, -, -, htqa, -⟩ := solveFd_search_inRange h
  refine ⟨clockCount_ne_zero (by rwa [hrate]) (by rwa [hbrp]) (by rwa [hdiv]), ?_⟩
  rw [BitokByTolerance, clockCount, tqA, hclk, hrate, hbrp, hdiv, hprop, hps1, hps2, apportion_sum htqa]
  rw [mul_right_comm _ s.a4.toNat, mul_assoc s.a0.toNat] at hbitok
  exact hbitok

/-- Operands whose error is a little more than the tolerance allows, and less than one part per million more. -/
def atTolerance : State := { State.reset with a0 := 842000, a1 := 60000000, a2 := 1, a3 := 10292 }

/-- Settles O28: both directions by the rounding of PPM, and `atTolerance`, where it makes the difference. -/
theorem toleranceLaw : Obligations.ToleranceLaw := by
  refine ⟨fun s t hst => ?_, atTolerance, _, by unfold badSolveOperands; decide, rfl, by decide, _, rfl, by decide⟩
  obtain ⟨h, hst⟩ | ⟨h, hst⟩ := hst
  · obtain ⟨herr, -⟩ := solve_bounds h hst
    obtain ⟨hpos, hbitok⟩ := solve_bitok h hst
    exact exec_ppm_tolerance herr hpos hbitok
  · obtain ⟨herr, -⟩ := solveFd_bounds h hst
    obtain ⟨hpos, hbitok⟩ := solveFd_bitok h hst
    exact exec_ppm_tolerance herr hpos hbitok

end Sys2Proof.Machine

/-! The statements of the filter-mask encoder's file: the pair of a filter specification bit by bit, what an encoded
filter accepts, and the staging lists. -/

namespace Sys2Proof.Machine

/-! ## The identifier field of a filter word (R151 to R153) -/

theorem widestId_eq (fmt : Format) : widestId fmt = (idMax fmt).toNat := by cases fmt <;> rfl

/-- An identifier within its format's range loses nothing when it is cut to the field (R154). -/
theorem and_idMax_eq_self {fmt : Format} {x : Word} (h : x.toNat ≤ widestId fmt) : x &&& idMax fmt = x := by
  refine BitVec.eq_of_toNat_eq ?_
  rw [BitVec.toNat_and]
  cases fmt
  · exact Nat.and_two_pow_sub_one_of_lt_two_pow (n := 11) (Nat.lt_succ_of_le h)
  · exact Nat.and_two_pow_sub_one_of_lt_two_pow (n := 29) (Nat.lt_succ_of_le h)

/-- The field bits of `x` are the bits of `x` cut to the field, moved up to the field's offset. -/
theorem fieldBit_eq (fmt : Format) (sh : Nat) (x : Word) (n : Nat) :
    fieldBit fmt sh x n = (decide (filterShift sh fmt ≤ n) && (x &&& idMax fmt).getLsbD (n - filterShift sh fmt)) := by
  cases fmt
  · rw [BitVec.getLsbD_and, idMax_std_bit]
    grind [fieldBit, filterShift]
  · rw [BitVec.getLsbD_and, idMax_ext_bit]
    grind [fieldBit, filterShift, Config.shiftExt]

theorem fieldBit_add_shift (fmt : Format) (sh : Nat) (x : Word) (i : Nat) :
    fieldBit fmt sh x (i + filterShift sh fmt) = (x &&& idMax fmt).getLsbD i := by
  simp [fieldBit_eq]

theorem fieldBit_and (fmt : Format) (sh : Nat) (x y : Word) (n : Nat) :
    fieldBit fmt sh (x &&& y) n = (fieldBit fmt sh x n && fieldBit fmt sh y n) := by
  cases fmt <;> simp only [fieldBit, BitVec.getLsbD_and, Bool.and_assoc, Bool.and_left_comm, Bool.and_self_left]

/-- The field lies in bits 29:1 of a filter word (R152). -/
theorem fieldBit_range {fmt : Format} {sh n : Nat} {x : Word} (h1 : 1 ≤ sh) (h19 : sh ≤ 19)
    (h : fieldBit fmt sh x n = true) : 0 < n ∧ n < 30 := by
  cases fmt <;> simp only [fieldBit, Bool.and_eq_true, decide_eq_true_eq] at h <;> omega

theorem fieldBit_eq_false {fmt : Format} {sh n : Nat} {x : Word} (h1 : 1 ≤ sh) (h19 : sh ≤ 19)
    (h : ¬ (0 < n ∧ n < 30)) : fieldBit fmt sh x n = false :=
  Bool.eq_false_iff.2 fun hn => h (fieldBit_range h1 h19 hn)

/-- Two identifiers within their format's range have the same field only if they are the same. -/
theorem eq_of_fieldBit_eq {fmt : Format} {sh : Nat} {x y : Word} (hx : x.toNat ≤ widestId fmt)
    (hy : y.toNat ≤ widestId fmt) (h : ∀ n, fieldBit fmt sh x n = fieldBit fmt sh y n) : x = y := by
  rw [← and_idMax_eq_self hx, ← and_idMax_eq_self hy]
  refine BitVec.eq_of_getLsbD_eq fun i _ => ?_
  rw [← fieldBit_add_shift fmt sh, ← fieldBit_add_shift fmt sh, h]

/-- An identifier has the acceptance bits at every mask bit of the field exactly when it is the acceptance value under
the mask (R165). -/
theorem fieldBit_agree_iff {fmt : Format} {sh : Nat} {m a : Word} (x : Word) (hm : m.toNat ≤ widestId fmt)
    (ha : a.toNat ≤ widestId fmt) (hma : m &&& a = a) :
    (∀ n, fieldBit fmt sh m n = true → fieldBit fmt sh x n = fieldBit fmt sh a n) ↔ x &&& m = a := by
  constructor
  · intro h
    have hxm : (x &&& m).toNat ≤ widestId fmt := by
      rw [BitVec.toNat_and]
      exact Nat.and_le_right.trans hm
    refine eq_of_fieldBit_eq (sh := sh) hxm ha fun n => ?_
    rw [← hma, fieldBit_and, fieldBit_and]
    cases hn : fieldBit fmt sh m n
    · simp
    · simp [h n hn]
  · rintro rfl n hn
    simp [fieldBit_and, hn]

/-! ## Filter words and header words (R87, R151, R153) -/

/-- A word with the bits `r` and `e` above the identifier field of `x`: the form of a mask word, of an acceptance word
without its soft error flag, and of a header word. -/
def filterWord (r e : Bool) (fmt : Format) (sh : Nat) (x : Word) : Word :=
  bitAt r 31 ||| bitAt e 30 ||| ((x &&& idMax fmt) <<< filterShift sh fmt)

theorem getLsbD_filterWord (r e : Bool) (fmt : Format) {sh n : Nat} (x : Word) (h1 : 1 ≤ sh) (h19 : sh ≤ 19)
    (hn : n < 32) :
    (filterWord r e fmt sh x).getLsbD n = if n = 31 then r else if n = 30 then e else fieldBit fmt sh x n := by
  have hfield : ((x &&& idMax fmt) <<< filterShift sh fmt).getLsbD n = fieldBit fmt sh x n := by
    simp only [fieldBit_eq, BitVec.getLsbD_shiftLeft, decide_eq_true hn, Bool.true_and, ← decide_not, Nat.not_lt]
  have hhigh : 30 ≤ n → fieldBit fmt sh x n = false := fun h30 =>
    fieldBit_eq_false h1 h19 fun h => absurd h.2 (by omega)
  simp (disch := decide) only [filterWord, BitVec.getLsbD_or, getLsbD_bitAt, hfield]
  by_cases h31 : n = 31
  · rw [hhigh (by omega)]
    simp [h31]
  · by_cases h30 : n = 30
    · rw [hhigh h30.ge]
      simp [h30]
    · simp [h31, h30]

theorem encFilter_mw (kind : FilterKind) (fmt : Format) (m a : Word) (sh : Nat) :
    (encFilter kind fmt m a sh).mw = filterWord true true fmt sh m := rfl

theorem encFilter_aw (kind : FilterKind) (fmt : Format) (m a : Word) (sh : Nat) :
    (encFilter kind fmt m a sh).aw
      = filterWord (bitOfKind kind) (bitOfFormat fmt) fmt sh a ||| bitAt (softError fmt m a) 0 := rfl

theorem bitOfKind_eq (kind : FilterKind) : bitOfKind kind = decide (kind = .remote) := by cases kind <;> rfl

theorem bitOfFormat_eq (fmt : Format) : bitOfFormat fmt = decide (fmt = .ext) := by cases fmt <;> rfl

theorem idOk_iff_le_widestId (f : Frame) : idOk f = true ↔ (f.id.setWidth 32).toNat ≤ widestId f.ext := by
  have hid := f.id.isLt
  rw [idOk_iff, BitVec.toNat_setWidth_of_le (by decide)]
  cases f.ext
  · simp [widestId]
  · exact iff_of_true nofun (Nat.le_of_lt_succ hid)

/-- The header word of a well-formed frame has the form of a filter word (R87). -/
theorem headerWord_eq {f : Frame} (sh : Nat) (h : idOk f = true) :
    headerWord sh f
      = filterWord (decide (f.kind = .remote)) (decide (f.ext = .ext)) f.ext sh (f.id.setWidth 32) := by
  rw [filterWord, and_idMax_eq_self ((idOk_iff_le_widestId f).1 h), headerWord, bitOfFormat_eq]
  cases f.ext <;> rfl

theorem softError_iff (fmt : Format) (m a : Word) :
    softError fmt m a = true ↔ widestId fmt < a.toNat ∨ widestId fmt < m.toNat ∨ m &&& a ≠ a := by
  simp [softError, widestId_eq, or_assoc]

/-- The encoder gives the pair of the tables (R151 to R155). -/
theorem encodedPair_encFilter (kind : FilterKind) (fmt : Format) (m a : Word) {sh : Nat} (h1 : 1 ≤ sh)
    (h19 : sh ≤ 19) : EncodedPair kind fmt m a sh (encFilter kind fmt m a sh) := by
  refine ⟨fun n hn => ?_, fun n h0 hn => ?_, ?_⟩
  · rw [encFilter_mw, getLsbD_filterWord _ _ _ _ h1 h19 hn]
  · rw [encFilter_aw, BitVec.getLsbD_or, getLsbD_filterWord _ _ _ _ h1 h19 hn, getLsbD_bitAt _ _ (by decide),
      bitOfKind_eq, bitOfFormat_eq]
    simp [h0.ne']
  · have hfield : fieldBit fmt sh a 0 = false := fieldBit_eq_false h1 h19 (by decide)
    rw [encFilter_aw, BitVec.getLsbD_or, getLsbD_filterWord _ _ _ _ h1 h19 (by decide), getLsbD_bitAt _ _ (by decide),
      ← softError_iff]
    simp [hfield]

/-- Settles O32: each command answers the encoder's pair, at its own offset. -/
theorem encodeResult : Obligations.EncodeResult := by
  refine ⟨fun kind fmt => ?_, fun s kind fmt => ⟨?_, fun h1 h19 => ?_⟩⟩
  · cases kind <;> cases fmt <;> decide
  · exact ⟨_, rfl, rfl, encodedPair_encFilter kind fmt s.a0 s.a1 (by decide) (by decide)⟩
  · exact ⟨_, rfl, encodedPair_encFilter kind fmt s.a0 s.a1 h1 h19⟩

/-- A pair without soft error encodes operands within the format's range, the acceptance bits inside the mask (R154). -/
theorem EncodedPair.operands {kind : FilterKind} {fmt : Format} {m a : Word} {sh : Nat} {p : FilterPair}
    (h : EncodedPair kind fmt m a sh p) (h0 : p.aw.getLsbD 0 = false) :
    a.toNat ≤ widestId fmt ∧ m.toNat ≤ widestId fmt ∧ m &&& a = a := by
  obtain ⟨-, -, hsoft⟩ := h
  simpa [not_or] using hsoft.not.1 (ne_true_of_eq_false h0)

/-- Settles O33: bit 0 is in no mask word, and without a soft error every field bit of the acceptance value is one of
the mask. -/
theorem encodedSubset : Obligations.EncodedSubset := by
  intro kind fmt m a sh h1 h19 p
  have hp : EncodedPair kind fmt m a sh p := encodedPair_encFilter kind fmt m a h1 h19
  have ⟨hmw, haw, _⟩ := hp
  constructor
  · intro h
    have hmw0 : p.mw.getLsbD 0 = false := (hmw 0 (by decide)).trans (fieldBit_eq_false h1 h19 (by decide))
    rw [← h, BitVec.getLsbD_and, hmw0, Bool.false_and]
  · intro h0
    obtain ⟨-, -, hma⟩ := hp.operands h0
    refine BitVec.eq_of_getLsbD_eq fun n hn => ?_
    rw [BitVec.getLsbD_and]
    rcases Nat.eq_zero_or_pos n with rfl | hpos
    · rw [h0, Bool.and_false]
    · rw [hmw n hn, haw n hpos hn]
      split
      · rw [Bool.true_and]
      · split
        · rw [Bool.true_and]
        · rw [← fieldBit_and, hma]

/-! ## Matching (R87, R165) -/

theorem filterMatch_iff (sh : Nat) (p : FilterPair) (f : Frame) :
    filterMatch sh p f = true
      ↔ ∀ n, n < 32 → p.mw.getLsbD n = true → (headerWord sh f).getLsbD n = p.aw.getLsbD n := by
  rw [filterMatch, beq_iff_eq, BitVec.eq_of_getLsbD_eq_iff]
  refine forall₂_congr fun n _ => ?_
  rw [BitVec.getLsbD_and, BitVec.getLsbD_and]
  cases p.mw.getLsbD n <;> simp

/-- The bits of a filter word are `KIND`, `FORMAT` and those below (R151). -/
theorem forall_bit_iff {P : Nat → Prop} : (∀ n, n < 32 → P n) ↔ P 31 ∧ P 30 ∧ ∀ n, n < 30 → P n := by
  constructor
  · exact fun h => ⟨h 31 (by decide), h 30 (by decide), fun n hn => h n (by omega)⟩
  · rintro ⟨h31, h30, hlow⟩ n hn
    obtain rfl | rfl | hn : n = 31 ∨ n = 30 ∨ n < 30 := by omega
    exacts [h31, h30, hlow n hn]

/-- A frame matches an encoded pair when kind and format are the filter's and the identifier has the acceptance bits at
every mask bit of the field; bit 0 is never compared. -/
theorem EncodedPair.filterMatch_iff {kind : FilterKind} {fmt : Format} {m a : Word} {sh : Nat} {p : FilterPair}
    {f : Frame} (hp : EncodedPair kind fmt m a sh p) (h1 : 1 ≤ sh) (h19 : sh ≤ 19) (hid : idOk f = true) :
    filterMatch sh p f = true ↔
      (f.kind = .remote ↔ kind = .remote) ∧ f.ext = fmt
        ∧ ∀ n, fieldBit fmt sh m n = true → fieldBit f.ext sh (f.id.setWidth 32) n = fieldBit fmt sh a n := by
  obtain ⟨hmw, haw, -⟩ := hp
  have hhead : ∀ n, n < 32 → (headerWord sh f).getLsbD n = _ := fun n hn =>
    (congrArg (BitVec.getLsbD · n) (headerWord_eq sh hid)).trans (getLsbD_filterWord _ _ _ _ h1 h19 hn)
  rw [Machine.filterMatch_iff, forall_bit_iff]
  refine and_congr ?_ (and_congr ?_ (forall_congr' fun n => ?_))
  · rw [hmw 31 (by decide), haw 31 (by decide) (by decide), hhead 31 (by decide)]
    simp
  · rw [hmw 30 (by decide), haw 30 (by decide) (by decide), hhead 30 (by decide)]
    cases f.ext <;> cases fmt <;> simp
  · by_cases hn : 0 < n ∧ n < 30
    · have h32 : n < 32 := by omega
      have h31 : n ≠ 31 := by omega
      have h30 : n ≠ 30 := by omega
      simp only [hmw n h32, haw n hn.1 h32, hhead n h32, h31, h30, if_false, hn.2, true_imp_iff]
    · have hmask : n < 30 → p.mw.getLsbD n = false := by
        intro hlt
        obtain rfl : n = 0 := by omega
        exact (hmw 0 (by decide)).trans (fieldBit_eq_false h1 h19 hn)
      simp +contextual [hmask, fieldBit_eq_false h1 h19 hn]

/-- Settles O34: without a soft error the compared identifier bits are those of the mask. -/
theorem encodedAccepts : Obligations.EncodedAccepts := by
  intro kind fmt m a sh f h1 h19 h0 hid
  have hp := encodedPair_encFilter kind fmt m a h1 h19
  obtain ⟨ha, hm, hma⟩ := hp.operands h0
  rw [hp.filterMatch_iff h1 h19 hid]
  refine and_congr_right fun _ => and_congr_right fun hfmt => ?_
  rw [hfmt, fieldBit_agree_iff _ hm ha hma]

/-- Settles O35: a mask word of 0 compares no bit. -/
theorem encanyResult : Obligations.EncanyResult :=
  ⟨by decide, fun _ => rfl, fun sh f => (filterMatch_iff sh _ f).2 fun n _ h => by simp at h⟩

/-! ## The staging lists (R160 to R163) -/

/-- A push stores its entry at the counter if there is room and counts it in any case (R160 to R162). -/
theorem pushEffect_stagePush (limit : Nat) (e : FilterEntry) (n : Byte) (m : Memory FilterEntry) :
    PushEffect limit e n (stageCount n) m (stagePush limit n m e) := by
  have hcount : (stageCount n).toNat = min 255 (n.toNat + 1) := by
    rw [stageCount_toNat]
    have := n.isLt
    split <;> omega
  refine ⟨hcount, ?_⟩
  by_cases hroom : n.toNat < limit
  · have hstore : stagePush limit n m e = m.write n.toNat e := if_pos hroom
    rw [hstore]
    exact ⟨fun _ => read?_write_same m _ e, fun hfull => absurd hroom (by omega), fun _ hi => read?_write_other m e hi,
      write_wf _ e⟩
  · have hkeep : stagePush limit n m e = m := if_neg hroom
    rw [hkeep]
    exact ⟨fun h => absurd h hroom, fun _ => rfl, fun _ _ => rfl, id⟩

/-- Settles O36: the three pushes are one push, each to its own list. -/
theorem fpushResult : Obligations.FpushResult :=
  ⟨by decide, fun _ => ⟨⟨_, _, rfl, pushEffect_stagePush _ _ _ _⟩, ⟨_, _, rfl, pushEffect_stagePush _ _ _ _⟩,
    _, _, rfl, pushEffect_stagePush _ _ _ _⟩⟩

/-- Settles O37: the two commands write what their meanings say (R163, R170). -/
theorem nopFclearResult : Obligations.NopFclearResult := ⟨by decide, fun _ => ⟨rfl, rfl⟩⟩

end Sys2Proof.Machine

/-! The statements of the configurator's file: the life cycle, the configuration error words, BEGIN, BEGINFD, END and
GSCLR. -/

namespace Sys2Proof.Machine

/-! ## Acknowledgements (R90, R171) -/

/-- A step takes the acknowledgement that comes next. -/
theorem step_ack {s : State} {a : Ack} {rest : List Input} (hs : s.inputs = .ack a :: rest) :
    step s = .next (takeAck a { s with inputs := rest }) := step_cons hs

theorem takeAck_beginUnfrozen {s : State} (h : s.waitpt = .beginUnfrozen) : takeAck .unfrozen s = beginPhaseC s := by
  simp only [takeAck, h]

theorem takeAck_endFrozen {s : State} (h : s.waitpt = .endFrozen) : takeAck .frozen s = endPhaseB s := by
  simp only [takeAck, h]

theorem takeAck_frozen_unexpected {s : State} (h1 : s.waitpt ≠ .beginFrozen) (h3 : s.waitpt ≠ .endFrozen) :
    takeAck .frozen s = s := by
  unfold takeAck
  split <;> simp_all

theorem takeAck_unfrozen_unexpected {s : State} (h2 : s.waitpt ≠ .beginUnfrozen) : takeAck .unfrozen s = s := by
  unfold takeAck
  split <;> simp_all

/-- Settles O20: at every other wait point the acknowledgement leaves the state as it is. -/
theorem unexpectedAckIgnored : Obligations.UnexpectedAckIgnored := fun _ _ =>
  ⟨fun hs h1 h3 => (step_ack hs).trans (congrArg _ (takeAck_frozen_unexpected h1 h3)),
    fun hs h2 => (step_ack hs).trans (congrArg _ (takeAck_unfrozen_unexpected h2))⟩

/-! ## GSCLR (R182) -/

/-- Settles O38: the mask of GSCLR leaves bit 0 out. -/
theorem gsclrResult : Obligations.GsclrResult := by
  have hword : ∀ clr : BitVec 4, encode (.gsclr clr) = some (0x33 ||| clr.setWidth 32 <<< 8) := by decide
  refine ⟨fun clr => decode_of_encode (hword clr), fun s clr => ⟨_, rfl, by simp, fun n h1 h4 => ?_⟩⟩
  have hmask : (0xE#4).getLsbD n = true := by interval_cases n <;> rfl
  rw [BitVec.getLsbD_and, BitVec.getLsbD_not, BitVec.getLsbD_and, hmask, decide_eq_true h4, Bool.and_true,
    Bool.true_and]

/-! ## The configuration error words (R173, R174, R178) -/

theorem nonconform_iff {m : Memory FilterEntry} {n : Nat} : nonconform m n = true ↔ someSoftError m n := by
  simp [nonconform, someSoftError]

/-- The pin word has a bit for each pin the port does not answer valid (R174). -/
theorem pinErr_eq (s : State) :
    pinErr s = (flagWord [(!(pinAnswers s).1, 27), (!(pinAnswers s).2.1, 26)], (pinAnswers s).2.2) := rfl

/-- Every bit of the configuration error word of BEGIN (R178). -/
theorem beginError_bit (s : State) (n : Nat) : (beginError s).1.getLsbD n = true ↔ beginBit s n := by
  simp (disch := decide) only [beginError, filterErrC, pinErr_eq, BitVec.getLsbD_or, getLsbD_flagWord_cons,
    getLsbD_flagWord_nil, Bool.or_eq_true, Bool.and_eq_true, decide_eq_true_eq, Bool.or_false, Bool.not_eq_true',
    consistencyC_bit, nonconform_iff]
  unfold beginBit
  split <;> simp_all [classicBit]

/-- Every bit of the configuration error word of BEGINFD (R178). -/
theorem beginFdError_bit (s : State) (n : Nat) : (beginFdError s).1.getLsbD n = true ↔ beginFdBit s n := by
  simp (disch := decide) only [beginFdError, filterErrF, pinErr_eq, BitVec.getLsbD_or, getLsbD_flagWord_cons,
    getLsbD_flagWord_nil, Bool.or_eq_true, Bool.and_eq_true, decide_eq_true_eq, Bool.or_false, Bool.not_eq_true',
    consistencyF_bit, nonconform_iff]
  unfold beginFdBit
  split <;> simp_all [fdBit, Config.stageFd]

/-! ## Phase A of BEGIN and BEGINFD (R175, R180) -/

theorem exec_beginCmd {s : State} (hl : s.life = .uninit) (hfd : s.timing.fd = false) :
    exec .beginCmd s = .next (beginPhaseA .classic (beginError s) s) := by simp [exec, execBegin, hl, hfd]

theorem exec_beginFd {s : State} (hl : s.life = .uninit) (hfd : s.timing.fd = true) :
    exec .beginFd s = .next (beginPhaseA .fd (beginFdError s) s) := by simp [exec, execBeginFd, hl, hfd]

/-- With an error word of 0 phase A waits for `Frozen`. -/
theorem beginPhaseA_of_eq_zero (m : Mode) {e : Word × Port} (s : State) (he : e.1 = 0) :
    beginPhaseA m e s = { s with
      err := .none, r0 := 0, port := e.2, mode := m, life := .configuring, busy := true, waitpt := .beginFrozen
      out := s.out ++ [.freezeEnter] } := by
  simp only [beginPhaseA, he, ne_eq, not_true, if_false, setPort, accept, setR0, setMode, setLife, emit]

/-- With another error word phase A records it and ends the command. -/
theorem beginPhaseA_of_ne_zero (m : Mode) {e : Word × Port} (s : State) (he : e.1 ≠ 0) :
    beginPhaseA m e s = { s with err := .none, r0 := e.1, port := e.2, gstat := s.gstat ||| 1 } := if_pos he

/-- In both cases phase A answers the error word and has asked the port (R178). -/
theorem beginPhaseA_answers (m : Mode) (e : Word × Port) (s : State) :
    (beginPhaseA m e s).r0 = e.1 ∧ (beginPhaseA m e s).port = e.2 := by
  by_cases he : e.1 = 0
  · rw [beginPhaseA_of_eq_zero m s he, he]
    exact ⟨rfl, rfl⟩
  · rw [beginPhaseA_of_ne_zero m s he]
    exact ⟨rfl, rfl⟩

/-- Settles O39: phase A leaves the error word in `R0`. -/
theorem configErrorWord : Obligations.ConfigErrorWord := by
  refine fun s hl => ⟨fun hfd => ⟨_, exec_beginCmd hl hfd, ?_⟩, fun hfd => ⟨_, exec_beginFd hl hfd, ?_⟩⟩
  · obtain ⟨hr0, hport⟩ := beginPhaseA_answers .classic (beginError s) s
    exact ⟨hport, fun n _ => hr0 ▸ beginError_bit s n⟩
  · obtain ⟨hr0, hport⟩ := beginPhaseA_answers .fd (beginFdError s) s
    exact ⟨hport, fun n _ => hr0 ▸ beginFdError_bit s n⟩

/-- A word is 0 exactly when the condition of none of its bits holds. -/
theorem word_eq_zero_iff_conditions {w : Word} {P : Nat → Prop} (h : ∀ n, w.getLsbD n = true ↔ P n) :
    w = 0 ↔ ∀ n, n < 32 → ¬ P n := by
  simp only [word_eq_zero_iff, ← h, Bool.not_eq_true]

/-- What phase A does, said of the conditions of the error word's bits. -/
theorem beginPhaseA_by_conditions {m : Mode} {e : Word × Port} {P : Nat → Prop} (s : State)
    (h : ∀ n, e.1.getLsbD n = true ↔ P n) :
    ((∀ n, n < 32 → ¬ P n) → beginPhaseA m e s = { s with
      err := .none, r0 := 0, port := e.2, mode := m, life := .configuring, busy := true, waitpt := .beginFrozen
      out := s.out ++ [.freezeEnter] })
    ∧ ((∃ n, n < 32 ∧ P n) → ∃ w, w ≠ 0 ∧ beginPhaseA m e s = { s with
      err := .none, r0 := w, port := e.2, gstat := s.gstat ||| 1 }) := by
  have hzero := word_eq_zero_iff_conditions h
  refine ⟨fun hP => beginPhaseA_of_eq_zero m s (hzero.2 hP), fun ⟨n, hn, hP⟩ => ?_⟩
  have he : e.1 ≠ 0 := fun he => hzero.1 he n hn hP
  exact ⟨e.1, he, beginPhaseA_of_ne_zero m s he⟩

/-- Settles O40: both commands are `beginPhaseA` of their error word. -/
theorem beginPhaseAResult : Obligations.BeginPhaseA := by
  refine fun s hl => ⟨fun hfd => ?_, fun hfd => ?_⟩
  · obtain ⟨hclean, hfail⟩ := beginPhaseA_by_conditions (m := .classic) s (beginError_bit s)
    simp only [exec_beginCmd hl hfd, Host.Outcome.next.injEq]
    exact ⟨hclean, hfail⟩
  · obtain ⟨hclean, hfail⟩ := beginPhaseA_by_conditions (m := .fd) s (beginFdError_bit s)
    simp only [exec_beginFd hl hfd, Host.Outcome.next.injEq]
    exact ⟨hclean, hfail⟩

/-! ## Phase B of BEGIN and BEGINFD (R175 to R177, R180) -/

theorem slotC_createRings (s : State) : slotC (createRings s) = classicSlot s := rfl

theorem cbtC_createRings (s : State) : cbtC (createRings s) = classicCallback s := rfl

theorem slotF_createRings (s : State) : slotF (createRings s) = fdSlot s := rfl

/-- The slots of an image are those the table was written from (R176). -/
theorem map_readSlot_table (n : Nat) (f : Nat → FilterPair) :
    (List.range n).map (readSlot (Memory.table n f)) = (List.range n).map f :=
  List.map_congr_left fun _ hk => readSlot_table f (List.mem_range.1 hk)

/-- The receive mailboxes are armed each with the acceptance word of its slot (R180). -/
theorem map_mbRearm_table (n : Nat) (f : Nat → FilterPair) :
    ((mailboxes 1 (n + 1)).map fun k => Action.mbRearm k (readSlot (Memory.table n f) (k - 1)).aw)
      = (List.range n).map fun k => .mbRearm (k + 1) (f k).aw := by
  rw [mailboxes, Nat.add_sub_cancel, List.range'_eq_map_range, List.map_map]
  refine List.map_congr_left fun k hk => ?_
  simp [readSlot_table f (List.mem_range.1 hk), Nat.add_comm 1 k]

/-- Phase B of BEGIN: rings, tables, `ACT_CFG`, the image and the transmit mailboxes. -/
theorem beginPhaseB_eq (s : State) : beginPhaseB s = { s with
    rxq := qCreate s.rxcap, txq := qCreate s.txcap, waitpt := .beginUnfrozen
    nslot := s.par.nPrimaryMax + s.par.nSecondaryMax
    slot := Memory.table (s.par.nPrimaryMax + s.par.nSecondaryMax) (classicSlot s)
    ncb := s.np.toNat + s.ns.toNat, cbt := Memory.table (s.np.toNat + s.ns.toNat) (classicCallback s)
    act := { np := s.np, ns := s.ns, nf := 0, payload := 0, rxmb := 0 }
    out := s.out ++ .configWrite (.classic { imageCommon s with
          slots := (List.range (s.par.nPrimaryMax + s.par.nSecondaryMax)).map (classicSlot s) })
        :: (mailboxes s.par.mbTxRemoteFirst s.par.nMb).map .mbSetInactive ++ [.irqInstall, .freezeExit] } := by
  simp only [beginPhaseB, fillSlotsC, slotC_createRings, cbtC_createRings]
  simp only [createRings, setRxq, setTxq, setTables, setAct, ActCfg.zero, imageC, imageCommon, map_readSlot_table,
    emitAll, unfreeze, setLife]

/-- Phase B of BEGINFD: the same, with the FD image and the receive mailboxes armed. -/
theorem beginFdPhaseB_eq (s : State) : beginFdPhaseB s = { s with
    rxq := qCreate s.rxcap, txq := qCreate s.txcap, waitpt := .beginUnfrozen
    nslot := s.fdRxmb.toNat, slot := Memory.table s.fdRxmb.toNat (fdSlot s)
    ncb := s.nf.toNat, cbt := Memory.table s.nf.toNat fun i => (readFilter s.sf i).cb
    act := { np := 0, ns := 0, nf := s.nf, payload := s.fdPayload, rxmb := s.fdRxmb.setWidth 6 }
    out := s.out ++ (.configWrite (.fd { imageCommon s with slots := (List.range s.fdRxmb.toNat).map (fdSlot s) }
          { dprop := s.timing.dprop, dps1 := s.timing.dps1, dps2 := s.timing.dps2, drjw := s.timing.drjw
            payload := s.fdPayload, rxmb := s.fdRxmb })
        :: .mbSetInactive 0 :: ((List.range s.fdRxmb.toNat).map fun k => .mbRearm (k + 1) (fdSlot s k).aw)
        ++ (mailboxes (s.fdRxmb.toNat + 1) (fdMbTotal s.par s.fdPayload)).map .mbSetInactive)
        ++ [.irqInstall, .freezeExit] } := by
  simp only [beginFdPhaseB, fillSlotsF, slotF_createRings]
  simp only [createRings, setRxq, setTxq, setTables, setAct, ActCfg.zero, imageF, imageCommon, map_readSlot_table,
    map_mbRearm_table, emitAll, unfreeze, setLife]

/-- A new ring is fresh (R69). -/
theorem freshRing_qCreate (cap : BitVec 16) : FreshRing (qCreate cap) cap := ⟨rfl, rfl, rfl, rfl⟩

/-! ## Whole runs (R175, R180, R181) -/

/-- The host's write of an operation's word to `CMD` runs the operation (R26, R103). -/
theorem step_command {s : State} {w : Word} {i : Instr} {rest : List Input} (hb : s.busy = false)
    (hs : s.inputs = commandWrite s.par w :: rest) (hw : encode i = some w) :
    step s = exec i { s with inputs := rest } := by
  obtain ⟨hissue, -⟩ := stepIssuesCommand
  exact hissue s w i rest hb hs (decode_of_encode hw)

/-- `s` after a clean phase A in mode `m` (R175, R180), with the moves `rest` still to come. The staging lists are
those of `s`, so phase B fills the same slots. -/
def begun (m : Mode) (s : State) (rest : List Input) : State := { s with
  err := .none, r0 := 0, port := (pinAnswers s).2.2, mode := m, life := .configuring, busy := true
  waitpt := .beginFrozen, out := s.out ++ [.freezeEnter], inputs := rest }

theorem classicSlot_begun (m : Mode) (s : State) (rest : List Input) :
    classicSlot (begun m s rest) = classicSlot s := rfl

theorem classicCallback_begun (m : Mode) (s : State) (rest : List Input) :
    classicCallback (begun m s rest) = classicCallback s := rfl

theorem fdSlot_begun (m : Mode) (s : State) (rest : List Input) : fdSlot (begun m s rest) = fdSlot s := rfl

theorem step_beginCmd {s : State} {rest : List Input} (hl : s.life = .uninit) (hb : s.busy = false)
    (hfd : s.timing.fd = false) (hclean : ∀ n, n < 32 → ¬ beginBit s n)
    (hs : s.inputs = commandWrite s.par 0x30 :: rest) : step s = .next (begun .classic s rest) := by
  obtain ⟨hclassic, -⟩ := beginPhaseAResult { s with inputs := rest } hl
  obtain ⟨hstart, -⟩ := hclassic hfd
  exact (step_command hb hs rfl).trans (hstart hclean)

theorem step_beginFd {s : State} {rest : List Input} (hl : s.life = .uninit) (hb : s.busy = false)
    (hfd : s.timing.fd = true) (hclean : ∀ n, n < 32 → ¬ beginFdBit s n)
    (hs : s.inputs = commandWrite s.par 0x31 :: rest) : step s = .next (begun .fd s rest) := by
  obtain ⟨-, hfdMode⟩ := beginPhaseAResult { s with inputs := rest } hl
  obtain ⟨hstart, -⟩ := hfdMode hfd
  exact (step_command hb hs rfl).trans (hstart hclean)

/-- Settles O41: phase A by `step_beginCmd`, phase B by `beginPhaseB_eq`, then phase C. -/
theorem beginRun : Obligations.BeginRun := by
  intro s rest hl hb hfd hclean hs
  refine ⟨_, _, _, step_beginCmd hl hb hfd hclean hs, step_ack rfl,
    (congrArg step (beginPhaseB_eq (begun .classic s (.ack .unfrozen :: rest)))).trans (step_ack rfl), ?_⟩
  refine ⟨?_, freshRing_qCreate _, freshRing_qCreate _, fun _ hk => read?_table _ hk, fun _ hi => read?_table _ hi⟩
  simp only [classicSlot_begun, classicCallback_begun]
  simp [takeAck, begun, beginPhaseC, emit, setGstat, setLife, mailboxes, imageCommon, hb]

/-- Settles O42: phase A by `step_beginFd`, phase B by `beginFdPhaseB_eq`, then phase C. -/
theorem beginFdRun : Obligations.BeginFdRun := by
  intro s rest hl hb hfd hclean hp hs
  have hrxmb : (s.fdRxmb.setWidth 6).toNat = s.fdRxmb.toNat := by
    have hM := fdMbTotal_bounds hp s.fdPayload
    have hR : ¬ fdMbTotal s.par s.fdPayload - 2 < s.fdRxmb.toNat := hclean 23 (by decide)
    exact toNat_setWidth_of_lt (by omega)
  refine ⟨_, _, _, step_beginFd hl hb hfd hclean hs, step_ack rfl,
    (congrArg step (beginFdPhaseB_eq (begun .fd s (.ack .unfrozen :: rest)))).trans (step_ack rfl), ?_⟩
  refine ⟨?_, rfl, rfl, rfl, rfl, hrxmb, freshRing_qCreate _, freshRing_qCreate _, fun _ hk => read?_table _ hk,
    fun _ hi => read?_table _ hi⟩
  simp only [fdSlot_begun]
  simp [takeAck, begun, beginPhaseC, emit, setGstat, setLife, mailboxes, imageCommon, hb]

theorem exec_endCmd_of_not_running {s : State} (hl : s.life ≠ .running) :
    exec .endCmd s = .next { s with err := .badState } := congrArg Host.Outcome.next (if_pos hl)

/-- Phase A of END disables the interrupt, freezes the controller and waits. -/
theorem exec_endCmd {s : State} (hl : s.life = .running) : exec .endCmd s = .next { s with
    err := .none, life := .configuring, busy := true, waitpt := .endFrozen
    out := s.out ++ [.irqDisable, .freezeEnter] } := congrArg Host.Outcome.next (if_neg (not_not_intro hl))

/-- Settles O43: phase B of END is what the acknowledgement runs. -/
theorem endRun : Obligations.EndRun := by
  refine ⟨decode_of_encode rfl, fun s => exec_endCmd_of_not_running, fun s hl => ⟨exec_endCmd hl, ?_⟩⟩
  intro rest hb hs
  refine ⟨_, _, (step_command hb hs (i := .endCmd) rfl).trans (exec_endCmd hl), step_ack rfl, ?_,
    freshRing_qCreate 0, freshRing_qCreate 0, rfl, rfl⟩
  simp [takeAck, endPhaseB, setRxq, setTxq, setTables, setAct, ActCfg.zero, setLife, hb]

/-! ## The life cycle (R171) -/

/-- Phase B of BEGIN and BEGINFD stays in its life state and waits for `Unfrozen`. -/
theorem takeAck_beginFrozen_life {s : State} (h : s.waitpt = .beginFrozen) :
    (takeAck .frozen s).life = s.life ∧ (takeAck .frozen s).waitpt = .beginUnfrozen := by
  simp only [takeAck, h]
  cases s.mode
  · rw [beginPhaseB_eq]
    exact ⟨rfl, rfl⟩
  · rw [beginFdPhaseB_eq]
    exact ⟨rfl, rfl⟩

/-- Where phase A leaves the life cycle. -/
theorem beginPhaseA_life (m : Mode) (e : Word × Port) (s : State) :
    ((beginPhaseA m e s).life = s.life ∧ (beginPhaseA m e s).waitpt = s.waitpt)
      ∨ ((beginPhaseA m e s).r0 = 0 ∧ (beginPhaseA m e s).life = .configuring
        ∧ (beginPhaseA m e s).waitpt = .beginFrozen) := by
  by_cases he : e.1 = 0
  · rw [beginPhaseA_of_eq_zero m s he]
    exact .inr ⟨rfl, rfl, rfl⟩
  · rw [beginPhaseA_of_ne_zero m s he]
    exact .inl ⟨rfl, rfl⟩

/-- What BEGIN and BEGINFD do to the life cycle: nothing, refused or failed, or `UNINIT` is left. -/
theorem begin_life {s t : State} {c : Prop} [Decidable c] {m : Mode} {e : Word × Port}
    (ht : t = if s.life ≠ .uninit then refuse .badState s
      else if c then refuse .badOperand s else beginPhaseA m e s) :
    (t.life = s.life ∧ t.waitpt = s.waitpt)
      ∨ (s.life = .uninit ∧ t.r0 = 0 ∧ t.life = .configuring ∧ t.waitpt = .beginFrozen) := by
  subst ht
  split
  · exact .inl ⟨rfl, rfl⟩
  · rename_i hl
    split
    · exact .inl ⟨rfl, rfl⟩
    · exact (beginPhaseA_life m e s).imp_right fun h => ⟨by simpa using hl, h⟩

/-- The commands that move the life cycle, and how (R171). -/
theorem exec_life {i : Instr} {s t : State} (h : exec i s = .next t) :
    (t.life = s.life ∧ t.waitpt = s.waitpt)
      ∨ ((i = .beginCmd ∨ i = .beginFd) ∧ s.life = .uninit ∧ t.r0 = 0 ∧ t.life = .configuring
        ∧ t.waitpt = .beginFrozen)
      ∨ (i = .endCmd ∧ s.life = .running ∧ t.life = .configuring ∧ t.waitpt = .endFrozen) := by
  by_cases hi : setsLife i = true
  · cases i
    case beginCmd => exact (begin_life (Host.Outcome.next.inj h).symm).imp_right fun hA => .inl ⟨.inl rfl, hA⟩
    case beginFd => exact (begin_life (Host.Outcome.next.inj h).symm).imp_right fun hA => .inl ⟨.inr rfl, hA⟩
    case endCmd =>
      by_cases hl : s.life = .running
      · obtain rfl := Host.Outcome.next.inj ((exec_endCmd hl).symm.trans h)
        exact .inr (.inr ⟨rfl, hl, rfl, rfl⟩)
      · obtain rfl := Host.Outcome.next.inj ((exec_endCmd_of_not_running hl).symm.trans h)
        exact .inl ⟨rfl, rfl⟩
    all_goals cases hi
  · obtain ⟨ht, -⟩ := exec_writesOnly h
    left
    rw [ht]
    simp [writtenFrom, hi]

/-- A host write leaves the life cycle alone or runs an operation by its word in `CMD` (R26, R63). -/
theorem hostWrite_life {addr size : Nat} {v : Word} {s t : State} (h : hostWrite addr size v s = .next t) :
    (t.life = s.life ∧ t.waitpt = s.waitpt)
      ∨ ∃ i, encode i = some v ∧ .busWrite addr size v = commandWrite s.par v ∧ exec i s = .next t := by
  unfold hostWrite at h
  split at h
  · exact .inl (Host.Outcome.next.inj h ▸ ⟨rfl, rfl⟩)
  · split at h
    · exact .inl (Host.Outcome.next.inj h ▸ ⟨rfl, rfl⟩)
    · rename_i hcmd
      obtain ⟨rfl, rfl⟩ := busReg_eq_some.1 hcmd
      unfold issue at h
      split at h
      · exact .inl (Host.Outcome.next.inj h ▸ ⟨rfl, rfl⟩)
      · exact .inr ⟨_, encode_of_decode ‹_›, rfl, h⟩
    · rename_i r _ _
      have hframe := runFrame_writeReg r v s
      exact .inl (Host.Outcome.next.inj h ▸ ⟨hframe.life, hframe.waitpt⟩)

/-- A turn of the interrupt agent leaves the life cycle alone (R211). -/
theorem handlerTurn_life {s t : State} (h : handlerTurn s = .next t) : t.life = s.life ∧ t.waitpt = s.waitpt := by
  unfold handlerTurn at h
  split at h
  · have hframe := runFrame_isrc h
    exact ⟨hframe.life, hframe.waitpt⟩
  · have hframe := runFrame_isrFd h
    exact ⟨hframe.life, hframe.waitpt⟩

/-- What an acknowledgement does to the life cycle. -/
theorem takeAck_life (a : Ack) {s : State} (hi : LifeInv s) :
    ((takeAck a s).life = s.life ∧ (takeAck a s).waitpt = s.waitpt)
      ∨ (a = .frozen ∧ s.life = .configuring ∧ s.waitpt = .beginFrozen
        ∧ (takeAck a s).life = .configuring ∧ (takeAck a s).waitpt = .beginUnfrozen)
      ∨ (a = .unfrozen ∧ s.life = .configuring ∧ s.waitpt = .beginUnfrozen
        ∧ (takeAck a s).life = .running ∧ (takeAck a s).waitpt = .none)
      ∨ (a = .frozen ∧ s.life = .configuring ∧ s.waitpt = .endFrozen
        ∧ (takeAck a s).life = .uninit ∧ (takeAck a s).waitpt = .none) := by
  obtain ⟨-, hwait⟩ := hi
  cases a with
  | frozen =>
    by_cases h1 : s.waitpt = .beginFrozen
    · have hl : s.life = .configuring := hwait.2 (by simp [h1])
      obtain ⟨hlife, hpt⟩ := takeAck_beginFrozen_life h1
      exact .inr (.inl ⟨rfl, hl, h1, hlife.trans hl, hpt⟩)
    · by_cases h3 : s.waitpt = .endFrozen
      · rw [takeAck_endFrozen h3]
        exact .inr (.inr (.inr ⟨rfl, hwait.2 (by simp [h3]), h3, rfl, rfl⟩))
      · rw [takeAck_frozen_unexpected h1 h3]
        exact .inl ⟨rfl, rfl⟩
  | unfrozen =>
    by_cases h2 : s.waitpt = .beginUnfrozen
    · rw [takeAck_beginUnfrozen h2]
      exact .inr (.inr (.inl ⟨rfl, hwait.2 (by simp [h2]), h2, rfl, rfl⟩))
    · rw [takeAck_unfrozen_unexpected h2]
      exact .inl ⟨rfl, rfl⟩

/-- Settles O19, by cases on the move: only three commands, the acknowledgements and reset move the life cycle. -/
theorem lifeTransitions : Obligations.LifeTransitions := by
  intro s t e rest hi hs h
  rw [step_cons hs] at h
  cases e with
  | busWrite addr size v =>
    obtain hsame | ⟨i, henc, hw, hexec⟩ := hostWrite_life h
    · exact .inl hsame
    · rw [hw]
      obtain hsame | ⟨hi, hbegin⟩ | ⟨rfl, hend⟩ := exec_life hexec
      · exact .inl hsame
      · refine .inr (.inl ⟨?_, hbegin⟩)
        obtain rfl | rfl := hi
        · exact .inl (congrArg _ (Option.some.inj henc.symm))
        · exact .inr (congrArg _ (Option.some.inj henc.symm))
      · exact .inr (.inr (.inr (.inr (.inl ⟨congrArg _ (Option.some.inj henc.symm), hend⟩))))
  | busRead addr size => exact .inl (Host.Outcome.next.inj h ▸ ⟨rfl, rfl⟩)
  | irq => exact .inl (handlerTurn_life (s := { s with inputs := rest }) h)
  | ack a =>
    obtain rfl := Host.Outcome.next.inj h
    have hi' : LifeInv { s with inputs := rest } := hi
    obtain hsame | ⟨rfl, hB⟩ | ⟨rfl, hC⟩ | ⟨rfl, hE⟩ := takeAck_life a hi'
    · exact .inl hsame
    · exact .inr (.inr (.inl ⟨rfl, hB⟩))
    · exact .inr (.inr (.inr (.inl ⟨rfl, hC⟩)))
    · exact .inr (.inr (.inr (.inr (.inr (.inl ⟨rfl, hE⟩)))))
  | reset =>
    obtain rfl := Host.Outcome.next.inj h
    exact .inr (.inr (.inr (.inr (.inr (.inr ⟨rfl, rfl, rfl⟩)))))

end Sys2Proof.Machine

/-! The statements of the arbiter's file: SEND, SENDFD, RECV, RECVFD, DISPATCH, DISPATCHFD, and what one run of ISRC or
ISRFD does. -/

namespace Sys2Proof.Machine

/-! ## Rings as the obligations speak of them (R65 to R67) -/

/-- A push that finds room enqueues its frame (R66). -/
theorem enqueued_pushed {q : Ring} (f : Frame) (hq : RingWf q) (hroom : q.cnt ≠ q.cap) : Enqueued q (pushed q f) f :=
  have hlt := hq.cnt_lt hroom
  ⟨ringWf_pushed f hq hroom, queued_pushed f hq hroom, rfl, rfl, pushed_cnt f hlt, pushed_peak f hlt,
    read?_write_same _ _ _, fun _ hi => read?_write_other _ _ hi⟩

/-- A pop that finds a frame dequeues it (R67). -/
theorem dequeued_popped {q : Ring} (hq : RingWf q) (hne : q.cnt ≠ 0) : Dequeued q (popped q) := by
  have hpos := cnt_pos hne
  have hcap : 0 < q.cap.toNat := Nat.lt_of_lt_of_le hpos hq.cnt_le
  exact ⟨ringWf_popped hq hne, by rw [queued_popped hq hne, List.tail_cons], rfl, rfl, rfl, popped_rd hcap,
    by rw [popped_cnt]; omega⟩

theorem qPop_of_queued_nil {q : Ring} (h : queued q = []) : qPop q = none := qPop_eq_none.2 (queued_nil.1 h)

/-- A pop answers the oldest live frame (R67). -/
theorem qPop_of_queued_cons {q : Ring} {f : Frame} {rest : List Frame} (hq : RingWf q) (h : queued q = f :: rest) :
    q.cnt ≠ 0 ∧ qPop q = some (f, popped q) := by
  have hne : q.cnt ≠ 0 := fun h0 => by simp [queued_nil.2 h0] at h
  obtain ⟨rfl, -⟩ := List.cons_eq_cons.1 ((queued_popped hq hne).symm.trans h)
  exact ⟨hne, qPop_eq_some.2 ⟨hne, rfl, rfl⟩⟩

/-- The receive ring after the handler's push: a full ring drops the frame (R215). -/
def offered (q : Ring) (f : Frame) : Ring := if q.cnt = q.cap then q else pushed q f

/-- The receive ring after the handler's pushes of several frames, each dropped when it finds the ring full (R215). -/
def offeredAll (q : Ring) (fs : List Frame) : Ring := fs.foldl offered q

/-- The free entries of a ring (R45). -/
def Ring.room (q : Ring) : Nat := q.cap.toNat - q.cnt.toNat

theorem RingWf.room_eq_zero {q : Ring} (hq : RingWf q) : q.room = 0 ↔ q.cnt = q.cap := by
  refine ⟨fun h => ?_, fun h => by simp [Ring.room, h]⟩
  by_contra hne
  have := hq.cnt_lt hne
  unfold Ring.room at h
  omega

/-- `q'` is `q` after frames `fs` were offered to it: the first of them, as many as `q` has room for, stand behind those
it held, in their order; no other entry is written (R65, R66, R215). -/
structure Offered (q q' : Ring) (fs : List Frame) : Prop where
  wf : RingWf q'
  queue : queued q' = queued q ++ fs.take q.room
  cap : q'.cap = q.cap
  rd : q'.rd = q.rd
  mem : ∀ i, (∀ j, j < min q.room fs.length → i ≠ (q.rd.toNat + (q.cnt.toNat + j)) % q.cap.toNat) →
    q'.mem.read? i = q.mem.read? i
  peak : q'.peak.toNat = max q.peak.toNat (q.cnt.toNat + min q.room fs.length)

/-- Offering nothing, and offering to a full ring, leaves the ring as it is. -/
theorem Offered.refl {q : Ring} {fs : List Frame} (hq : RingWf q) (h : min q.room fs.length = 0) : Offered q q fs where
  wf := hq
  queue := by
    have : fs.take q.room = [] := List.eq_nil_of_length_eq_zero (by rw [List.length_take, h])
    rw [this, List.append_nil]
  cap := rfl
  rd := rfl
  mem := fun _ _ => rfl
  peak := by rw [h, Nat.add_zero, Nat.max_eq_left hq.cnt_le_peak]

/-- A frame that finds room, then the others. -/
theorem Offered.cons {q r q' : Ring} {f : Frame} {fs : List Frame} (hroom : 0 < q.room) (hf : Enqueued q r f)
    (hfs : Offered r q' fs) : Offered q q' (f :: fs) := by
  obtain ⟨-, hqueue, hcap, hrd, hcnt, hpeak, -, hmem⟩ := hf
  have hroom' : q.room = r.room + 1 := by
    simp only [Ring.room, hcap, hcnt] at hroom ⊢
    omega
  have hmin : min q.room (f :: fs).length = min r.room fs.length + 1 := by
    rw [hroom', List.length_cons, Nat.succ_min_succ]
  refine ⟨hfs.wf, ?_, hfs.cap.trans hcap, hfs.rd.trans hrd, fun i hi => ?_, ?_⟩
  · rw [hfs.queue, hqueue, hroom', List.take_succ_cons, List.append_assoc, List.singleton_append]
  · rw [hfs.mem i fun j hj => ?_, hmem i (by simpa using hi 0 (by omega))]
    rw [hrd, hcap, hcnt, Nat.add_right_comm]
    exact hi (j + 1) (by omega)
  · rw [hfs.peak, hpeak, hcnt, hmin]
    omega

theorem offeredAll_of_full {q : Ring} (hfull : q.cnt = q.cap) (fs : List Frame) : offeredAll q fs = q := by
  induction fs with
  | nil => rfl
  | cons f fs ih => rwa [offeredAll, List.foldl_cons, offered, if_pos hfull]

/-- What the handler's pushes leave of the receive ring, by induction over the frames. -/
theorem offered_offeredAll {q : Ring} (hq : RingWf q) (fs : List Frame) : Offered q (offeredAll q fs) fs := by
  induction fs generalizing q with
  | nil => exact .refl hq (Nat.min_zero _)
  | cons f fs ih =>
    by_cases hfull : q.cnt = q.cap
    · rw [offeredAll_of_full hfull]
      exact .refl hq (by rw [hq.room_eq_zero.2 hfull, Nat.zero_min])
    · rw [offeredAll, List.foldl_cons, offered, if_neg hfull]
      exact .cons (Nat.pos_of_ne_zero fun h => hfull (hq.room_eq_zero.1 h)) (enqueued_pushed f hq hfull)
        (ih (ringWf_pushed f hq hfull))

/-- The transmit ring after a drain (R216). -/
def drained (q : Ring) : Ring := if q.cnt = 0 then q else popped q

theorem drained_drained {q : Ring} (hq : RingWf q) : Drained q (drained q) := by
  unfold drained
  split
  · exact .inl ⟨‹_›, rfl⟩
  · exact .inr ⟨‹_›, dequeued_popped hq ‹_›⟩

theorem ringWf_drained {q : Ring} (hq : RingWf q) : RingWf (drained q) := by
  unfold drained
  split
  · exact hq
  · exact ringWf_popped hq ‹_›

/-! ## The pieces of the handlers (R206, R207, R215, R216) -/

/-- What `TxWrite` does (R206, R207). -/
theorem txWrite_eq (i : Nat) (f : Frame) (s : State) :
    txWrite i f s = { s with out := s.out ++ txActions s.mode s.act.payload i f } := by
  simp only [txWrite, emit, emitAll]
  cases s.mode <;> rfl

/-- What the transmit drain does (R216). -/
theorem txDrain_eq (mb : Nat) {s : State} (hq : RingWf s.txq) :
    txDrain mb s = { s with txq := drained s.txq, out := s.out ++ drainActions s mb } := by
  unfold txDrain drainActions drained
  cases h : queued s.txq with
  | nil => rw [qPop_of_queued_nil h, if_pos (queued_nil.1 h)]; rfl
  | cons g rest =>
    obtain ⟨hne, hpop⟩ := qPop_of_queued_cons hq h
    rw [hpop, if_neg hne]
    exact txWrite_eq _ _ _

/-- `GSTAT` after frames were offered to the receive ring `q`, `RXBUF_OVERFLOW` set when they exceed its room (R215). -/
def overflowed (q : Ring) (n : Nat) (g : BitVec 4) : BitVec 4 := if q.room < n then g ||| 8#4 else g

/-- What the handler's push does, as an offer (R215). -/
theorem rxPush_offered (f : Frame) {s : State} (hq : RingWf s.rxq) :
    rxPush f s = { s with rxq := offered s.rxq f, gstat := overflowed s.rxq 1 s.gstat } := by
  rw [rxPush_eq]
  simp only [offered, overflowed, Nat.lt_one_iff, hq.room_eq_zero]

theorem ringWf_offered {q : Ring} (f : Frame) (hq : RingWf q) : RingWf (offered q f) :=
  (offered_offeredAll hq [f]).wf

/-- The overflow flag after one frame and then others. -/
theorem overflowed_succ {q : Ring} (f : Frame) (n : Nat) (g : BitVec 4) (hq : RingWf q) :
    overflowed (offered q f) n (overflowed q 1 g) = overflowed q (n + 1) g := by
  by_cases hfull : q.cnt = q.cap
  · have hroom := hq.room_eq_zero.2 hfull
    simp [overflowed, offered, hfull, hroom, BitVec.or_assoc]
  · have hlt := hq.cnt_lt hfull
    have hroom : q.room = (pushed q f).room + 1 := by
      simp only [Ring.room, pushed_cap, pushed_cnt f hlt]
      omega
    simp [overflowed, offered, hfull, hroom]

theorem overflowed_bit_low (q : Ring) (k : Nat) (g : BitVec 4) {n : Nat} (hn : n < 3) :
    (overflowed q k g).getLsbD n = g.getLsbD n := by
  unfold overflowed
  split
  · have : (8#4).getLsbD n = false := by interval_cases n <;> rfl
    rw [BitVec.getLsbD_or, this, Bool.or_false]
  · rfl

theorem overflowed_bit_three (q : Ring) (k : Nat) (g : BitVec 4) :
    (overflowed q k g).getLsbD 3 = (g.getLsbD 3 || decide (q.room < k)) := by
  unfold overflowed
  split <;> simp [*]

/-! ## SEND and SENDFD (R190 to R199) -/

/-- What SEND refuses is what `ClassicOk` rejects (R192). -/
theorem illFormedClassic_iff (t : FrameFile) : illFormedClassic t ↔ classicOk (readFile t) = false := by
  have hkind : classicKind t.kind = true ↔ ¬ (t.kind = .fdNoBrs ∨ t.kind = .fdBrs) := by
    rw [← classicKind_eq_false, Bool.not_eq_false]
  rw [← Bool.not_eq_true, classicOk_iff, idOk_iff]
  show _ ↔ ¬ ((t.ext = .std → t.id.toNat ≤ 0x7FF) ∧ classicKind t.kind = true ∧ t.len.toNat ≤ 8)
  simp only [hkind, illFormedClassic, not_and_or, Classical.not_imp, not_not, not_le, or_assoc]

/-- What SENDFD refuses is what `FdOk` rejects (R192). -/
theorem illFormedFd_iff (t : FrameFile) : illFormedFd t ↔ fdOk (readFile t) = false := by
  have hkind : classicKind t.kind = true ↔ t.kind = .data ∨ t.kind = .remote := by cases t.kind <;> decide
  rw [← Bool.not_eq_true, fdOk_iff, idOk_iff, List.contains_iff_mem]
  show _ ↔ ¬ ((t.ext = .std → t.id.toNat ≤ 0x7FF) ∧ t.len.toNat ∈ lenSet
    ∧ (classicKind t.kind = true → t.len.toNat ≤ 8))
  simp only [hkind, illFormedFd, not_and_or, Classical.not_imp, not_le, lenSet]

/-- The frame a send takes from `TXF` (R190, R197). -/
theorem submitted_norm_readFile (t : FrameFile) : Submitted t (norm (readFile t)) :=
  ⟨norm_id _, norm_ext _, norm_kind _, norm_len _, norm_idx _, fun j =>
    ⟨fun h => norm_data_beyond (f := readFile t) h,
      fun h => (norm_data_within (f := readFile t) h).trans (readFile_data t j)⟩⟩

/-- `s` after a remote frame `f` met the scan result `r` (R194). -/
def afterScan (f : Frame) (r : Option Nat × Port) (s : State) : State :=
  match r with
  | (some i, p) => { s with r0 := 0, port := p, out := s.out ++ txActions s.mode s.act.payload i f }
  | (none, p) => { s with r0 := 0x02, port := p }

/-- The remote path claims the mailbox its scan finds (R194). -/
theorem sendRemote_eq (f : Frame) (l : List Nat) (s : State) :
    sendRemote f l s = afterScan f (scanMailboxes l s.port) s := by
  induction l generalizing s with
  | nil => rfl
  | cons j l ih =>
    by_cases hc : (portMbCode j s.port).1 = .txpend
    · rw [scanMailboxes, if_pos hc, sendRemote, if_neg (by simp [claimable, hc]), ih, setPort_port]
      rcases scanMailboxes l (portMbCode j s.port).2 with ⟨_ | i, p⟩
      · rfl
      · rfl
    · rw [scanMailboxes, if_neg hc, sendRemote, if_pos (by simp [claimable, hc]), txWrite_eq]
      rfl

theorem sendData_of_free {f : Frame} {mb : Nat} {s : State}
    (h : (portMbCode mb s.port).1 = .inactive ∧ s.txq.cnt = 0) :
    sendData f mb s = { s with
      r0 := 0, port := (portMbCode mb s.port).2, out := s.out ++ txActions s.mode s.act.payload mb f } := by
  rw [sendData, if_pos (show _ ∧ (setPort (portMbCode mb s.port).2 s).txq.cnt = 0 from h), txWrite_eq]
  rfl

theorem sendData_of_full {f : Frame} {mb : Nat} {s : State}
    (h : ¬ ((portMbCode mb s.port).1 = .inactive ∧ s.txq.cnt = 0)) (hfull : s.txq.cnt = s.txq.cap) :
    sendData f mb s = { s with r0 := 0x01, port := (portMbCode mb s.port).2 } := by
  rw [sendData, if_neg (show ¬ (_ ∧ (setPort (portMbCode mb s.port).2 s).txq.cnt = 0) from h), setPort_txq,
    qPush_eq_none.2 hfull]
  rfl

theorem sendData_of_room {f : Frame} {mb : Nat} {s : State}
    (h : ¬ ((portMbCode mb s.port).1 = .inactive ∧ s.txq.cnt = 0)) (hroom : s.txq.cnt ≠ s.txq.cap) :
    sendData f mb s = { s with r0 := 0, port := (portMbCode mb s.port).2, txq := pushed s.txq f } := by
  rw [sendData, if_neg (show ¬ (_ ∧ (setPort (portMbCode mb s.port).2 s).txq.cnt = 0) from h), setPort_txq,
    qPush_eq_some.2 ⟨hroom, rfl⟩]
  rfl

/-- A running send takes the remote or the data path (R193, R194). -/
theorem sendEffect_sendFrame (f : Frame) (first mb : Nat) (s : State) :
    SendEffect s.mode s.act.payload f (mailboxes first mb) mb s (.next (sendFrame f first mb (accept s))) := by
  refine ⟨fun hk => ?_, fun hk => ?_⟩
  · rw [sendFrame, if_pos hk, sendRemote_eq, accept_port]
    rcases scanMailboxes (mailboxes first mb) s.port with ⟨_ | i, p⟩
    · rfl
    · rfl
  · rw [sendFrame, if_neg hk]
    exact ⟨fun h => congrArg _ (sendData_of_free (s := accept s) h),
      fun h => ⟨fun hfull => congrArg _ (sendData_of_full (s := accept s) h hfull),
        fun hroom hq => ⟨_, congrArg _ (sendData_of_room (s := accept s) h hroom), enqueued_pushed f hq hroom⟩⟩⟩

/-- Settles O44: the early answers in the order of the checks, then the two paths. -/
theorem sendResult : Obligations.SendResult := by
  refine ⟨decode_of_encode rfl, fun s => ?_⟩
  have hexec : exec .send s = execSend s := rfl
  simp only [illFormedClassic_iff, hexec, execSend, ← Bool.not_eq_true']
  refine ⟨fun h => ?_, fun h hl => ?_, fun h hl hm => ?_, fun h hl hm => ⟨_, submitted_norm_readFile s.txf, ?_⟩⟩
  · rw [if_pos h]; rfl
  · rw [if_neg h, if_pos hl]; rfl
  · rw [if_neg h, if_neg (not_not.2 hl), if_pos (by simp [hm])]; rfl
  · rw [if_neg h, if_neg (not_not.2 hl), if_neg (not_not.2 hm)]
    have heffect := sendEffect_sendFrame (norm (readFile s.txf)) s.par.mbTxRemoteFirst s.par.mbTxData s
    rw [hm] at heffect
    exact heffect

/-- Settles O45: as SEND, with the check of the payload class before the two paths. -/
theorem sendFdResult : Obligations.SendFdResult := by
  refine ⟨decode_of_encode rfl, fun s => ?_⟩
  have hexec : exec .sendFd s = execSendFd s := rfl
  have hclass : payloadBytes s.act.payload = 8 * 2 ^ s.act.payload.toNat := Nat.shiftLeft_eq 8 _
  simp only [illFormedFd_iff, hexec, execSendFd, ← Bool.not_eq_true', hclass]
  refine ⟨fun h => ?_, fun h hl => ?_, fun h hl hm => ?_, fun h hl hm hlen => ?_,
    fun h hl hm hlen => ⟨_, submitted_norm_readFile s.txf, ?_⟩⟩
  · rw [if_pos h]; rfl
  · rw [if_neg h, if_pos hl]; rfl
  · rw [if_neg h, if_neg (not_not.2 hl), if_pos (by simp [hm])]; rfl
  · rw [if_neg h, if_neg (not_not.2 hl), if_neg (not_not.2 hm), if_pos (show (readFile s.txf).len.toNat > _ from hlen)]
    rfl
  · rw [if_neg h, if_neg (not_not.2 hl), if_neg (not_not.2 hm),
      if_neg (show ¬ (readFile s.txf).len.toNat > _ from Nat.not_lt.2 hlen)]
    have heffect := sendEffect_sendFrame (norm (readFile s.txf)) (s.act.rxmb.toNat + 1) (fdTxData s) s
    rw [hm] at heffect
    exact heffect

/-! ## RECV, RECVFD, DISPATCH and DISPATCHFD (R200 to R205) -/

/-- Outside `RUNNING` and in the other mode there is no frame to deliver (R200, R202). -/
theorem recvFrame_of_not_in_mode {m : Mode} {s : State} (h : s.life ≠ .running ∨ s.mode ≠ m) : recvFrame m s = none :=
  if_pos h

theorem recvFrame_of_empty {m : Mode} {s : State} (h : queued s.rxq = []) : recvFrame m s = none := by
  rw [recvFrame, qPop_of_queued_nil h]
  exact ite_self _

/-- The oldest frame goes to `RXF` (R200, R202). -/
theorem recvFrame_of_queued {m : Mode} {s : State} {f : Frame} {rest : List Frame} (hl : s.life = .running)
    (hm : s.mode = m) (hq : RingWf s.rxq) (h : queued s.rxq = f :: rest) :
    recvFrame m s = some (f, writeRxf f (setRxq (popped s.rxq) s)) := by
  obtain ⟨-, hpop⟩ := qPop_of_queued_cons hq h
  rw [recvFrame, if_neg (by simp [hl, hm]), hpop]

theorem recvIn_of_none {m : Mode} {s : State} (h : recvFrame m (accept s) = none) :
    recvIn m s = { s with err := .none, r0 := 0 } := by
  rw [recvIn, h]
  rfl

theorem dispatchIn_of_none {m : Mode} {s : State} (notify : Bool) (h : recvFrame m (accept s) = none) :
    dispatchIn m notify s = { s with err := .none, r0 := 0, r1 := 0 } := by
  rw [dispatchIn, h]
  rfl

theorem recvEffect_recvIn (m : Mode) (s : State) : RecvEffect m s (.next (recvIn m s)) := by
  refine ⟨fun h => congrArg _ (recvIn_of_none (recvFrame_of_not_in_mode (s := accept s) h)), fun hl hm hq => ?_⟩
  cases h : queued s.rxq with
  | nil => exact congrArg _ (recvIn_of_none (recvFrame_of_empty (s := accept s) h))
  | cons f rest =>
    refine ⟨popped s.rxq, fileOf f, ?_, dequeued_popped hq (qPop_of_queued_cons hq h).1, holds_fileOf f⟩
    rw [recvIn, recvFrame_of_queued (s := accept s) hl hm hq h]
    rfl

/-- Settles O47: both commands are `recvIn` in their mode. -/
theorem recvResult : Obligations.RecvResult :=
  ⟨⟨decode_of_encode rfl, decode_of_encode rfl⟩, fun s => ⟨recvEffect_recvIn .classic s, recvEffect_recvIn .fd s⟩⟩

/-- An action emitted on a condition. -/
theorem onFlag_emit (b : Bool) (a : Action) (s : State) :
    onFlag b (emit a) s = { s with out := s.out ++ if b then [a] else [] } := by
  cases b <;> simp [emit]

theorem dispatchEffect_dispatchIn (m : Mode) (notify : Bool) (s : State) :
    DispatchEffect m notify s (.next (dispatchIn m notify s)) := by
  refine ⟨fun h => congrArg _ (dispatchIn_of_none notify (recvFrame_of_not_in_mode (s := accept s) h)), fun hl hm hq => ?_⟩
  cases h : queued s.rxq with
  | nil => exact congrArg _ (dispatchIn_of_none notify (recvFrame_of_empty (s := accept s) h))
  | cons f rest =>
    refine ⟨popped s.rxq, fileOf f, ?_, dequeued_popped hq (qPop_of_queued_cons hq h).1, holds_fileOf f⟩
    rw [dispatchIn, recvFrame_of_queued (s := accept s) hl hm hq h]
    have hcb : callbackOf (writeRxf f (setRxq (popped s.rxq) (accept s))) f.idx = callbackFor s f := rfl
    simp only [onFlag_emit, accept_rxq, hcb, bne_iff_ne, ne_eq, ite_not]
    rfl

/-- Settles O48: both commands are `dispatchIn` in their mode. -/
theorem dispatchResult : Obligations.DispatchResult :=
  ⟨⟨decode_of_encode rfl, decode_of_encode rfl, decode_of_encode rfl, decode_of_encode rfl⟩,
    fun s notify => ⟨dispatchEffect_dispatchIn .classic notify s, dispatchEffect_dispatchIn .fd notify s⟩⟩

/-- Settles O46: the sends answer `NOT_RUNNING` or refuse, the others find no frame. -/
theorem notRunningNoOp : Obligations.NotRunningNoOp := by
  intro s i hl hi
  have hnone (m : Mode) : recvFrame m (accept s) = none := recvFrame_of_not_running hl
  obtain rfl | rfl | rfl | rfl | ⟨n, rfl⟩ | ⟨n, rfl⟩ := hi
  · obtain ⟨-, hsend⟩ := sendResult
    obtain ⟨hbad, hidle, -⟩ := hsend s
    by_cases h : illFormedClassic s.txf
    · exact ⟨_, hbad h, rfl⟩
    · exact ⟨_, hidle h hl, rfl⟩
  · obtain ⟨-, hsend⟩ := sendFdResult
    obtain ⟨hbad, hidle, -⟩ := hsend s
    by_cases h : illFormedFd s.txf
    · exact ⟨_, hbad h, rfl⟩
    · exact ⟨_, hidle h hl, rfl⟩
  · exact ⟨_, congrArg Host.Outcome.next (recvIn_of_none (hnone .classic)), rfl⟩
  · exact ⟨_, congrArg Host.Outcome.next (recvIn_of_none (hnone .fd)), rfl⟩
  · exact ⟨_, congrArg Host.Outcome.next (dispatchIn_of_none n (hnone .classic)), rfl⟩
  · exact ⟨_, congrArg Host.Outcome.next (dispatchIn_of_none n (hnone .fd)), rfl⟩

/-! ## ISRC (R213 to R217) -/

/-- The frame ISRC reads from the FIFO (R213, R214). -/
def fifoFrame (s : State) : Frame :=
  { unpack .classic (portFifoFrame s.port).1.cs (portFifoFrame s.port).1.idw
      [(portFifoFrame s.port).1.dw0, (portFifoFrame s.port).1.dw1] with
    idx := matchedIndex s (portFifoFrame s.port).1.hit }

/-- The receive part of ISRC on its flag (R213, R215). -/
theorem onFlag_isrcReceive (b : Bool) {s : State} (hq : RingWf s.rxq) :
    onFlag b isrcReceive s = { s with
      port := if b then (portFifoFrame s.port).2 else s.port
      rxq := if b then offered s.rxq (fifoFrame s) else s.rxq
      gstat := overflowed s.rxq b.toNat s.gstat } := by
  cases b
  · rfl
  · have hrun : onFlag true isrcReceive s = rxPush (fifoFrame s) (setPort (portFifoFrame s.port).2 s) := rfl
    rw [hrun, rxPush_offered (s := setPort (portFifoFrame s.port).2 s) _ hq]
    rfl

theorem onFlag_setFifoWarning (b : Bool) (s : State) :
    onFlag b setFifoWarning s = { s with gstat := s.gstat ||| if b then 2#4 else 0#4 } := by
  cases b <;> simp [setFifoWarning]

theorem onFlag_setFifoOverflow (b : Bool) (s : State) :
    onFlag b setFifoOverflow s = { s with gstat := s.gstat ||| if b then 4#4 else 0#4 } := by
  cases b <;> simp [setFifoOverflow]

theorem onFlag_txDrain (b : Bool) (mb : Nat) {s : State} (hq : RingWf s.txq) :
    onFlag b (txDrain mb) s = { s with
      txq := if b then drained s.txq else s.txq, out := s.out ++ if b then drainActions s mb else [] } := by
  cases b
  · simp
  · exact txDrain_eq mb hq

/-- `GSTAT` after a run of ISRC with sample `w` (R213, R215, R217). -/
def isrcGstat (w : BitVec 4) (q : Ring) (g : BitVec 4) : BitVec 4 :=
  overflowed q (w.getLsbD 0).toNat g ||| (if w.getLsbD 1 then 2#4 else 0#4) ||| if w.getLsbD 2 then 4#4 else 0#4

theorem getLsbD_isrcGstat (w : BitVec 4) (q : Ring) (g : BitVec 4) (n : Nat) :
    (isrcGstat w q g).getLsbD n = ((overflowed q (w.getLsbD 0).toNat g).getLsbD n
      || (w.getLsbD 1 && (2#4).getLsbD n) || (w.getLsbD 2 && (4#4).getLsbD n)) := by
  rw [isrcGstat, BitVec.getLsbD_or, BitVec.getLsbD_or]
  cases w.getLsbD 1 <;> cases w.getLsbD 2 <;> simp

/-- The bits of `GSTAT` after a run of ISRC: `INIT_ERROR` is kept, the other flags are latched (R213, R215, R217). -/
theorem isrcGstat_bits (w : BitVec 4) {q : Ring} (g : BitVec 4) (hq : RingWf q) :
    (isrcGstat w q g).getLsbD 0 = g.getLsbD 0
    ∧ (isrcGstat w q g).getLsbD 1 = (g.getLsbD 1 || w.getLsbD 1)
    ∧ (isrcGstat w q g).getLsbD 2 = (g.getLsbD 2 || w.getLsbD 2)
    ∧ (isrcGstat w q g).getLsbD 3 = (g.getLsbD 3 || (w.getLsbD 0 && decide (q.cnt = q.cap))) := by
  have hfull : decide (q.room < (w.getLsbD 0).toNat) = (w.getLsbD 0 && decide (q.cnt = q.cap)) := by
    cases w.getLsbD 0 <;> simp [hq.room_eq_zero]
  refine ⟨?_, ?_, ?_, ?_⟩ <;> rw [getLsbD_isrcGstat]
  · rw [overflowed_bit_low _ _ _ (by decide)]; simp
  · rw [overflowed_bit_low _ _ _ (by decide)]; simp
  · rw [overflowed_bit_low _ _ _ (by decide)]; simp
  · rw [overflowed_bit_three, hfull]; simp

/-- What ISRC does with its sample: every component of the state by itself (R213 to R217). -/
theorem isrcRun_eq (w : BitVec 4) {s : State} (hrx : RingWf s.rxq) (htx : RingWf s.txq) :
    isrcRun w s = { s with
      port := if w.getLsbD 0 then (portFifoFrame s.port).2 else s.port
      rxq := if w.getLsbD 0 then offered s.rxq (fifoFrame s) else s.rxq
      gstat := isrcGstat w s.rxq s.gstat
      txq := if w.getLsbD 3 then drained s.txq else s.txq
      out := s.out ++ (if w.getLsbD 3 then drainActions s s.par.mbTxData else []) ++ [.flagsClear w] } := by
  simp only [isrcRun, onFlag_isrcReceive _ hrx, onFlag_setFifoWarning, onFlag_setFifoOverflow]
  rw [onFlag_txDrain]
  · rfl
  · exact htx

theorem exec_isrc {s : State} (hl : s.life = .running) (hm : s.mode = .classic) :
    exec .isrc s = .next (isrcRun (portFlags s.port).1 (setPort (portFlags s.port).2 s)) := by
  simp only [exec, execIsrc, hl, hm, and_self, if_true]

/-- Settles O49: the receive part and the drain write disjoint components. -/
theorem isrcResult : Obligations.IsrcResult := by
  intro s hl hm hrx htx w p a hit f idx
  obtain ⟨hinit, hwarning, hoverflow, hdropped⟩ := isrcGstat_bits w s.gstat hrx
  refine ⟨_, (exec_isrc hl hm).trans (congrArg _ (isrcRun_eq w (s := setPort p s) hrx htx)), rfl, rfl,
    fun h hroom => ?_, fun h => ?_, hinit, hwarning, hoverflow, hdropped, fun h => if_neg (Bool.eq_false_iff.1 h),
    fun h => ?_, rfl⟩
  · show Enqueued s.rxq (if w.getLsbD 0 then offered s.rxq { f with idx := BitVec.ofNat 8 idx } else s.rxq) _
    rw [if_pos h, offered, if_neg hroom]
    exact enqueued_pushed _ hrx hroom
  · show (if w.getLsbD 0 then offered s.rxq { f with idx := BitVec.ofNat 8 idx } else s.rxq) = s.rxq
    obtain h | hfull := h
    · exact if_neg (Bool.eq_false_iff.1 h)
    · rw [offered, if_pos hfull, ite_self]
  · show Drained s.txq (if w.getLsbD 3 then drained s.txq else s.txq)
    rw [if_pos h]
    exact drained_drained htx

/-! ## ISRFD (R218 to R220) -/

/-- The receive mailboxes of an FD configuration (R82). -/
def isRxMailbox (s : State) (i : Nat) : Bool := decide (1 ≤ i ∧ i ≤ s.act.rxmb.toNat)

/-- What ISRFD emits for the flagged mailbox `i` (R218, R220). -/
def mailboxActions (s : State) (i : Nat) : List Action :=
  if isRxMailbox s i then [.mbRearm i (readSlot s.slot (i - 1)).aw]
  else if i = fdTxData s then drainActions s (fdTxData s)
  else []

/-- The frame ISRFD reads from receive mailbox `i` (R218). -/
def mailboxFrame (i : Nat) (s : State) : Frame :=
  { unpack .fd (portMbFrame i s.port).1.cs (portMbFrame i s.port).1.idw
      ((portMbFrame i s.port).1.dw.toList.take (payloadBytes s.act.payload / 4)) with idx := BitVec.ofNat 8 (i - 1) }

theorem isrFdReceive_eq (i : Nat) {s : State} (hq : RingWf s.rxq) :
    isrFdReceive i s = { s with
      port := (portMbFrame i s.port).2
      rxq := offered s.rxq (mailboxFrame i s)
      gstat := overflowed s.rxq 1 s.gstat
      out := s.out ++ [.mbRearm i (readSlot s.slot (i - 1)).aw] } := by
  have hrun : isrFdReceive i s = emit (.mbRearm i (readSlot s.slot (i - 1)).aw)
      (rxPush (mailboxFrame i s) (setPort (portMbFrame i s.port).2 s)) := rfl
  rw [hrun, rxPush_offered (s := setPort (portMbFrame i s.port).2 s) _ hq]
  rfl

/-- The frames ISRFD reads when the mailboxes of `l` are flagged, and the port after the reads (R218). -/
def mailboxReads (l : List Nat) (s : State) : List Frame × Port :=
  readMailboxes s.act.payload (l.filter (isRxMailbox s)) s.port

/-- `s` after ISRFD handled the flagged mailboxes `l`, each of them once: every component of the state by itself. -/
def afterMailboxes (l : List Nat) (s : State) : State := { s with
  port := (mailboxReads l s).2
  rxq := offeredAll s.rxq (mailboxReads l s).1
  gstat := overflowed s.rxq (mailboxReads l s).1.length s.gstat
  txq := if fdTxData s ∈ l then drained s.txq else s.txq
  out := s.out ++ l.flatMap (mailboxActions s) }

/-- The loop handles exactly the flagged mailboxes of its list. -/
theorem isrFdLoop_eq_foldl (fl : BitVec 64) (l : List Nat) (s : State) :
    isrFdLoop fl l s = (l.filter fun i => fl.getLsbD i).foldl (fun s i => isrFdMailbox i s) s := by
  induction l generalizing s with
  | nil => rfl
  | cons i l ih =>
    rw [isrFdLoop, ih]
    cases h : fl.getLsbD i <;> simp [h]

theorem mailboxReads_cons_rx {i : Nat} (l : List Nat) {s : State} (hq : RingWf s.rxq) (hi : isRxMailbox s i = true) :
    mailboxReads (i :: l) s
      = (mailboxFrame i s :: (mailboxReads l (isrFdReceive i s)).1, (mailboxReads l (isrFdReceive i s)).2) := by
  rw [isrFdReceive_eq i hq, mailboxReads, List.filter_cons_of_pos hi]
  rfl

theorem mailboxReads_cons_other {i : Nat} (l : List Nat) {s : State} (hi : isRxMailbox s i = false) :
    mailboxReads (i :: l) s = mailboxReads l s := by
  rw [mailboxReads, List.filter_cons_of_neg (by simp [hi]), mailboxReads]

/-- A receive mailbox first, then the others. -/
theorem afterMailboxes_cons_rx {i : Nat} (l : List Nat) {s : State} (hq : RingWf s.rxq) (hi : isRxMailbox s i = true)
    (hdata : i ≠ fdTxData s) : afterMailboxes (i :: l) s = afterMailboxes l (isrFdReceive i s) := by
  have hreads := mailboxReads_cons_rx l hq hi
  have hflag := overflowed_succ (mailboxFrame i s) (mailboxReads l (isrFdReceive i s)).1.length s.gstat hq
  have hacts : mailboxActions s i = [.mbRearm i (readSlot s.slot (i - 1)).aw] := by rw [mailboxActions, if_pos hi]
  rw [afterMailboxes, hreads, List.length_cons, ← hflag]
  simp only [List.mem_cons, Ne.symm hdata, false_or, List.flatMap_cons, hacts, ← List.append_assoc]
  rw [isrFdReceive_eq i hq]
  rfl

theorem mailboxActions_of_ne {i : Nat} {s : State} (hi : i ≠ fdTxData s) :
    mailboxActions s i = if isRxMailbox s i then [.mbRearm i (readSlot s.slot (i - 1)).aw] else [] := by
  rw [mailboxActions, if_neg hi]

/-- The dedicated transmit mailbox first, then the others, it not among them. -/
theorem afterMailboxes_cons_txData {l : List Nat} {s : State} (hq : RingWf s.txq)
    (hrx : isRxMailbox s (fdTxData s) = false) (hl : fdTxData s ∉ l) :
    afterMailboxes (fdTxData s :: l) s = afterMailboxes l (txDrain (fdTxData s) s) := by
  have hdrain := txDrain_eq (fdTxData s) hq
  have hdata : fdTxData (txDrain (fdTxData s) s) ∉ l := by rwa [hdrain]
  have hrest : l.flatMap (mailboxActions (txDrain (fdTxData s) s)) = l.flatMap (mailboxActions s) :=
    List.flatMap_congr fun i hi => by
      have hne : i ≠ fdTxData s := fun h => hl (h ▸ hi)
      rw [hdrain, mailboxActions_of_ne hne]
      exact mailboxActions_of_ne hne
  have hacts : mailboxActions s (fdTxData s) = drainActions s (fdTxData s) := by simp [mailboxActions, hrx]
  rw [afterMailboxes, afterMailboxes, mailboxReads_cons_other l hrx, if_pos List.mem_cons_self, if_neg hdata, hrest,
    List.flatMap_cons, hacts, ← List.append_assoc, hdrain]
  rfl

/-- A mailbox that is neither, then the others. -/
theorem afterMailboxes_cons_other {i : Nat} (l : List Nat) {s : State} (hrx : isRxMailbox s i = false)
    (hdata : i ≠ fdTxData s) : afterMailboxes (i :: l) s = afterMailboxes l s := by
  have hacts : mailboxActions s i = [] := by simp [mailboxActions, hrx, hdata]
  simp only [afterMailboxes, mailboxReads_cons_other l hrx, List.mem_cons, Ne.symm hdata, false_or, List.flatMap_cons,
    hacts, List.nil_append]

/-- ISRFD's loop, by induction over the flagged mailboxes: the dedicated transmit mailbox is not a receive mailbox and
is flagged once at most. -/
theorem foldl_isrFdMailbox {l : List Nat} {s : State} (hl : l.Nodup) (hrx : RingWf s.rxq) (htx : RingWf s.txq)
    (hdata : s.act.rxmb.toNat < fdTxData s) :
    l.foldl (fun s i => isrFdMailbox i s) s = afterMailboxes l s := by
  induction l generalizing s with
  | nil => simp [afterMailboxes, mailboxReads, readMailboxes, offeredAll, overflowed]
  | cons i l ih =>
    obtain ⟨hi, hnodup⟩ := List.nodup_cons.1 hl
    rw [List.foldl_cons]
    by_cases hmb : 1 ≤ i ∧ i ≤ s.act.rxmb.toNat
    · have hne : i ≠ fdTxData s := by omega
      rw [isrFdMailbox, if_pos hmb, afterMailboxes_cons_rx l hrx (decide_eq_true hmb) hne]
      refine ih hnodup ?_ ?_ ?_ <;> rw [isrFdReceive_eq i hrx]
      exacts [ringWf_offered _ hrx, htx, hdata]
    · have hno : isRxMailbox s i = false := decide_eq_false hmb
      rw [isrFdMailbox, if_neg hmb]
      by_cases hne : i = fdTxData s
      · subst hne
        rw [if_pos rfl, afterMailboxes_cons_txData htx hno hi]
        refine ih hnodup ?_ ?_ ?_ <;> rw [txDrain_eq _ htx]
        exacts [hrx, ringWf_drained htx, hdata]
      · rw [if_neg hne, afterMailboxes_cons_other l hno hne]
        exact ih hnodup hrx htx hdata

/-- The state a run of ISRFD leaves, given its sample `fl`, the flagged mailboxes `l` and the port `p` after the sample
(R218, R219). -/
def isrFdRun (fl : BitVec 64) (l : List Nat) (p : Port) (s : State) : State := { afterMailboxes l (setPort p s) with
  port := (portTimer (mailboxReads l (setPort p s)).2).2
  out := s.out ++ l.flatMap (mailboxActions s) ++ [.flagsClearFd fl] }

/-- A run of ISRFD while `RUNNING` in FD mode (R218, R219). -/
theorem exec_isrFd {s : State} (hl : s.life = .running) (hm : s.mode = .fd) (hrx : RingWf s.rxq) (htx : RingWf s.txq)
    (hdata : s.act.rxmb.toNat < fdTxData s) {lo hi : Word × Port} (hlo : portFlagsLo s.port = lo)
    (hhi : portFlagsHi lo.2 = hi) {fl : BitVec 64} (hfl : hi.1 ++ lo.1 = fl) :
    exec .isrFd s = .next (isrFdRun fl ((List.range 64).filter fun i => fl.getLsbD i) hi.2 s) := by
  subst hlo hhi
  have hfold := foldl_isrFdMailbox (l := (List.range 64).filter fun i => fl.getLsbD i)
    (s := setPort (portFlagsHi (portFlagsLo s.port).2).2 s) (List.nodup_range.filter _) hrx htx hdata
  simp only [exec, execIsrFd, hl, hm, isrFdLoop_eq_foldl, hfl, hfold]
  generalize (List.range 64).filter _ = l
  rfl

/-- Settles O50: the loop over the flagged mailboxes writes each component of the state by itself. -/
theorem isrFdResult : Obligations.IsrFdResult := by
  intro s hl hm hrx htx hmb lo hi fl mb flagged isRx rd room
  have hdata : s.act.rxmb.toNat < fdTxData s := by unfold fdTxData; omega
  have hexec : exec .isrFd s = .next (isrFdRun fl flagged hi.2 s) := exec_isrFd hl hm hrx htx hdata rfl rfl rfl
  have hflag : mb ∈ flagged ↔ fl.getLsbD mb = true := by
    simp only [flagged, List.mem_filter, List.mem_range, and_iff_right_iff_imp]
    exact BitVec.lt_of_getLsbD
  clear_value flagged fl hi
  have hoff := offered_offeredAll hrx rd.1
  have htxq : (isrFdRun fl flagged hi.2 s).txq = if mb ∈ flagged then drained s.txq else s.txq := rfl
  refine ⟨_, hexec, rfl, hoff.wf, hoff.queue, hoff.cap, hoff.rd, hoff.mem, hoff.peak,
    fun n hn => overflowed_bit_low _ _ _ hn, overflowed_bit_three _ _ _, fun h => ?_, fun h => ?_, ?_⟩
  · rw [htxq, if_neg (by simp [hflag, h])]
  · rw [htxq, if_pos (hflag.2 h)]
    exact drained_drained htx
  · rfl

/-! ## The interrupt agent's turn (R208, R212, R243) -/

/-- Settles O5: the handler of the mode, which outside `RUNNING` is outside its precondition. -/
theorem stepRunsHandler : Obligations.StepRunsHandler := by
  intro s rest hs
  have hstep : step s = handlerTurn { s with inputs := rest } := step_cons hs
  rw [hstep, handlerTurn]
  refine ⟨fun _ hm => ?_, fun _ hm => ?_, fun hl => ?_⟩
  · simp only [hm]
  · simp only [hm]
  · cases s.mode <;> simp [exec, execIsrc, execIsrFd, hl]

end Sys2Proof.Machine

/-! The statements of the exceptions file: no step faults, every command ends with the code the refusal table gives it, and
a refused command changes nothing but `CMDSTAT.ERR`. -/

namespace Sys2Proof.Machine

/-- Settles O15: whatever the next move of the outside is, it ends in a next state (`takeInput_next`). -/
theorem stepAlwaysAnswers : Obligations.StepAlwaysAnswers := step_next

/-! ## How a command ends (R230) -/

/-- A command took `s` to `t` and ended with a code that `P` allows: accepted, or refused with no effect but the code. -/
def EndsWith (P : ErrCode → Prop) (s t : State) : Prop := P t.err ∧ (t.err ≠ .none → t = { s with err := t.err })

theorem endsWith_refuse {P : ErrCode → Prop} {c : ErrCode} (h : P c) (s : State) : EndsWith P s (refuse c s) :=
  ⟨h, fun _ => rfl⟩

theorem endsWith_of_accepted {P : ErrCode → Prop} {s t : State} (ht : t.err = .none) (h : P .none) : EndsWith P s t :=
  ⟨ht.symm ▸ h, fun hne => absurd ht hne⟩

/-- A command with one check: refused with the check's code where it fails, accepted otherwise. -/
theorem endsWith_check {c bad good : Prop} [Decidable c] {code : ErrCode} {s t : State} (hbad : c → bad)
    (hgood : ¬ c → good) (ht : t.err = .none) :
    EndsWith (fun e => (bad ∧ e = code) ∨ (good ∧ e = .none)) s (if c then refuse code s else t) := by
  split
  · next hc => exact endsWith_refuse (.inl ⟨hbad hc, rfl⟩) s
  · next hc => exact endsWith_of_accepted ht (.inr ⟨hgood hc, rfl⟩)

/-- BEGIN and BEGINFD check `LIFE` before the kind of the configuration (R234). -/
theorem endsWith_begin {c bad good : Prop} [Decidable c] {s t : State} (hbad : c → bad) (hgood : ¬ c → good)
    (ht : t.err = .none) :
    EndsWith (fun e => (s.life ≠ .uninit ∧ e = .badState) ∨ (s.life = .uninit ∧ bad ∧ e = .badOperand)
        ∨ (s.life = .uninit ∧ good ∧ e = .none)) s
      (if s.life ≠ .uninit then refuse .badState s else if c then refuse .badOperand s else t) := by
  by_cases hl : s.life = .uninit
  · rw [if_neg (not_not.2 hl)]
    split
    · next hc => exact endsWith_refuse (.inr (.inl ⟨hl, hbad hc, rfl⟩)) s
    · next hc => exact endsWith_of_accepted ht (.inr (.inr ⟨hl, hgood hc, rfl⟩))
  · rw [if_pos hl]
    exact endsWith_refuse (.inl ⟨hl, rfl⟩) s

/-! ## What the operations leave in `CMDSTAT.ERR` -/

/-- The handler operations have no refusal (R211, R232). -/
theorem HandlerOnly.err {s t : State} (h : HandlerOnly s t) : t.err = s.err := by
  obtain ⟨ht, -⟩ := h
  rw [ht]

theorem beginPhaseA_err (m : Mode) (e : Word × Port) (s : State) : (beginPhaseA m e s).err = .none := by
  by_cases he : e.1 = 0
  · rw [beginPhaseA_of_eq_zero m s he]
  · rw [beginPhaseA_of_ne_zero m s he]

theorem sendRemote_err (f : Frame) (l : List Nat) (s : State) : (sendRemote f l s).err = s.err := by
  rw [sendRemote_eq]
  rcases scanMailboxes l s.port with ⟨_ | i, p⟩
  · rfl
  · rfl

theorem sendData_err (f : Frame) (mb : Nat) (s : State) : (sendData f mb s).err = s.err := by
  by_cases h : (portMbCode mb s.port).1 = .inactive ∧ s.txq.cnt = 0
  · rw [sendData_of_free h]
  · by_cases hfull : s.txq.cnt = s.txq.cap
    · rw [sendData_of_full h hfull]
    · rw [sendData_of_room h hfull]

theorem sendFrame_err (f : Frame) (first mb : Nat) (s : State) : (sendFrame f first mb s).err = s.err := by
  rw [sendFrame]
  split
  · exact sendRemote_err _ _ _
  · exact sendData_err _ _ _

theorem recvFrame_err {m : Mode} {s t : State} {f : Frame} (h : recvFrame m s = some (f, t)) : t.err = s.err := by
  simp only [recvFrame] at h
  split at h
  · cases h
  · split at h
    · cases h
    · cases h
      rfl

theorem recvIn_err (m : Mode) (s : State) : (recvIn m s).err = .none := by
  rw [recvIn]
  split
  · rfl
  · next h => exact recvFrame_err h

theorem dispatchIn_err (m : Mode) (notify : Bool) (s : State) : (dispatchIn m notify s).err = .none := by
  rw [dispatchIn]
  split
  · rfl
  · next h =>
    simp only [onFlag_emit, setR1_err, setR0_err]
    exact recvFrame_err h

/-! ## The refusal table (R232, R234) -/

/-- PPM's check: the other factor of `W`, the quanta of a bit, is never 0 (R137). -/
theorem clockCount_eq_zero_iff (t : Timing) : clockCount t = 0 ↔ t.rate = 0 ∨ t.brp = 0 ∨ t.div = 0 := by
  have htq : tqA t ≠ 0 := by unfold tqA; omega
  simp [clockCount, htq, BitVec.toNat_eq, or_assoc]

/-- Every command ends as the refusal table says; the commands of the last line have no row in it. -/
theorem exec_endsWith {i : Instr} {s t : State} (hi : i.isCommand = true) (h : exec i s = .next t) :
    EndsWith (refusalCode i s) s t := by
  cases i
  case isrc | isrFd => cases hi
  all_goals obtain rfl := Host.Outcome.next.inj h
  case solve => exact endsWith_check (solveBad_iff s).1 (mt (solveBad_iff s).2) rfl
  case solveFd => exact endsWith_check (solveFdBad_iff s).1 (mt (solveFdBad_iff s).2) rfl
  case actual => exact endsWith_check id id rfl
  case ppm =>
    have hw := clockCount_eq_zero_iff s.timing
    exact endsWith_check hw.1 (mt hw.2) rfl
  case dactual =>
    rw [← ite_or]
    exact endsWith_check (by simp) (by simp) rfl
  case dexact | dsample => exact endsWith_check (by simp) (by simp) rfl
  case beginCmd => exact endsWith_begin id (by simp) (beginPhaseA_err _ _ _)
  case beginFd => exact endsWith_begin (by simp) (by simp) (beginPhaseA_err _ _ _)
  case endCmd => exact endsWith_check id not_not.1 rfl
  case send =>
    refine endsWith_check (by simp [illFormedClassic_iff]) (by simp [illFormedClassic_iff]) ?_
    split_ifs
    · rfl
    · rfl
    · exact sendFrame_err _ _ _ _
  case sendFd =>
    refine endsWith_check (by simp [illFormedFd_iff]) (by simp [illFormedFd_iff]) ?_
    split_ifs
    · rfl
    · rfl
    · rfl
    · exact sendFrame_err _ _ _ _
  case recv | recvFd => exact endsWith_of_accepted (recvIn_err _ _) rfl
  case dispatch | dispatchFd => exact endsWith_of_accepted (dispatchIn_err _ _ _) rfl
  all_goals exact endsWith_of_accepted rfl rfl

/-- Settles O16: the commands by `exec_endsWith`; the handler operations never write `ERR`. -/
theorem refusalTable : Obligations.RefusalTable := by
  intro i s
  obtain ⟨t, ht⟩ := exec_next i s
  cases hi : i.isCommand
  · refine ⟨t, ht, ?_, nofun⟩
    cases i
    case isrc => exact (handlerOnly_isrc ht).err
    case isrFd => exact (handlerOnly_isrFd ht).err
    all_goals cases hi
  · obtain ⟨hcode, hrefused⟩ := exec_endsWith hi ht
    exact ⟨t, ht, hcode, fun _ => hrefused⟩

end Sys2Proof.Machine

/-! The statements of the reset file: what reset leaves, and that the platform's reset leaves it in any state. -/

namespace Sys2Proof.Machine

/-! ## The reset state (R51, R261) -/

/-- An emptied `D` array holds a 0 word everywhere (R51). -/
theorem d_frameFileZero (k : Fin 16) : FrameFile.zero.d[k] = 0 := Vector.getElem_replicate k.isLt

/-- No register shows the instance's parameters. -/
theorem readReg_setPar (r : HostReg) (p : Params) (s : State) : readReg r { s with par := p } = readReg r s := by
  cases r <;> rfl

/-- Every register shows 0 after reset (R51, R261); what a register shows does not depend on the parameters. -/
theorem readReg_resetWith (r : HostReg) (p : Params) : readReg r (State.resetWith p) = 0 :=
  calc readReg r (State.resetWith p) = readReg r State.reset := readReg_setPar r p State.reset
    _ = 0 := by
      cases r with
      | txfD k | rxfD k => exact d_frameFileZero k
      | _ => decide

/-- No configuration has been written after reset (R51). -/
theorem timing_resetWith (p : Params) : (State.resetWith p).timing = Timing.zero := rfl

/-- The empty configuration is classic and fails the five range checks against 0 of R133, bits 0, 2, 4, 6 and 8. -/
theorem consistencyWord_zero : consistencyWord Timing.zero = 0x155 := by decide

/-- CHECK right after reset (R132). -/
theorem exec_check_resetWith (p : Params) :
    exec .check (State.resetWith p) = .next { State.resetWith p with r0 := 0x155 } := by
  rw [exec_check, timing_resetWith, consistencyWord_zero]
  rfl

/-- Nothing has set `BITOK` right after reset, so the error word of BEGIN has bit 25 (R178). -/
theorem beginError_resetWith_bit (p : Params) : (beginError (State.resetWith p)).1.getLsbD 25 = true :=
  have hbitok : Timing.zero.bitok = false := rfl
  (beginError_bit _ 25).2 hbitok

/-- BEGIN right after reset records its error word, which is not 0, and ends (R175). -/
theorem exec_beginCmd_resetWith (p : Params) :
    exec .beginCmd (State.resetWith p) = .next { State.resetWith p with
      r0 := (beginError (State.resetWith p)).1
      port := (beginError (State.resetWith p)).2
      gstat := (State.resetWith p).gstat ||| 1 } := by
  have hclassic : Timing.zero.fd = false := rfl
  have hne : (beginError (State.resetWith p)).1 ≠ 0 := fun h => by simpa [h] using beginError_resetWith_bit p
  rw [exec_beginCmd rfl hclassic, beginPhaseA_of_ne_zero _ _ hne]
  rfl

/-- Settles O10: the fields are those of `State.resetWith`, the two commands answer as the lemmas above say. -/
theorem resetValues : Obligations.ResetValues := fun p =>
  ⟨fun r => readReg_resetWith r p, rfl, rfl, rfl, rfl, rfl, rfl, rfl, rfl, rfl, rfl, rfl, rfl,
    ⟨_, exec_check_resetWith p, rfl⟩, ⟨_, exec_beginCmd_resetWith p, beginError_resetWith_bit p, rfl⟩⟩

/-! ## The platform's reset (R260 to R262) -/

/-- Settles O11: the step takes the reset, which looks at nothing of the state but what stays. -/
theorem platformResetResult : Obligations.PlatformReset := fun _ _ h => step_cons h

end Sys2Proof.Machine
